-- ==== Sys2Proof/Word.lean ====
section
/-! DEFINITION. The machine's word types (00_scope.md rules R5, R9, R10; 30_encoding.md rule R81). -/

namespace Sys2Proof

/-- A 32-bit two's-complement word: register, data word, displacement, effective address (R9). -/
abbrev Word := BitVec 32

/-- One byte of program text, of a console line or of console output (R15, R335). -/
abbrev Byte := BitVec 8

/-- A canonical 64-bit instruction word (R81). -/
abbrev InstrWord := BitVec 64

/-- A register index in `[0, REGISTER_COUNT) = [0, 8)` (R5). -/
abbrev Reg := Fin 8

end Sys2Proof
end

