-- ==== Sys2Proof/Config.lean ====
section
/-! DEFINITION. What an implementation fixes (00_scope.md rules R5 to R9) and the free values the
spec leaves without a value. The parameters are plain data carried by the state, so a statement
about every state is a statement about every choice of them. -/

namespace Sys2Proof

/-- The implementation parameters: INSTR_CAPACITY (R7), DATA_CAPACITY (R8), PC_INDEX (R6). -/
structure Config where
  /-- INSTR_CAPACITY, OPEN in the spec (R7, decision D6). -/
  ic : Nat
  /-- DATA_CAPACITY (R8, decision D7). -/
  dc : Nat
  /-- PC_INDEX (R6, decision D5). -/
  pcIndex : Reg
  deriving DecidableEq, Repr

/-- The ranges of rules R7 and R8. -/
def Config.valid (c : Config) : Bool :=
  decide (1 ≤ c.ic ∧ c.ic ≤ 2147483647) && decide (1 ≤ c.dc ∧ c.dc ≤ 2147483647)

/-- The parameters of `State.reset`: `PC_INDEX = 7` and `DC = 10000` are the spec's defaults (R6,
R8). DESIGN CHOICE (log 1): `IC` is the largest capacity rule R7 allows; unsafe, since the spec gives
no value. -/
def Config.default : Config := ⟨2147483647, 10000, 7⟩

/-- What a load error is about (35_loader.md rule R130). -/
inductive LoadErrorKind where
  /-- A directive name other than `DATA` or `SDATA` (R114). -/
  | directive
  /-- A `.DATA` without a valid literal in `int32` (R115, R116). -/
  | dataLiteral
  /-- Malformed quoting or a bad string byte in `.SDATA` (R117). -/
  | quoting
  /-- A data word beyond the data store (R120). -/
  | dataFull
  /-- An address missing, not digits, or not below `IC` (R118). -/
  | address
  /-- A missing `:` (R118). -/
  | colon
  /-- A mnemonic missing or matching no opcode (R127). -/
  | mnemonic
  /-- A register operand missing, not digits, or not below 8 (R119). -/
  | register
  /-- A displacement missing or outside `int32` (R125). -/
  | displacement
  /-- A missing `,`, `(` or `)` (R123). -/
  | separator
  /-- A source that cannot be read, reported by the host with no line (R130). -/
  | sourceNotFound
  deriving DecidableEq, Repr

/-- FREE VALUE (log 13): the message text of a load error, which rule R130 does not specify and no
rule reads. -/
opaque Config.loadErrorMessage : LoadErrorKind → Nat → List Byte

end Sys2Proof
end

