-- ==== Sys2Proof/Syntax.lean ====
section
/-! DEFINITION. The instructions: one constructor of `Instr` per row of the opcode table
(30_encoding.md rules R80, R83), with the operand names of the source's text form. -/

namespace Sys2Proof

/-- The three operand classes (R80). -/
inductive OpClass where
  | rr | rm | ra
  deriving DecidableEq, Repr

/-- The 21 opcodes of rule R83, in the table's order. -/
inductive Opcode where
  | halt | in_ | inb | out | outb | outc | outnl | add | sub | mul | div
  | ld | st | lda | ldc | jlt | jle | jgt | jge | jeq | jne
  deriving DecidableEq, Repr

/-- An instruction with its three operands (R85). Class RR takes registers `r s t`; classes RM and
RA take a register `r`, a displacement or constant `d` and a base register `s`. Operands an opcode
does not read are kept (R89). -/
inductive Instr where
  | halt (r s t : Reg)
  | in_ (r s t : Reg)
  | inb (r s t : Reg)
  | out (r s t : Reg)
  | outb (r s t : Reg)
  | outc (r s t : Reg)
  | outnl (r s t : Reg)
  | add (r s t : Reg)
  | sub (r s t : Reg)
  | mul (r s t : Reg)
  | div (r s t : Reg)
  | ld (r : Reg) (d : Word) (s : Reg)
  | st (r : Reg) (d : Word) (s : Reg)
  | lda (r : Reg) (d : Word) (s : Reg)
  | ldc (r : Reg) (d : Word) (s : Reg)
  | jlt (r : Reg) (d : Word) (s : Reg)
  | jle (r : Reg) (d : Word) (s : Reg)
  | jgt (r : Reg) (d : Word) (s : Reg)
  | jge (r : Reg) (d : Word) (s : Reg)
  | jeq (r : Reg) (d : Word) (s : Reg)
  | jne (r : Reg) (d : Word) (s : Reg)
  deriving DecidableEq, Repr

end Sys2Proof
end

