-- ==== Sys2Proof/WellFormed.lean ====
section
/-! DEFINITION. When the raw fields of a canonical word are well formed (30_encoding.md rules R81,
R83, R88). A value of type `Instr` is well formed by its types: a register operand is below 8 and a
displacement is an int32, so every check the spec makes is a check on the raw fields, stated here. -/

namespace Sys2Proof

/-- The five fields of a canonical word, as cut out and not yet checked (R81). -/
structure WordFields where
  /-- `w[63:56]`, the opcode number. -/
  op : BitVec 8
  /-- `w[55:48]`, operand-1. -/
  a : BitVec 8
  /-- `w[47:40]`, operand-3. -/
  c : BitVec 8
  /-- `w[39:32]`, reserved. -/
  zero : BitVec 8
  /-- `w[31:0]`, operand-2. -/
  b : BitVec 32
  deriving DecidableEq, Repr

/-- The opcode number is one of rule R83: 0x00 to 0x0A, 0x10, 0x11, 0x18 to 0x1F. -/
def WordFields.opcodeDefined (f : WordFields) : Bool :=
  decide (f.op.toNat ≤ 0x0A) || decide (0x10 ≤ f.op.toNat ∧ f.op.toNat ≤ 0x11)
    || decide (0x18 ≤ f.op.toNat ∧ f.op.toNat ≤ 0x1F)

/-- Operand-1 is a register index (R81: `w[55:51] = 0`). -/
def WordFields.operand1Ok (f : WordFields) : Bool := decide (f.a.toNat < 8)

/-- Operand-3 is a register index (R81: `w[47:43] = 0`). -/
def WordFields.operand3Ok (f : WordFields) : Bool := decide (f.c.toNat < 8)

/-- The reserved byte is zero (R81). -/
def WordFields.reservedOk (f : WordFields) : Bool := decide (f.zero = 0)

/-- In class RR, which is `op[4] = 0` (R83), operand-2 is a register index (R81: `w[31:3] = 0`). -/
def WordFields.operand2Ok (f : WordFields) : Bool :=
  f.op.getLsbD 4 || decide (f.b.toNat < 8)

/-- All the checks of rule R88 together. -/
def WordFields.wellFormed (f : WordFields) : Bool :=
  f.opcodeDefined && f.operand1Ok && f.operand3Ok && f.reservedOk && f.operand2Ok

end Sys2Proof
end

