-- ==== Sys2Proof/Decode.lean ====
section
/-! DEFINITION. The opcode map, the canonical decoder and encoder (30_encoding.md rules R81 to R90).
The encoder stands after the decoder. -/

namespace Sys2Proof

/-- Why a word or byte string is not an instruction (R88, R90). -/
inductive Invalid where
  /-- `Invalid(opcode)`: the number is not in the table of rule R83. -/
  | opcode
  /-- `Invalid(field)`: a must-be-zero bit of rule R81 is set. -/
  | field
  /-- Fewer than eight bytes: not a whole word (R80: one length, one slot). -/
  | short
  deriving DecidableEq, Repr

/-- The opcodes in the table's order (R83). -/
def Opcode.all : List Opcode :=
  [.halt, .in_, .inb, .out, .outb, .outc, .outnl, .add, .sub, .mul, .div,
   .ld, .st, .lda, .ldc, .jlt, .jle, .jgt, .jge, .jeq, .jne]

/-- Opcode numbers (R83). -/
def Opcode.number : Opcode → BitVec 8
  | .halt => 0x00 | .in_ => 0x01 | .inb => 0x02 | .out => 0x03 | .outb => 0x04
  | .outc => 0x05 | .outnl => 0x06 | .add => 0x07 | .sub => 0x08 | .mul => 0x09
  | .div => 0x0A | .ld => 0x10 | .st => 0x11 | .lda => 0x18 | .ldc => 0x19
  | .jlt => 0x1A | .jle => 0x1B | .jgt => 0x1C | .jge => 0x1D | .jeq => 0x1E | .jne => 0x1F

/-- The operand class of each opcode (R83, R84). -/
def Opcode.cls : Opcode → OpClass
  | .halt | .in_ | .inb | .out | .outb | .outc | .outnl | .add | .sub | .mul | .div => .rr
  | .ld | .st => .rm
  | .lda | .ldc | .jlt | .jle | .jgt | .jge | .jeq | .jne => .ra

/-- Mnemonics (R82, R83). -/
def Opcode.name : Opcode → String
  | .halt => "HALT" | .in_ => "IN" | .inb => "INB" | .out => "OUT" | .outb => "OUTB"
  | .outc => "OUTC" | .outnl => "OUTNL" | .add => "ADD" | .sub => "SUB" | .mul => "MUL"
  | .div => "DIV" | .ld => "LD" | .st => "ST" | .lda => "LDA" | .ldc => "LDC"
  | .jlt => "JLT" | .jle => "JLE" | .jgt => "JGT" | .jge => "JGE" | .jeq => "JEQ" | .jne => "JNE"

/-- The opcode with a given number, if any (R83). -/
def Opcode.ofNumber? (n : BitVec 8) : Option Opcode :=
  Opcode.all.find? fun op => op.number == n

/-- A register index in range, or nothing (R5, R119). -/
def regOfNat? (n : Nat) : Option Reg :=
  if h : n < 8 then some ⟨n, h⟩ else none

/-- The register index an RR operand-2 word holds: its low three bits (R81, R85). -/
def regOfWord (b : Word) : Reg := Fin.ofNat 8 b.toNat

/-- The 32-bit operand-2 pattern of a register index (R81). -/
def wordOfReg (s : Reg) : Word := BitVec.ofNat 32 s.val

/-- The instruction of an opcode and its record's operands 1, 2, 3 (R85, R129): class RR reads
`a = r, b = s, c = t`, classes RM and RA read `a = r, b = d, c = s`. -/
def Instr.ofOperands (op : Opcode) (a : Reg) (b : Word) (c : Reg) : Instr :=
  match op with
  | .halt => .halt a (regOfWord b) c
  | .in_ => .in_ a (regOfWord b) c
  | .inb => .inb a (regOfWord b) c
  | .out => .out a (regOfWord b) c
  | .outb => .outb a (regOfWord b) c
  | .outc => .outc a (regOfWord b) c
  | .outnl => .outnl a (regOfWord b) c
  | .add => .add a (regOfWord b) c
  | .sub => .sub a (regOfWord b) c
  | .mul => .mul a (regOfWord b) c
  | .div => .div a (regOfWord b) c
  | .ld => .ld a b c
  | .st => .st a b c
  | .lda => .lda a b c
  | .ldc => .ldc a b c
  | .jlt => .jlt a b c
  | .jle => .jle a b c
  | .jgt => .jgt a b c
  | .jge => .jge a b c
  | .jeq => .jeq a b c
  | .jne => .jne a b c

/-- The fields of a canonical word (R81). -/
def fieldsOf (w : InstrWord) : WordFields where
  op := w.extractLsb' 56 8
  a := w.extractLsb' 48 8
  c := w.extractLsb' 40 8
  zero := w.extractLsb' 32 8
  b := w.extractLsb' 0 32

/-- Operand-2 is in range for the class: a register index in class RR, anything otherwise (R90). -/
def operand2InRange (cls : OpClass) (b : Word) : Bool :=
  match cls with
  | .rr => decide (b.toNat < 8)
  | .rm | .ra => true

/-- The canonical decoder, total on every word (R90). -/
def decode (w : InstrWord) : Except Invalid Instr :=
  let f := fieldsOf w
  match Opcode.ofNumber? f.op with
  | none => .error .opcode
  | some op =>
    match regOfNat? f.a.toNat, regOfNat? f.c.toNat with
    | some a, some c =>
      if f.zero = 0 ∧ operand2InRange op.cls f.b = true then .ok (Instr.ofOperands op a f.b c)
      else .error .field
    | _, _ => .error .field

/-- A 64-bit word from eight bytes, most significant byte first (R50, R81). -/
def wordOfBytes (b7 b6 b5 b4 b3 b2 b1 b0 : Byte) : InstrWord :=
  b7 ++ b6 ++ b5 ++ b4 ++ b3 ++ b2 ++ b1 ++ b0

/-- The decoder on bytes: one word from the front, most significant byte first, and the rest. -/
def decodeBytes (bs : List Byte) : Except Invalid (Instr × List Byte) :=
  match bs with
  | b7 :: b6 :: b5 :: b4 :: b3 :: b2 :: b1 :: b0 :: rest =>
    match decode (wordOfBytes b7 b6 b5 b4 b3 b2 b1 b0) with
    | .ok i => .ok (i, rest)
    | .error e => .error e
  | _ => .error .short

/-- The decoder on a table row's bits: the machine has one word per instruction, so bit 0 is the
least significant bit of the canonical word, as the table's masks number it. -/
def decodeTableWord (nbits w : Nat) : Option Instr :=
  (decode (BitVec.ofNat 64 (w % 2 ^ nbits))).toOption

/-! ## The encoder -/

/-- The opcode of an instruction. -/
def Instr.opcode : Instr → Opcode
  | .halt _ _ _ => .halt | .in_ _ _ _ => .in_ | .inb _ _ _ => .inb | .out _ _ _ => .out
  | .outb _ _ _ => .outb | .outc _ _ _ => .outc | .outnl _ _ _ => .outnl
  | .add _ _ _ => .add | .sub _ _ _ => .sub | .mul _ _ _ => .mul | .div _ _ _ => .div
  | .ld _ _ _ => .ld | .st _ _ _ => .st | .lda _ _ _ => .lda | .ldc _ _ _ => .ldc
  | .jlt _ _ _ => .jlt | .jle _ _ _ => .jle | .jgt _ _ _ => .jgt | .jge _ _ _ => .jge
  | .jeq _ _ _ => .jeq | .jne _ _ _ => .jne

/-- Operand-1 of the record (R85). -/
def Instr.operand1 : Instr → Reg
  | .halt r _ _ | .in_ r _ _ | .inb r _ _ | .out r _ _ | .outb r _ _ | .outc r _ _
  | .outnl r _ _ | .add r _ _ | .sub r _ _ | .mul r _ _ | .div r _ _ | .ld r _ _ | .st r _ _
  | .lda r _ _ | .ldc r _ _ | .jlt r _ _ | .jle r _ _ | .jgt r _ _ | .jge r _ _
  | .jeq r _ _ | .jne r _ _ => r

/-- Operand-2 of the record, as its 32-bit pattern (R81, R85). -/
def Instr.operand2 : Instr → Word
  | .halt _ s _ | .in_ _ s _ | .inb _ s _ | .out _ s _ | .outb _ s _ | .outc _ s _
  | .outnl _ s _ | .add _ s _ | .sub _ s _ | .mul _ s _ | .div _ s _ => wordOfReg s
  | .ld _ d _ | .st _ d _ | .lda _ d _ | .ldc _ d _ | .jlt _ d _ | .jle _ d _ | .jgt _ d _
  | .jge _ d _ | .jeq _ d _ | .jne _ d _ => d

/-- Operand-3 of the record (R85). -/
def Instr.operand3 : Instr → Reg
  | .halt _ _ t | .in_ _ _ t | .inb _ _ t | .out _ _ t | .outb _ _ t | .outc _ _ t
  | .outnl _ _ t | .add _ _ t | .sub _ _ t | .mul _ _ t | .div _ _ t => t
  | .ld _ _ s | .st _ _ s | .lda _ _ s | .ldc _ _ s | .jlt _ _ s | .jle _ _ s | .jgt _ _ s
  | .jge _ _ s | .jeq _ _ s | .jne _ _ s => s

/-- The packing of rule R81: `op ++ a ++ c ++ 0x00 ++ b32`. -/
def packFields (op : BitVec 8) (a : Reg) (b : Word) (c : Reg) : InstrWord :=
  op ++ BitVec.ofNat 8 a.val ++ BitVec.ofNat 8 c.val ++ (0 : BitVec 8) ++ b

/-- The canonical encoder (R90). -/
def encode (i : Instr) : InstrWord :=
  packFields i.opcode.number i.operand1 i.operand2 i.operand3

/-- The canonical word as bytes, most significant byte first (R50, R81). -/
def encodeBytes (i : Instr) : List Byte :=
  [(encode i).extractLsb' 56 8, (encode i).extractLsb' 48 8, (encode i).extractLsb' 40 8,
   (encode i).extractLsb' 32 8, (encode i).extractLsb' 24 8, (encode i).extractLsb' 16 8,
   (encode i).extractLsb' 8 8, (encode i).extractLsb' 0 8]

end Sys2Proof
end

