-- ==== Sys2Proof/Machine/State.lean ====
section
/-! DEFINITION. The machine's state as plain data (10_state.md rules R20 to R42), the reasons a step
can stop, and the state right after power-on. -/

namespace Sys2Proof.Machine

/-- A sparse store in canonical form: addresses strictly rising, no entry equal to what an unlisted
address reads as (`Memory.wf`). An unlisted address reads as its full-reset contents (R40; log 16). -/
abbrev Memory (α : Type) := List (Nat × α)

/-- Usage tag of an instruction slot (R26). -/
inductive UsageTag where
  | unused | assigned
  deriving DecidableEq, Repr

/-- One instruction slot: the record as its canonical word, its usage tag and its comment (R25 to
R27, R81). DESIGN CHOICE (log 3): the word stands for the record. -/
structure InstrSlot where
  word : InstrWord
  tag : UsageTag
  comment : List Byte
  deriving DecidableEq, Repr

/-- Provenance tag of a data slot (R30). -/
inductive DataTag where
  | unused
  | staticNumeric
  | staticChar
  /-- The address of the last instruction that stored to the slot. -/
  | writer (address : Nat)
  deriving DecidableEq, Repr

/-- One data slot: its word and its provenance tag (R29, R30). -/
structure DataSlot where
  word : Word
  tag : DataTag
  deriving DecidableEq, Repr

/-- The one-shot breakpoint (R32). -/
inductive Breakpoint where
  | none
  /-- Fires on the next step whose fetch address is `a`. -/
  | armed (a : Word)
  /-- Has fired at `a`, re-arms at the first later step that fetches elsewhere. -/
  | pending (a : Word)
  deriving DecidableEq, Repr

/-- The six step results (60_exceptions.md rule R320). -/
inductive StepResult where
  | ok | halted | instructionFault | dataFault | divideByZero | inputError
  deriving DecidableEq, Repr

/-- What a blocked input instruction reads (41_system_io.md rules R191, R192). -/
inductive InputKind where
  | integer | boolean
  deriving DecidableEq, Repr

/-- The input a step waits for: what it reads and the register it goes to (R200). -/
structure InputRequest where
  kind : InputKind
  dest : Reg
  deriving DecidableEq, Repr

/-- The bulk run a blocked step belongs to: how many calls of `step` may follow the blocked one, and
how many have returned before it (R200, R333). -/
structure PendingRun where
  further : Nat
  calls : Nat
  deriving DecidableEq, Repr

/-- A load error: line (none only for a source that could not be read), address if known, and what
it is about (35_loader.md rule R130). -/
structure LoadError where
  line : Option Nat
  address : Option Nat
  kind : LoadErrorKind
  deriving DecidableEq, Repr

/-- What a load returns (R110). -/
inductive LoadResult where
  | ok
  | error (e : LoadError)
  deriving DecidableEq, Repr

/-- Everything the machine holds (R39). -/
structure State where
  /-- The implementation parameters (R6, R7, R8); no step changes them (log 2). -/
  config : Config
  /-- `x[0]` to `x[7]`; `x[PC_INDEX]` is the program counter (R20, R21). -/
  regs : Vector Word 8
  /-- The instruction store with tags and comments (R25 to R27). -/
  imem : Memory InstrSlot
  /-- The data store with provenance tags (R29, R30). -/
  dmem : Memory DataSlot
  /-- The breakpoint (R32). -/
  bp : Breakpoint
  /-- The instruction counter (R33). -/
  icount : Nat
  /-- Input channel: lines supplied and not yet taken, oldest first (R334). -/
  inputLines : List (List Byte)
  /-- Input channel history: lines taken, oldest first (R39). -/
  inputTaken : List (List Byte)
  /-- The host has reported end of input (R334). -/
  inputEnded : Bool
  /-- Output channel history (R335). -/
  output : List Byte
  /-- The input a blocked step waits for, if one does (R200; log 6). -/
  waiting : Option InputRequest
  /-- The model's own field: the host's call that has not returned because its step is blocked (R200,
  R333; log 12). -/
  pendingRun : Option PendingRun
  /-- The model's own field: the result the last step returned (R320; log 5). -/
  result : Option StepResult
  /-- The model's own field: what the last load returned (R131; log 8). -/
  loadResult : Option LoadResult
  deriving DecidableEq, Repr

/-- No step of this machine ends in a fault: every fault of the spec is a step result that a step
returns while the machine goes on (R323, R324; log 17). So the type has no constructor. -/
inductive Fault
  deriving DecidableEq, Repr

/-- Why a step is refused. -/
inductive Refusal where
  /-- Raised by an arm of `exec` whose instruction has no meaning yet; safe. -/
  | notModelled (mnemonic : String)
  /-- Raised by `step` when the fetched word decodes to `Invalid`: such a word has no meaning and no
  reset or load produces it (30_encoding.md rule R88; log 4); safe. -/
  | invalidWord (w : InstrWord)
  deriving DecidableEq, Repr

/-- What a step or a meaning answers. -/
abbrev Outcome := Host.Outcome State Fault Refusal

/-- The state at power-on (R42), which is the full-reset state of rule R40, for given parameters.
Both stores list nothing: an unlisted slot reads as its full-reset contents. DESIGN CHOICE (logs 5,
7, 8): the channels are empty and nothing has been returned yet. -/
def State.powerOn (c : Config) : State where
  config := c
  regs := Vector.replicate 8 0
  imem := []
  dmem := []
  bp := .none
  icount := 0
  inputLines := []
  inputTaken := []
  inputEnded := false
  output := []
  waiting := none
  pendingRun := none
  result := none
  loadResult := none

/-- The machine right after reset, with the parameters of `Config.default`. -/
def State.reset : State := State.powerOn Config.default

end Sys2Proof.Machine
end

