-- ==== Sys2Proof/Machine/Ops.lean ====
section
/-! DEFINITION. The named operations over stores, registers and the step result. -/

namespace Sys2Proof.Machine

/-! ## Sparse stores. `d a` is what an unlisted address `a` reads as. -/

/-- The slot at an address. -/
def Memory.read {α : Type} (d : Nat → α) (mem : Memory α) (a : Nat) : α :=
  match mem with
  | [] => d a
  | (k, v) :: rest => if k = a then v else Memory.read d rest a

/-- A store without any entry for an address. -/
def Memory.erase {α : Type} (mem : Memory α) (a : Nat) : Memory α :=
  mem.filter fun e => e.1 != a

/-- An entry put in before the first higher address. -/
def Memory.insert {α : Type} (mem : Memory α) (a : Nat) (v : α) : Memory α :=
  match mem with
  | [] => [(a, v)]
  | (k, w) :: rest =>
    if a < k then (a, v) :: (k, w) :: rest else (k, w) :: Memory.insert rest a v

/-- The store after a write; a value an unlisted address reads as is not listed. -/
def Memory.write {α : Type} [DecidableEq α] (d : Nat → α) (mem : Memory α) (a : Nat) (v : α) :
    Memory α :=
  if v = d a then Memory.erase mem a else Memory.insert (Memory.erase mem a) a v

/-- Addresses rise strictly. -/
def Memory.rising {α : Type} (mem : Memory α) : Bool :=
  match mem with
  | [] => true
  | (k, _) :: rest => (rest.all fun e => decide (k < e.1)) && Memory.rising rest

/-- The canonical form: addresses rise and no entry equals what an unlisted address reads as. -/
def Memory.wf {α : Type} [DecidableEq α] (d : Nat → α) (mem : Memory α) : Bool :=
  Memory.rising mem && mem.all fun e => decide (e.2 ≠ d e.1)

/-! ## What unlisted slots read as: the full-reset contents (10_state.md rule R40) -/

/-- `HALT 0,0,0`, `UNUSED`, no comment (R40). -/
def resetInstrSlot (_ : Nat) : InstrSlot := ⟨0, .unused, []⟩

/-- 0 and `UNUSED`, but `DC - 1` in slot 0 (R31, R40). -/
def resetDataSlot (c : Config) (a : Nat) : DataSlot :=
  ⟨if a = 0 then BitVec.ofNat 32 (c.dc - 1) else 0, .unused⟩

/-- Instruction slot `a` (R25, R26). -/
def State.instrSlot (m : State) (a : Nat) : InstrSlot := Memory.read resetInstrSlot m.imem a

/-- Instruction slot `a` replaced; only the loader does this (R28). -/
def State.setInstrSlot (m : State) (a : Nat) (v : InstrSlot) : State :=
  { m with imem := Memory.write resetInstrSlot m.imem a v }

/-- Data slot `a` (R29, R30). -/
def State.dataSlot (m : State) (a : Nat) : DataSlot :=
  Memory.read (resetDataSlot m.config) m.dmem a

/-- Data slot `a` replaced. -/
def State.setDataSlot (m : State) (a : Nat) (v : DataSlot) : State :=
  { m with dmem := Memory.write (resetDataSlot m.config) m.dmem a v }

/-! ## Registers -/

/-- `x[r]` (R12, R20). -/
def State.readReg (m : State) (r : Reg) : Word := m.regs[r]

/-- `x[r] <- v` (R12, R20): no register is hard-wired. -/
def State.writeReg (m : State) (r : Reg) (v : Word) : State := { m with regs := m.regs.set r v }

/-- `x[PC]` (R21). -/
def State.pc (m : State) : Word := m.readReg m.config.pcIndex

/-- `x[PC] <- v` (R12, R21). -/
def State.writePc (m : State) (v : Word) : State := m.writeReg m.config.pcIndex v

/-! ## Step results -/

/-- The state in which a step has returned a result; a step that has returned waits for nothing. -/
def State.finish (m : State) (r : StepResult) : State :=
  { m with result := some r, waiting := none }

/-- Ending a step with a result (R13). This is all that taking an exception is on this machine: the
writes made so far stand, nothing is saved, no mode changes and control goes nowhere (R323); the
return from one is the next step, which fetches from `x[PC]` as it stands (R324). -/
def raise (r : StepResult) (m : State) : Outcome := .next (m.finish r)

/-- The numeric codes of the results (R320). -/
def StepResult.code : StepResult → Nat
  | .ok => 0
  | .halted => 1
  | .instructionFault => 2
  | .dataFault => 3
  | .divideByZero => 4
  | .inputError => 5

/-! ## Console output -/

/-- `Emit(bs)`: bytes appended to the output channel (R13, R335). -/
def State.emit (m : State) (bs : List Byte) : State := { m with output := m.output ++ bs }

end Sys2Proof.Machine
end

