-- ==== Sys2Proof/Machine/Operands.lean ====
section
/-! DEFINITION. Integer primitives and operand forms (00_scope.md rules R10, R11; 30_encoding.md
rules R85, R86; 40_cycle.md rules R165, R166). -/

namespace Sys2Proof.Machine

/-- `wrap32(n)`: the 32-bit word congruent to `n` modulo 2^32 (R10). -/
def wrap32 (n : Int) : Word := BitVec.ofInt 32 n

/-- `n` lies in `int32` (R10). -/
def inInt32 (n : Int) : Bool := decide (-2147483648 ≤ n ∧ n ≤ 2147483647)

/-- `mod256(v)` as a byte (R11). -/
def mod256 (v : Word) : Byte := BitVec.ofInt 8 v.toInt

/-- `ea = wrap32(d + x[s])` (R165). -/
def State.effectiveAddress (m : State) (d : Word) (s : Reg) : Word :=
  wrap32 (d.toInt + (m.readReg s).toInt)

/-- `0 <= ea < DC` (R53, R166). -/
def State.dataInRange (m : State) (ea : Word) : Bool :=
  decide (0 ≤ ea.toInt ∧ ea.toInt < (m.config.dc : Int))

/-- `0 <= a < IC` (R161). -/
def State.instrInRange (m : State) (a : Word) : Bool :=
  decide (0 ≤ a.toInt ∧ a.toInt < (m.config.ic : Int))

/-- `MemRead(ea, 1)` for an `ea` in range (R12). -/
def State.memRead (m : State) (ea : Word) : Word := (m.dataSlot ea.toNat).word

/-- `MemWrite(ea, 1, v)` together with `DTag[ea] <- t` (R12, R261). -/
def State.memWrite (m : State) (ea : Word) (v : Word) (t : DataTag) : State :=
  m.setDataSlot ea.toNat ⟨v, t⟩

/-- `pc0` as an instruction sees it: `x[PC]` holds `pc0 + 1` while it executes (R24, R163). DEDUCED
(log 18). -/
def State.fetchAddress (m : State) : Word := m.pc - 1

/-- The registers an instruction reads (R86). -/
def Instr.regsRead : Instr → List Reg
  | .halt _ _ _ | .in_ _ _ _ | .inb _ _ _ | .outnl _ _ _ | .ldc _ _ _ => []
  | .out r _ _ | .outb r _ _ | .outc r _ _ => [r]
  | .add _ s t | .sub _ s t | .mul _ s t | .div _ s t => [s, t]
  | .ld _ _ s | .lda _ _ s => [s]
  | .st r _ s => [s, r]
  | .jlt r _ s | .jle r _ s | .jgt r _ s | .jge r _ s | .jeq r _ s | .jne r _ s => [r, s]

/-- The registers an instruction may write, beyond the advance of the program counter (R86). -/
def Instr.regsWritten (pcIndex : Reg) : Instr → List Reg
  | .halt _ _ _ | .out _ _ _ | .outb _ _ _ | .outc _ _ _ | .outnl _ _ _ | .st _ _ _ => []
  | .in_ r _ _ | .inb r _ _ => [r]
  | .add r _ _ | .sub r _ _ | .mul r _ _ | .div r _ _ => [r]
  | .ld r _ _ | .lda r _ _ | .ldc r _ _ => [r]
  | .jlt _ _ _ | .jle _ _ _ | .jgt _ _ _ | .jge _ _ _ | .jeq _ _ _ | .jne _ _ _ => [pcIndex]

end Sys2Proof.Machine
end

