-- ==== Sys2Proof/Machine/Cycle.lean ====
section
/-! DEFINITION. The frame of a step before dispatch: fetch check, breakpoint check, advance and
fetch (40_cycle.md rules R160 to R163). -/

namespace Sys2Proof.Machine

/-- How the frame of a step ends: the step is over with a result, or a word is to be executed. -/
inductive CycleStart where
  | stop (m : State)
  | run (w : InstrWord) (m : State)
  deriving DecidableEq, Repr

/-- `bp = ARMED(pc0)` (R162). -/
def State.breakpointFires (m : State) : Bool := decide (m.bp = .armed m.pc)

/-- `bp <- PENDING(pc0)` (R162). -/
def State.disarm (m : State) : State := { m with bp := .pending m.pc }

/-- `if bp = PENDING(a) and a != pc0: bp <- ARMED(a)` (R162). -/
def State.rearm (m : State) : State :=
  match m.bp with
  | .pending a => if a = m.pc then m else { m with bp := .armed a }
  | .none | .armed _ => m

/-- `x[PC] <- pc0 + 1; icount <- icount + 1` (R163). -/
def State.advance (m : State) : State :=
  { m.writePc (m.pc + 1) with icount := m.icount + 1 }

/-- The word of the instruction at `x[PC]` (R163). -/
def State.fetchWord (m : State) : InstrWord := (m.instrSlot m.pc.toNat).word

/-- The frame, in the order of rule R160: fetch check (R161), breakpoint check (R162), advance and
fetch (R163). -/
def beginCycle (m : State) : CycleStart :=
  if m.instrInRange m.pc = false then .stop (m.finish .instructionFault)
  else if m.breakpointFires then .stop (m.disarm.finish .halted)
  else .run m.fetchWord m.rearm.advance

/-- A state in which the next step reaches the fetch: no blocked step, a fetch address in range, no
breakpoint about to fire. Nothing else is changed. -/
def State.fetchReady (m : State) : State :=
  let awake := { m with waiting := none }
  let placed := if awake.instrInRange awake.pc then awake else awake.writePc 0
  if placed.breakpointFires then placed.disarm else placed

/-- A word put into the slot the next step fetches from; its tag and comment stay. -/
def State.placeWord (m : State) (w : InstrWord) : State :=
  m.setInstrSlot m.pc.toNat { m.instrSlot m.pc.toNat with word := w }

end Sys2Proof.Machine
end

