-- ==== Sys2Proof/Machine/Arithmetic.lean ====
section
/-! DEFINITION. Integer arithmetic (42_arithmetic.md rules R230 to R234). -/

namespace Sys2Proof.Machine

/-- `x[r] <- wrap32(x[s] op x[t]); return OK`: both sources are read before the write (R230). -/
def arith (op : Int → Int → Int) (r s t : Reg) (m : State) : Outcome :=
  raise .ok (m.writeReg r (wrap32 (op (m.readReg s).toInt (m.readReg t).toInt)))

/-- `ADD` (R231). -/
def execAdd (r s t : Reg) (m : State) : Outcome := arith (fun a b => a + b) r s t m

/-- `SUB` (R232). -/
def execSub (r s t : Reg) (m : State) : Outcome := arith (fun a b => a - b) r s t m

/-- `MUL` (R233). -/
def execMul (r s t : Reg) (m : State) : Outcome := arith (fun a b => a * b) r s t m

/-- `DIV` (R234): truncating, and `DIVIDE-BY-ZERO` for a zero divisor. -/
def execDiv (r s t : Reg) (m : State) : Outcome :=
  if m.readReg t = 0 then raise .divideByZero m else arith Int.tdiv r s t m

end Sys2Proof.Machine
end

