-- ==== Sys2Proof/Machine/Flags.lean ====
section
/-! DEFINITION. The machine has no flags (10_state.md rule R34): a conditional jump compares a
register with zero. The six comparisons stand here. -/

namespace Sys2Proof.Machine

/-- The comparisons of the six jumps (44_control.md rules R291 to R296). -/
inductive Cond where
  | lt | le | gt | ge | eq | ne
  deriving DecidableEq, Repr

/-- `cond(v, 0)`, a signed comparison (R11, R290). -/
def condHolds (c : Cond) (v : Word) : Bool :=
  match c with
  | .lt => decide (v.toInt < 0)
  | .le => decide (v.toInt ≤ 0)
  | .gt => decide (v.toInt > 0)
  | .ge => decide (v.toInt ≥ 0)
  | .eq => decide (v.toInt = 0)
  | .ne => decide (v.toInt ≠ 0)

end Sys2Proof.Machine
end

