-- ==== Sys2Proof/Machine/Control.lean ====
section
/-! DEFINITION. The six conditional jumps (44_control.md rules R290 to R296). -/

namespace Sys2Proof.Machine

/-- `if cond(x[r], 0): x[PC] <- ea; return OK` (R290); the target is not range-checked. -/
def jumpIf (c : Cond) (r : Reg) (d : Word) (s : Reg) (m : State) : Outcome :=
  raise .ok (if condHolds c (m.readReg r) then m.writePc (m.effectiveAddress d s) else m)

/-- `JLT` (R291). -/
def execJlt (r : Reg) (d : Word) (s : Reg) (m : State) : Outcome := jumpIf .lt r d s m

/-- `JLE` (R292). -/
def execJle (r : Reg) (d : Word) (s : Reg) (m : State) : Outcome := jumpIf .le r d s m

/-- `JGT` (R293). -/
def execJgt (r : Reg) (d : Word) (s : Reg) (m : State) : Outcome := jumpIf .gt r d s m

/-- `JGE` (R294). -/
def execJge (r : Reg) (d : Word) (s : Reg) (m : State) : Outcome := jumpIf .ge r d s m

/-- `JEQ` (R295). -/
def execJeq (r : Reg) (d : Word) (s : Reg) (m : State) : Outcome := jumpIf .eq r d s m

/-- `JNE` (R296). -/
def execJne (r : Reg) (d : Word) (s : Reg) (m : State) : Outcome := jumpIf .ne r d s m

end Sys2Proof.Machine
end

