-- ==== Sys2Proof/Machine/MemoryOps.lean ====
section
/-! DEFINITION. Load, store, load-address, load-constant (43_memory_ops.md rules R260 to R263), with
the data check of 40_cycle.md rule R166 before the effect of `LD` and `ST`. -/

namespace Sys2Proof.Machine

/-- The data check: `DATA-FAULT` when `ea` is outside `[0, DC)`, else the effect (R166). -/
def withDataCheck (ea : Word) (effect : State) (m : State) : Outcome :=
  if m.dataInRange ea then raise .ok effect else raise .dataFault m

/-- `LD` (R260). -/
def execLd (r : Reg) (d : Word) (s : Reg) (m : State) : Outcome :=
  withDataCheck (m.effectiveAddress d s)
    (m.writeReg r (m.memRead (m.effectiveAddress d s))) m

/-- `ST` (R261): the tag records the address of the store itself. -/
def execSt (r : Reg) (d : Word) (s : Reg) (m : State) : Outcome :=
  withDataCheck (m.effectiveAddress d s)
    (m.memWrite (m.effectiveAddress d s) (m.readReg r) (.writer m.fetchAddress.toNat)) m

/-- `LDA` (R262): the effective address itself, not range-checked. -/
def execLda (r : Reg) (d : Word) (s : Reg) (m : State) : Outcome :=
  raise .ok (m.writeReg r (m.effectiveAddress d s))

/-- `LDC` (R263): the constant; the base register is not read. -/
def execLdc (r : Reg) (d : Word) (_s : Reg) (m : State) : Outcome := raise .ok (m.writeReg r d)

end Sys2Proof.Machine
end

