-- ==== Sys2Proof/Machine/Text.lean ====
section
/-! DEFINITION. Byte classes, signed literals and decimal spelling, shared by the loader and the
console (00_scope.md rule R15; 35_loader.md rule R115; 41_system_io.md rule R193). -/

namespace Sys2Proof.Machine

/-- The bytes of an ASCII string. -/
def ascii (s : String) : List Byte := s.toList.map fun c => BitVec.ofNat 8 c.toNat

/-- Space or tab (R15). -/
def isBlank (b : Byte) : Bool := b == 0x20 || b == 0x09

/-- `0` to `9` (R15). -/
def isDigit (b : Byte) : Bool := decide (0x30 ≤ b.toNat ∧ b.toNat ≤ 0x39)

/-- `A` to `Z` or `a` to `z` (R15). -/
def isLetter (b : Byte) : Bool :=
  decide (0x41 ≤ b.toNat ∧ b.toNat ≤ 0x5A) || decide (0x61 ≤ b.toNat ∧ b.toNat ≤ 0x7A)

/-- `-` -/
def minusByte : Byte := 0x2D

/-- `#`, the halt mark (R191). -/
def hashByte : Byte := 0x23

/-- `+` or `-` (R115). -/
def isSign (b : Byte) : Bool := b == 0x2B || b == minusByte

/-- Text without its leading blanks. -/
def skipBlanks (bs : List Byte) : List Byte := bs.dropWhile isBlank

/-- The decimal value of a run of digits, most significant first (R115). -/
def digitsValue (ds : List Byte) : Nat := ds.foldl (fun n b => 10 * n + (b.toNat - 0x30)) 0

/-- `(-1)^m * n`, with `m` the number of `-` bytes in the sign run and `n` the digits' value (R115). -/
def literalValue (signs digits : List Byte) : Int :=
  (-1) ^ signs.count minusByte * (digitsValue digits : Int)

/-- A signed literal at the front of a text, and the text after it; nothing when there is no digit
after the sign run or the value is outside `int32` (R115). -/
def parseSint (bs : List Byte) : Option (Word × List Byte) :=
  let signs := bs.takeWhile isSign
  let afterSigns := bs.dropWhile isSign
  let digits := afterSigns.takeWhile isDigit
  if digits = [] ∨ inInt32 (literalValue signs digits) = false then none
  else some (wrap32 (literalValue signs digits), afterSigns.dropWhile isDigit)

/-- The byte of a decimal digit. -/
def digitByte (n : Nat) : Byte := BitVec.ofNat 8 (0x30 + n % 10)

/-- The digits of `n`, most significant first, without leading zeros, for `n` below 10^fuel. -/
def decimalDigits (fuel n : Nat) : List Byte :=
  match fuel with
  | 0 => []
  | f + 1 => if n < 10 then [digitByte n] else decimalDigits f (n / 10) ++ [digitByte n]

/-- The shortest decimal spelling of a natural number below 10^10, which every `int32` magnitude and
every store address is. -/
def decimalNat (n : Nat) : List Byte := decimalDigits 10 n

/-- `decimal(v)`, the shortest decimal spelling of a word (R193). -/
def decimal (v : Word) : List Byte :=
  if v.toInt < 0 then minusByte :: decimalNat v.toInt.natAbs else decimalNat v.toInt.natAbs

end Sys2Proof.Machine
end

