-- ==== Sys2Proof/Machine/Console.lean ====
section
/-! DEFINITION. Console input: line formats and the input operation with its wait
(41_system_io.md rules R191, R192, R197 to R200; 60_exceptions.md rule R334). -/

namespace Sys2Proof.Machine

/-- What an input line holds: a value with its halt flag, or nothing that can be read (R197, R198). -/
inductive LineValue where
  | value (v : Word) (haltFlag : Bool)
  | malformed
  deriving DecidableEq, Repr

/-- `parseInt(line)`: `blank* sint blank* ( "#" blank* )?` and nothing else (R197). -/
def parseInt (line : List Byte) : LineValue :=
  match parseSint (skipBlanks line) with
  | none => .malformed
  | some (v, rest) =>
    match skipBlanks rest with
    | [] => .value v false
    | c :: more => if c = hashByte ∧ more.all isBlank = true then .value v true else .malformed

/-- `F`, `f` or `0`: the bytes that read as false (R198). -/
def isFalseByte (b : Byte) : Bool := b == 0x46 || b == 0x66 || b == 0x30

/-- `parseBool(line)`: the first byte that is not a blank decides the value, the last one the halt
flag; every line has a value (R198). -/
def parseBool (line : List Byte) : LineValue :=
  let falsy := match skipBlanks line with
    | [] => false
    | c :: _ => isFalseByte c
  let haltFlag := match skipBlanks line.reverse with
    | [] => false
    | c :: _ => decide (c = hashByte)
  .value (if falsy then 0 else 1) haltFlag

/-- The reading a request asks for. -/
def parseLine (k : InputKind) (line : List Byte) : LineValue :=
  match k with
  | .integer => parseInt line
  | .boolean => parseBool line

/-- The end of an input instruction whose line has been read (R191, R192). -/
def deliver (dest : Reg) (v : LineValue) (m : State) : State :=
  match v with
  | .value w haltFlag => (m.writeReg dest w).finish (if haltFlag then .halted else .ok)
  | .malformed => m.finish .inputError

/-- The state after the next line has been taken from the input channel. -/
def State.takeLine (m : State) (line : List Byte) (rest : List (List Byte)) : State :=
  { m with inputLines := rest, inputTaken := m.inputTaken ++ [line] }

/-- The state of a step that is blocked on an input: it has returned no result (R200; log 6). -/
def State.block (m : State) (q : InputRequest) : State :=
  { m with waiting := some q, result := none }

/-- A line supplied by the host, after those not yet taken (R334). -/
def State.supplyLine (m : State) (line : List Byte) : State :=
  { m with inputLines := m.inputLines ++ [line] }

/-- The end of input reported by the host (R334). -/
def State.endInput (m : State) : State := { m with inputEnded := true }

/-- `Input()` and what follows it: a line if there is one, `INPUT-ERROR` at end of input (R199),
otherwise the step waits (R200, R334). -/
def readInput (q : InputRequest) (m : State) : State :=
  match m.inputLines with
  | line :: rest => deliver q.dest (parseLine q.kind line) (m.takeLine line rest)
  | [] => if m.inputEnded then m.finish .inputError else m.block q

end Sys2Proof.Machine
end

