-- ==== Sys2Proof/Machine/SystemIo.lean ====
section
/-! DEFINITION. HALT and console I/O (41_system_io.md rules R190 to R196). Each meaning runs after
the frame of the step: `x[PC]` is already `pc0 + 1` (40_cycle.md rule R163). -/

namespace Sys2Proof.Machine

/-- `HALT` (R190). -/
def execHalt (_r _s _t : Reg) (m : State) : Outcome := raise .halted m

/-- `IN` (R191): an integer line into `x[r]`. -/
def execIn (r _s _t : Reg) (m : State) : Outcome := .next (readInput ⟨.integer, r⟩ m)

/-- `INB` (R192): a boolean line into `x[r]`. -/
def execInb (r _s _t : Reg) (m : State) : Outcome := .next (readInput ⟨.boolean, r⟩ m)

/-- `OUT` (R193). -/
def execOut (r _s _t : Reg) (m : State) : Outcome := raise .ok (m.emit (decimal (m.readReg r)))

/-- `OUTB` (R194): `F` for 0, `T` for anything else. -/
def execOutb (r _s _t : Reg) (m : State) : Outcome :=
  raise .ok (m.emit (if m.readReg r = 0 then ascii "F" else ascii "T"))

/-- `OUTC` (R195). -/
def execOutc (r _s _t : Reg) (m : State) : Outcome := raise .ok (m.emit [mod256 (m.readReg r)])

/-- `OUTNL` (R196). -/
def execOutnl (_r _s _t : Reg) (m : State) : Outcome := raise .ok (m.emit [0x0A])

end Sys2Proof.Machine
end

