-- ==== Sys2Proof/Machine/Dispatch.lean ====
section
/-! DEFINITION. Dispatch on the opcode (40_cycle.md rule R167): one arm per instruction. -/

namespace Sys2Proof.Machine

def exec (i : Instr) (m : State) : Host.Outcome State Fault Refusal :=
  match i with
  -- HALT and console I/O (41_system_io.md)
  | .halt r s t => Sys2Proof.Machine.execHalt r s t m
  | .in_ r s t => Sys2Proof.Machine.execIn r s t m
  | .inb r s t => Sys2Proof.Machine.execInb r s t m
  | .out r s t => Sys2Proof.Machine.execOut r s t m
  | .outb r s t => Sys2Proof.Machine.execOutb r s t m
  | .outc r s t => Sys2Proof.Machine.execOutc r s t m
  | .outnl r s t => Sys2Proof.Machine.execOutnl r s t m
  -- Arithmetic (42_arithmetic.md)
  | .add r s t => Sys2Proof.Machine.execAdd r s t m
  | .sub r s t => Sys2Proof.Machine.execSub r s t m
  | .mul r s t => Sys2Proof.Machine.execMul r s t m
  | .div r s t => Sys2Proof.Machine.execDiv r s t m
  -- Memory (43_memory_ops.md)
  | .ld r d s => Sys2Proof.Machine.execLd r d s m
  | .st r d s => Sys2Proof.Machine.execSt r d s m
  | .lda r d s => Sys2Proof.Machine.execLda r d s m
  | .ldc r d s => Sys2Proof.Machine.execLdc r d s m
  -- Control transfer (44_control.md)
  | .jlt r d s => Sys2Proof.Machine.execJlt r d s m
  | .jle r d s => Sys2Proof.Machine.execJle r d s m
  | .jgt r d s => Sys2Proof.Machine.execJgt r d s m
  | .jge r d s => Sys2Proof.Machine.execJge r d s m
  | .jeq r d s => Sys2Proof.Machine.execJeq r d s m
  | .jne r d s => Sys2Proof.Machine.execJne r d s m

end Sys2Proof.Machine
end

