-- ==== Sys2Proof/Machine/Step.lean ====
section
/-! DEFINITION. One step (40_cycle.md rule R160). -/

namespace Sys2Proof.Machine

/-- One step of the machine. A blocked step goes on with its input (R200); otherwise the frame runs
and then the decoded instruction, inside it. A word that decodes to `Invalid` is refused (R88). -/
def step (m : State) : Host.Outcome State Fault Refusal :=
  match m.waiting with
  | some q => .next (readInput q m)
  | none =>
    match beginCycle m with
    | .stop m' => .next m'
    | .run w m' =>
      match decode w with
      | .ok i => exec i m'
      | .error _ => .refused (.invalidWord w)

/-- The state whose next step fetches and runs the canonical word `w` (log 15). -/
def State.withFetchWord (m : State) (nbits w : Nat) : State :=
  m.fetchReady.placeWord (BitVec.ofNat 64 (w % 2 ^ nbits))

end Sys2Proof.Machine
end

