-- ==== Sys2Proof/Machine/Reset.lean ====
section
/-! DEFINITION. The two resets (70_reset_and_hazards.md rules R360, R361; 10_state.md rules R40,
R41). -/

namespace Sys2Proof.Machine

/-- Full reset (R40, R360): everything at its power-on value but the parameters and the console
channels, which stay (decision D32). The model's own fields are cleared too (log 11). -/
def State.fullReset (m : State) : State :=
  { State.powerOn m.config with
    inputLines := m.inputLines
    inputTaken := m.inputTaken
    inputEnded := m.inputEnded
    output := m.output }

/-- The tags a soft reset keeps (R41). -/
def isStatic (t : DataTag) : Bool :=
  match t with
  | .staticNumeric | .staticChar => true
  | .unused | .writer _ => false

/-- The data store after a soft reset: a slot that is not static goes back to what an unlisted
address reads as, which is 0 and `UNUSED`, or `DC - 1` and `UNUSED` in slot 0 (R41). -/
def keepStatic (mem : Memory DataSlot) : Memory DataSlot := mem.filter fun e => isStatic e.2.tag

/-- Soft reset (R41, R361): registers and `icount` 0, data slots that are not static cleared,
everything else unchanged. -/
def State.softReset (m : State) : State :=
  { m with regs := Vector.replicate 8 0, icount := 0, dmem := keepStatic m.dmem }

end Sys2Proof.Machine
end

