-- ==== Sys2Proof/Machine/Loader.lean ====
section
/-! DEFINITION. The program loader (35_loader.md rules R110 to R132), and the spelling of an
instruction as a line (30_encoding.md rule R91). -/

namespace Sys2Proof.Machine

/-! ## Lines (R111) -/

/-- A line from its bytes in reverse, without the carriage return that ends it. -/
def closeLine (reversed : List Byte) : List Byte :=
  match reversed with
  | [] => []
  | b :: bs => if b = 0x0D then bs.reverse else (b :: bs).reverse

/-- The lines of a text, the bytes of the current line so far given in reverse. -/
def splitFrom (reversed : List Byte) (text : List Byte) : List (List Byte) :=
  match text with
  | [] => if reversed = [] then [] else [closeLine reversed]
  | b :: bs =>
    if b = 0x0A then closeLine reversed :: splitFrom [] bs else splitFrom (b :: reversed) bs

/-- The lines of a text: split at each line feed, a carriage return before it or at the very end of
the text removed, a last line without line feed counted (R111). -/
def splitLines (text : List Byte) : List (List Byte) := splitFrom [] text

/-! ## Tokens -/

/-- A byte that must stand next, with blanks allowed before it (R112: `blank* "x"`). -/
def parseMark (mark : Byte) (kind : LoadErrorKind) (bs : List Byte) :
    Except LoadErrorKind (List Byte) :=
  match skipBlanks bs with
  | [] => .error kind
  | c :: rest => if c = mark then .ok rest else .error kind

/-- `reg = digit+`, below 8 (R119), with blanks allowed before it. -/
def parseReg (bs : List Byte) : Except LoadErrorKind (Reg × List Byte) :=
  let text := skipBlanks bs
  let digits := text.takeWhile isDigit
  if digits = [] then .error .register
  else
    match regOfNat? (digitsValue digits) with
    | some r => .ok (r, text.dropWhile isDigit)
    | none => .error .register

/-- A displacement or constant (R125), with blanks allowed before it. -/
def parseDisplacement (bs : List Byte) : Except LoadErrorKind (Word × List Byte) :=
  match parseSint (skipBlanks bs) with
  | some r => .ok r
  | none => .error .displacement

/-- The table name `name` is selected by the token `token` (R127). -/
def nameMatches (name token : List Byte) : Bool :=
  if 4 ≤ name.length then decide (4 ≤ token.length ∧ token.take 4 = name.take 4)
  else decide (token = name)

/-- Opcode matching (R127). -/
def matchMnemonic (token : List Byte) : Option Opcode :=
  Opcode.all.find? fun op => nameMatches (ascii op.name) token

/-! ## Operands (R112, R123): the record's operands 1, 2, 3 and the text left, which is the comment
(R126) -/

/-- `reg sep reg sep reg` (R112). -/
def parseRrOperands (bs : List Byte) : Except LoadErrorKind (Reg × Word × Reg × List Byte) := do
  let (r, bs) ← parseReg bs
  let bs ← parseMark 0x2C .separator bs
  let (s, bs) ← parseReg bs
  let bs ← parseMark 0x2C .separator bs
  let (t, bs) ← parseReg bs
  return (r, wordOfReg s, t, bs)

/-- The base register in either form: `"(" blank* reg blank* ")"` or `"," blank* reg` (R112, R123). -/
def parseBase (bs : List Byte) : Except LoadErrorKind (Reg × List Byte) :=
  match skipBlanks bs with
  | [] => .error .separator
  | c :: rest =>
    if c = 0x28 then do
      let (s, rest) ← parseReg rest
      let rest ← parseMark 0x29 .separator rest
      return (s, rest)
    else if c = 0x2C then parseReg rest
    else .error .separator

/-- `reg sep sint blank* ( "(" blank* reg blank* ")" | "," blank* reg )` (R112). -/
def parseRmOperands (bs : List Byte) : Except LoadErrorKind (Reg × Word × Reg × List Byte) := do
  let (r, bs) ← parseReg bs
  let bs ← parseMark 0x2C .separator bs
  let (d, bs) ← parseDisplacement bs
  let (s, bs) ← parseBase bs
  return (r, d, s, bs)

/-- The operands by the opcode's class (R123). -/
def parseOperands (cls : OpClass) (bs : List Byte) :
    Except LoadErrorKind (Reg × Word × Reg × List Byte) :=
  match cls with
  | .rr => parseRrOperands bs
  | .rm | .ra => parseRmOperands bs

/-! ## Lines by kind (R112) -/

/-- What a line that parses does (R113, R121, R122, R128). -/
inductive LineEffect where
  | nothing
  /-- Words placed from the allocation pointer on, with a tag (R121, R122). -/
  | data (words : List Word) (tag : DataTag)
  /-- An instruction, with its comment, put into a slot (R128). -/
  | instr (address : Nat) (i : Instr) (comment : List Byte)
  deriving DecidableEq, Repr

/-- Why a line fails, and the instruction address if it is known (R130). -/
structure LineError where
  address : Option Nat
  kind : LoadErrorKind
  deriving DecidableEq, Repr

/-- A byte a string may hold: 0x20 to 0x7E but `"`, or tab (R112). -/
def isStringByte (b : Byte) : Bool :=
  decide (0x20 ≤ b.toNat ∧ b.toNat ≤ 0x7E ∧ b ≠ 0x22) || b == 0x09

/-- `.SDATA`: the operand (R117). -/
def parseString (bs : List Byte) : Except LineError LineEffect :=
  match skipBlanks bs with
  | [] => .error ⟨none, .quoting⟩
  | q :: body =>
    let chars := body.takeWhile fun b => b != 0x22
    if q = 0x22 ∧ body.dropWhile (fun b => b != 0x22) ≠ [] ∧ chars.all isStringByte = true then
      .ok (.data (chars.map fun b => b.setWidth 32) .staticChar)
    else .error ⟨none, .quoting⟩

/-- A directive line, from the byte after the `.` (R114, R116, R117). -/
def parseDirective (bs : List Byte) : Except LineError LineEffect :=
  let name := bs.takeWhile isLetter
  let rest := bs.dropWhile isLetter
  if name = ascii "DATA" then
    match parseSint (skipBlanks rest) with
    | some (v, _) => .ok (.data [v] .staticNumeric)
    | none => .error ⟨none, .dataLiteral⟩
  else if name = ascii "SDATA" then parseString rest
  else .error ⟨none, .directive⟩

/-- The part of an instruction line after its address (R118, R123, R126 to R129). -/
def parseAfterAddress (bs : List Byte) : Except LoadErrorKind (Instr × List Byte) := do
  let bs ← parseMark 0x3A .colon bs
  let bs := skipBlanks bs
  match matchMnemonic (bs.takeWhile isLetter) with
  | none => .error .mnemonic
  | some op =>
    let (a, b, c, comment) ← parseOperands op.cls (bs.dropWhile isLetter)
    return (Instr.ofOperands op a b c, comment)

/-- The address of an error on an instruction line: reported when it fits in `int32` (R130). -/
def reportedAddress (n : Nat) : Option Nat := if inInt32 (n : Int) then some n else none

/-- An instruction line from its first byte that is not a blank (R118). -/
def parseInstrLine (ic : Nat) (bs : List Byte) : Except LineError LineEffect :=
  let digits := bs.takeWhile isDigit
  let n := digitsValue digits
  if digits = [] then .error ⟨none, .address⟩
  else if ic ≤ n then .error ⟨reportedAddress n, .address⟩
  else
    match parseAfterAddress (bs.dropWhile isDigit) with
    | .ok (i, comment) => .ok (.instr n i comment)
    | .error kind => .error ⟨reportedAddress n, kind⟩

/-- One line (R112): blank, comment, directive or instruction by its first byte that is not a blank. -/
def parseProgramLine (ic : Nat) (line : List Byte) : Except LineError LineEffect :=
  match skipBlanks line with
  | [] => .ok .nothing
  | c :: rest =>
    if c = 0x2A then .ok .nothing
    else if c = 0x2E then parseDirective rest
    else parseInstrLine ic (c :: rest)

/-! ## Effects -/

/-- Words placed in order from slot `next` on (R121, R122). -/
def placeWords (next : Nat) (words : List Word) (tag : DataTag) (m : State) : State :=
  match words with
  | [] => m
  | v :: vs => placeWords (next + 1) vs tag (m.setDataSlot next ⟨v, tag⟩)

/-- The effect of a line on the machine and the allocation pointer; a line whose words would pass
the end of the data store has none (R120, R122). -/
def applyLine (e : LineEffect) (next : Nat) (m : State) : Except LoadErrorKind (State × Nat) :=
  match e with
  | .nothing => .ok (m, next)
  | .data words tag =>
    if next + words.length ≤ m.config.dc then
      .ok (placeWords next words tag m, next + words.length)
    else .error .dataFull
  | .instr address i comment =>
    .ok (m.setInstrSlot address ⟨encode i, .assigned, comment⟩, next)

/-- The state in which a load has returned (R110, R131). -/
def State.loaded (m : State) (r : LoadResult) : State := { m with loadResult := some r }

/-- The lines of a text applied one by one; the first that fails ends the load with the lines before
it applied (R110, R130, R131). -/
def loadLines (lines : List (List Byte)) (lineNumber next : Nat) (m : State) : State :=
  match lines with
  | [] => m.loaded .ok
  | line :: rest =>
    match parseProgramLine m.config.ic line with
    | .error e => m.loaded (.error ⟨some lineNumber, e.address, e.kind⟩)
    | .ok effect =>
      match applyLine effect next m with
      | .error kind => m.loaded (.error ⟨some lineNumber, none, kind⟩)
      | .ok (m', next') => loadLines rest (lineNumber + 1) next' m'

/-- `load(text)`: a full reset, then the lines, the allocation pointer starting at slot 1
(R110, R120). -/
def load (text : List Byte) (m : State) : State := loadLines (splitLines text) 1 1 m.fullReset

/-- `load` of a source the host may fail to read (R130, 90_conflicts.md C10): then the load has not
begun and the machine is as it was but for the recorded error (log 14). -/
def loadSource (source : Option (List Byte)) (m : State) : State :=
  match source with
  | some text => load text m
  | none => m.loaded (.error ⟨none, none, .sourceNotFound⟩)

/-- The message of a load error: free (R130; log 13). -/
def LoadError.message (e : LoadError) : List Byte :=
  Config.loadErrorMessage e.kind (e.line.getD 0)

/-! ## Spelling (R91) -/

/-- A register operand as text: its bare decimal index (R91). -/
def spellReg (r : Reg) : List Byte := decimalNat r.val

/-- The operands of an instruction as text: `r, s, t` without blanks for class RR, `r,d(s)` for
classes RM and RA (R91). -/
def spellOperands (i : Instr) : List Byte :=
  match i.opcode.cls with
  | .rr =>
    spellReg i.operand1 ++ ascii "," ++ spellReg (regOfWord i.operand2) ++ ascii ","
      ++ spellReg i.operand3
  | .rm | .ra =>
    spellReg i.operand1 ++ ascii "," ++ decimal i.operand2 ++ ascii "(" ++ spellReg i.operand3
      ++ ascii ")"

/-- An instruction line, `<address>: <MNEMONIC> <operands>` followed by the comment (R91). -/
def spellLine (address : Nat) (i : Instr) (comment : List Byte) : List Byte :=
  decimalNat address ++ ascii ": " ++ ascii i.opcode.name ++ ascii " " ++ spellOperands i ++ comment

end Sys2Proof.Machine
end

