-- ==== Sys2Proof/Machine/Driver.lean ====
section
/-! DEFINITION. The operations the host calls (60_exceptions.md rules R327 to R334; 40_cycle.md rule
R174). -/

namespace Sys2Proof.Machine

/-! ## Accessors (R328 to R332) -/

/-- A host index as a register, if it is one (R328). -/
def hostReg? (i : Int) : Option Reg := if 0 ≤ i then regOfNat? i.toNat else none

/-- A host address below a capacity, if it is one (R329, R330). -/
def hostAddress? (capacity : Nat) (a : Int) : Option Nat :=
  if 0 ≤ a ∧ a < (capacity : Int) then some a.toNat else none

/-- `armBreakpoint(a)` (R331). -/
def State.armBreakpoint (m : State) (a : Word) : State := { m with bp := .armed a }

/-- `clearBreakpoint()` (R331). -/
def State.clearBreakpoint (m : State) : State := { m with bp := .none }

/-- `setData(a, v)` for an address in range: the word changes, the tag stays (R329). -/
def State.hostSetData (m : State) (a : Nat) (v : Word) : State :=
  m.setDataSlot a ⟨v, (m.dataSlot a).tag⟩

/-- The instruction usage count: slots tagged `ASSIGNED` (R332). -/
def State.instrUsage (m : State) : Nat :=
  (m.imem.filter fun e => decide (e.2.tag = .assigned)).length

/-- The data usage count: slots whose tag is not `UNUSED` (R332). -/
def State.dataUsage (m : State) : Nat :=
  (m.dmem.filter fun e => decide (e.2.tag ≠ .unused)).length

/-- What `getInstr(a)` returns: the record, its tag and its comment (R330); no record for a word that
decodes to `Invalid`, which no reset or load leaves (log 4). -/
structure InstrView where
  record : Option Instr
  tag : UsageTag
  comment : List Byte
  deriving DecidableEq, Repr

/-- `getInstr(a)` for an address in range (R330). -/
def State.viewInstr (m : State) (a : Nat) : InstrView :=
  ⟨(decode (m.instrSlot a).word).toOption, (m.instrSlot a).tag, (m.instrSlot a).comment⟩

/-- What the trace view returns (R174): the record, the registers the opcode reads with their
values, and for classes RM and RA the data word at the effective address if that is in range. -/
structure TraceView where
  instr : InstrView
  regs : List (Reg × Word)
  data : Option Word
  deriving DecidableEq, Repr

/-- The data word of the trace view (R174). -/
def State.traceData (m : State) (i : Instr) : Option Word :=
  let ea := m.effectiveAddress i.operand2 i.operand3
  match i.opcode.cls with
  | .rr => none
  | .rm | .ra => if m.dataInRange ea then some (m.memRead ea) else none

/-- `trace(a)` for an address in range (R174). -/
def State.viewTrace (m : State) (a : Nat) : TraceView :=
  match decode (m.instrSlot a).word with
  | .ok i => ⟨m.viewInstr a, (Instr.regsRead i).map fun r => (r, m.readReg r), m.traceData i⟩
  | .error _ => ⟨m.viewInstr a, [], none⟩

/-! ## Bulk runs (R333) -/

/-- How a bulk run ends. -/
inductive RunEnd where
  /-- It returned this last result. -/
  | returned (r : StepResult)
  /-- It has not ended: its step is blocked on input, and this many calls may follow that one (R200). -/
  | waits (further : Nat)
  /-- Its last step was refused. -/
  | refused (why : Refusal)
  deriving DecidableEq, Repr

/-- The state after a bulk run, how it ended, and the number of calls of `step` that are over. -/
structure RunOutcome where
  state : State
  ending : RunEnd
  calls : Nat
  deriving DecidableEq, Repr

/-- `runUntilHalt(maxSteps)`: steps until the first result other than `OK`, at most `maxSteps` (R333),
or until a step blocks on input. From a blocked state its first call is the blocked one going on. -/
def runUntilHalt (maxSteps : Nat) (m : State) : RunOutcome :=
  match maxSteps with
  | 0 => ⟨m, .returned .ok, 0⟩
  | n + 1 =>
    match step m with
    | .next m' =>
      match m'.result with
      | some .ok =>
        let r := runUntilHalt n m'
        ⟨r.state, r.ending, r.calls + 1⟩
      | some r => ⟨m', .returned r, 1⟩
      | none => ⟨m', .waits n, 0⟩
    | .refused why => ⟨m, .refused why, 1⟩
    | .fault f => nomatch f

/-! ## The operations as one interface (R327) -/

/-- The host's operations, with the two ways it feeds the console (R327, R334). -/
inductive HostOp where
  | load (source : Option (List Byte))
  | step
  | runUntilHalt (maxSteps : Nat)
  | getReg (i : Int)
  | setReg (i : Int) (v : Word)
  | getData (a : Int)
  | setData (a : Int) (v : Word)
  | getInstr (a : Int)
  | trace (a : Int)
  | armBreakpoint (a : Word)
  | clearBreakpoint
  | usage
  | getCount
  | softReset
  | fullReset
  | supplyLine (line : List Byte)
  | endInput
  deriving DecidableEq, Repr

/-- What an operation returns to the host. -/
inductive HostReply where
  | done
  /-- An index or address out of range (R328 to R330), or input after the end of input (log 10). -/
  | hostError
  /-- The call has not returned: its step is blocked on input (R200; log 12). -/
  | blocked
  /-- Refused: a step is blocked on input, and no other operation runs (R200; log 9). -/
  | busy
  | loaded (r : LoadResult)
  /-- The last result of a run and the number of calls of `step` it made (R333). -/
  | ran (r : StepResult) (calls : Nat)
  /-- A step of the run was refused (log 4). -/
  | refused (why : Refusal) (calls : Nat)
  | word (v : Word)
  | slot (v : Word) (tag : DataTag)
  | instr (view : InstrView)
  | traced (view : TraceView)
  | usage (instrs data : Nat)
  | count (n : Nat)
  deriving DecidableEq, Repr

/-- A load as the host sees it (R110). -/
def hostLoad (source : Option (List Byte)) (m : State) : State × HostReply :=
  let m' := loadSource source m
  match m'.loadResult with
  | some r => (m', .loaded r)
  | none => (m', .hostError)

/-- What the host sees of a run with `calls` calls over before it: what it returned, or that it has
not returned; then the machine holds the run (R200, R333). -/
def settleRun (calls : Nat) (o : RunOutcome) : State × HostReply :=
  match o.ending with
  | .returned r => (o.state, .ran r (calls + o.calls))
  | .refused why => (o.state, .refused why (calls + o.calls))
  | .waits further => ({ o.state with pendingRun := some ⟨further, calls + o.calls⟩ }, .blocked)

/-- A machine that holds no run. -/
def State.clearRun (m : State) : State := { m with pendingRun := none }

/-- A bulk run as the host sees it; one step is a bulk run of one (R327, R333). -/
def hostRun (maxSteps : Nat) (m : State) : State × HostReply :=
  settleRun 0 (runUntilHalt maxSteps m.clearRun)

/-- The call that has not returned goes on: the blocked step, and after it the further calls of its
run (R200, R333). A blocked step without a run is a call of `step`. -/
def goOn (m : State) : State × HostReply :=
  match m.pendingRun with
  | some p => settleRun p.calls (runUntilHalt (p.further + 1) m.clearRun)
  | none => settleRun 0 (runUntilHalt 1 m)

/-- `setReg(i, v)` (R328). -/
def hostSetReg (i : Int) (v : Word) (m : State) : State × HostReply :=
  match hostReg? i with
  | some r => (m.writeReg r v, .done)
  | none => (m, .hostError)

/-- `getReg(i)` (R328). -/
def hostGetReg (i : Int) (m : State) : State × HostReply :=
  match hostReg? i with
  | some r => (m, .word (m.readReg r))
  | none => (m, .hostError)

/-- `setData(a, v)` (R329). -/
def hostSetData (a : Int) (v : Word) (m : State) : State × HostReply :=
  match hostAddress? m.config.dc a with
  | some n => (m.hostSetData n v, .done)
  | none => (m, .hostError)

/-- `getData(a)` (R329). -/
def hostGetData (a : Int) (m : State) : State × HostReply :=
  match hostAddress? m.config.dc a with
  | some n => (m, .slot (m.dataSlot n).word (m.dataSlot n).tag)
  | none => (m, .hostError)

/-- `getInstr(a)` (R330). -/
def hostGetInstr (a : Int) (m : State) : State × HostReply :=
  match hostAddress? m.config.ic a with
  | some n => (m, .instr (m.viewInstr n))
  | none => (m, .hostError)

/-- `trace(a)` (R174). -/
def hostTrace (a : Int) (m : State) : State × HostReply :=
  match hostAddress? m.config.ic a with
  | some n => (m, .traced (m.viewTrace n))
  | none => (m, .hostError)

/-- A line supplied to the input channel (R334); none after the end of input (log 10). -/
def hostSupplyLine (line : List Byte) (m : State) : State × HostReply :=
  if m.inputEnded then (m, .hostError) else (m.supplyLine line, .done)

/-- The end of the input channel (R334, R336). -/
def hostEndInput (m : State) : State × HostReply := (m.endInput, .done)

/-- An operation on a machine that waits for nothing (R327). -/
def hostCallIdle (op : HostOp) (m : State) : State × HostReply :=
  match op with
  | .load source => hostLoad source m
  | .step => hostRun 1 m
  | .runUntilHalt maxSteps => hostRun maxSteps m
  | .getReg i => hostGetReg i m
  | .setReg i v => hostSetReg i v m
  | .getData a => hostGetData a m
  | .setData a v => hostSetData a v m
  | .getInstr a => hostGetInstr a m
  | .trace a => hostTrace a m
  | .armBreakpoint a => (m.armBreakpoint a, .done)
  | .clearBreakpoint => (m.clearBreakpoint, .done)
  | .usage => (m, .usage m.instrUsage m.dataUsage)
  | .getCount => (m, .count m.icount)
  | .softReset => (m.softReset, .done)
  | .fullReset => (m.fullReset, .done)
  | .supplyLine line => hostSupplyLine line m
  | .endInput => hostEndInput m

/-- An operation on a machine whose step is blocked: a line or the end of input lets the call go on
that has not returned, and the reply is that call's; no other operation runs before it has (R200,
R336, R342; log 9). -/
def hostCallBlocked (op : HostOp) (m : State) : State × HostReply :=
  match op with
  | .supplyLine line => if m.inputEnded then (m, .hostError) else goOn (m.supplyLine line)
  | .endInput => goOn m.endInput
  | .load _ | .step | .runUntilHalt _ | .getReg _ | .setReg _ _ | .getData _ | .setData _ _
  | .getInstr _ | .trace _ | .armBreakpoint _ | .clearBreakpoint | .usage | .getCount
  | .softReset | .fullReset => (m, .busy)

/-- One host operation (R327). -/
def hostCall (op : HostOp) (m : State) : State × HostReply :=
  match m.waiting with
  | none => hostCallIdle op m
  | some _ => hostCallBlocked op m

/-! ## A run with its host (R336, R337) -/

/-- What the host supplies to the console when a step waits (R334). -/
inductive ConsoleInput where
  | line (text : List Byte)
  | ended
  deriving DecidableEq, Repr

/-- Supplying it, as a host operation. -/
def ConsoleInput.op (f : ConsoleInput) : HostOp :=
  match f with
  | .line text => .supplyLine text
  | .ended => .endInput

/-- A call together with the inputs the host supplies, one each time the call is blocked, until it
returns or the host supplies no more (R336). -/
def feedRun (feeds : List ConsoleInput) (s : State × HostReply) : State × HostReply :=
  match feeds with
  | [] => s
  | f :: rest => if s.2 = .blocked then feedRun rest (hostCall f.op s.1) else s

end Sys2Proof.Machine
end

