-- ==== Sys2Proof/Machine/Invariant.lean ====
section
/-! DEFINITION. The states a run can reach: what the spec says always holds of the state. -/

namespace Sys2Proof.Machine

/-- A word that decodes (30_encoding.md rule R87: every record a step can fetch has a defined opcode
and in-range registers). -/
def wordDecodes (w : InstrWord) : Bool := (decode w).toOption.isSome

/-- A provenance tag as rule R30 has it: a writer's address is in `[0, IC)`. -/
def tagInRange (ic : Nat) (t : DataTag) : Bool :=
  match t with
  | .writer a => decide (a < ic)
  | .unused | .staticNumeric | .staticChar => true

/-- The instruction store is canonical, inside `[0, IC)`, and every word in it decodes (R25, R87). -/
def State.imemWf (m : State) : Bool :=
  Memory.wf resetInstrSlot m.imem
    && m.imem.all fun e => decide (e.1 < m.config.ic) && wordDecodes e.2.word

/-- The data store is canonical, inside `[0, DC)`, and its tags are in range (R29, R30). -/
def State.dmemWf (m : State) : Bool :=
  Memory.wf (resetDataSlot m.config) m.dmem
    && m.dmem.all fun e => decide (e.1 < m.config.dc) && tagInRange m.config.ic e.2.tag

/-- A blocked step has returned no result, and no line and no end of input is at hand for it
(R200, R334). -/
def State.waitWf (m : State) : Bool :=
  m.waiting.isNone || (m.result.isNone && m.inputLines.isEmpty && !m.inputEnded)

/-- The invariant: parameters in range (R7, R8), both stores as the spec describes them, and a
blocked step without a result and without input at hand. -/
def State.wf (m : State) : Bool := m.config.valid && m.imemWf && m.dmemWf && m.waitWf

end Sys2Proof.Machine
end

