-- ==== Sys2Proof/Safety.lean ====
section
/-! DEFINITION. The terms claims use: what a step leaves unchanged, what a run is, what can be
reached. -/

namespace Sys2Proof.Machine

/-- A step has returned the result `r` and waits for nothing (60_exceptions.md rule R320). -/
def Returned (t : State) (r : StepResult) : Prop := t.result = some r ∧ t.waiting = none

/-- From `m` to `t` nothing changed but the registers `rs`, the data slots `stored`, the console and
the step result: every other register, every instruction slot, every other data slot with its tag,
the breakpoint, the counter, the parameters, the call that has not returned and the record of the
last load are as before. -/
structure Unchanged (rs : List Reg) (stored : List Nat) (m t : State) : Prop where
  config : t.config = m.config
  regs : ∀ q, q ∉ rs → t.readReg q = m.readReg q
  instrs : ∀ a, t.instrSlot a = m.instrSlot a
  data : ∀ a, a ∉ stored → t.dataSlot a = m.dataSlot a
  bp : t.bp = m.bp
  icount : t.icount = m.icount
  pendingRun : t.pendingRun = m.pendingRun
  loadResult : t.loadResult = m.loadResult

/-- The input channel is as before. -/
structure SameInput (m t : State) : Prop where
  lines : t.inputLines = m.inputLines
  taken : t.inputTaken = m.inputTaken
  ended : t.inputEnded = m.inputEnded

/-- Both console channels are as before. -/
structure SameConsole (m t : State) : Prop where
  input : SameInput m t
  output : t.output = m.output

/-- The next line of the input channel has been taken. -/
structure LineTaken (line : List Byte) (rest : List (List Byte)) (m t : State) : Prop where
  lines : t.inputLines = rest
  taken : t.inputTaken = m.inputTaken ++ [line]
  ended : t.inputEnded = m.inputEnded

/-- The step of `m` reaches the execution of the instruction `i`: no step is blocked (R200), the
fetch address is in range (R161), the breakpoint does not fire (R162) and the fetched word decodes
to `i` (R163, R164). -/
structure Runs (m : State) (i : Instr) : Prop where
  idle : m.waiting = none
  inRange : 0 ≤ m.pc.toInt ∧ m.pc.toInt < (m.config.ic : Int)
  noBreak : m.bp ≠ .armed m.pc
  decoded : decode m.fetchWord = .ok i

/-- The values rule R40 gives every piece of state after a full reset, for parameters `c`. -/
structure FullResetValues (c : Config) (t : State) : Prop where
  config : t.config = c
  regs : ∀ r, t.readReg r = 0
  pc : t.pc = 0
  instrs : ∀ a, t.instrSlot a = ⟨encode (.halt 0 0 0), .unused, []⟩
  slotZero : (t.dataSlot 0).word.toInt = (c.dc : Int) - 1
  words : ∀ a, a ≠ 0 → (t.dataSlot a).word = 0
  tags : ∀ a, (t.dataSlot a).tag = .unused
  bp : t.bp = .none
  icount : t.icount = 0

/-- A slot is tagged static (R30). -/
def SlotStatic (m : State) (a : Nat) : Prop :=
  (m.dataSlot a).tag = .staticNumeric ∨ (m.dataSlot a).tag = .staticChar

/-- The address a breakpoint holds, armed or pending (R32). -/
def breakpointAddress (b : Breakpoint) : Option Word :=
  match b with
  | .none => none
  | .armed a | .pending a => some a

/-- A step is safe: it answers a next state. -/
def StepAnswers (m : State) : Prop := ∃ t, step m = .next t

/-- The states the host's operations can bring a machine with parameters `c` to, from power-on
(70_reset_and_hazards.md rule R363). -/
inductive Reachable (c : Config) : State → Prop where
  | powerOn : Reachable c (State.powerOn c)
  | call (op : HostOp) (m : State) : Reachable c m → Reachable c (hostCall op m).1

/-- The run of the program `text` on `m`, whose host supplies `feeds` as the run waits for input,
ends after `steps` steps: it starts from the state after a load that returned `Ok`, and its outcome
is the first result `r` that is not `OK`, the state `t` after that step and the bytes `emitted`
(R337). -/
structure RunEndsWith (text : List Byte) (m : State) (feeds : List ConsoleInput) (steps : Nat)
    (r : StepResult) (t : State) (emitted : List Byte) : Prop where
  loaded : (load text m).loadResult = some .ok
  notOk : r ≠ .ok
  ran : ∃ maxSteps, feedRun feeds (hostCall (.runUntilHalt maxSteps) (load text m))
    = (t, .ran r steps)
  output : t.output = (load text m).output ++ emitted

/-! ## Operand values and forms that statements speak of -/

/-- What an instruction fetched at `m` reads from register `q`: `pc0 + 1` from the program counter,
and otherwise what the register holds (40_cycle.md rule R169). -/
def operandValue (m : State) (q : Reg) : Word :=
  if q = m.config.pcIndex then m.pc + 1 else m.readReg q

/-- The arithmetic instructions that always write, with their operations (R231 to R233). -/
def wrappingForms : List ((Reg → Reg → Reg → Instr) × (Int → Int → Int)) :=
  [(Instr.add, fun a b => a + b), (Instr.sub, fun a b => a - b), (Instr.mul, fun a b => a * b)]

/-- The six jumps, with what each tests of `x[r]` (R291 to R296). -/
def jumpForms : List ((Reg → Word → Reg → Instr) × (Int → Bool)) :=
  [(Instr.jlt, fun v => decide (v < 0)), (Instr.jle, fun v => decide (v ≤ 0)),
    (Instr.jgt, fun v => decide (0 < v)), (Instr.jge, fun v => decide (0 ≤ v)),
    (Instr.jeq, fun v => decide (v = 0)), (Instr.jne, fun v => decide (v ≠ 0))]

/-- The words a line places in the data store, each with its tag, in order (35_loader.md rules R121,
R122). -/
def placedWords (e : LineEffect) : List DataSlot :=
  match e with
  | .data words tag => words.map fun v => ⟨v, tag⟩
  | .nothing | .instr _ _ _ => []

end Sys2Proof.Machine
end

