-- ==== Sys2Proof/Certificates/Slice0/Obligations.lean ====
section
/-! DEFINITION. The statements for the provers. Every docstring names the rule it formalises. -/

open Sys2Proof Sys2Proof.Machine

/-! ## Resets (10_state.md, 70_reset_and_hazards.md) -/

/-- R40, R42: every piece of state after a full reset, and at power-on, for every choice of the
parameters. `State.reset` takes the spec's defaults for `DC` and `PC_INDEX`; its `IC` is the model's
choice (log 1) and not stated. -/
def Obligations.FullResetAndPowerOnGiveTheTableValues : Prop :=
  (∀ m : State, m.config.valid = true → FullResetValues m.config m.fullReset) ∧
    (∀ c : Config, c.valid = true → FullResetValues c (State.powerOn c)) ∧
    FullResetValues State.reset.config State.reset ∧
    State.reset.config.dc = 10000 ∧ State.reset.config.pcIndex = 7

/-- R41: every piece of state after a soft reset. -/
def Obligations.SoftResetKeepsOnlyStaticData : Prop :=
  ∀ m : State, m.wf = true →
    (∀ r, m.softReset.readReg r = 0) ∧
    (∀ a, m.softReset.instrSlot a = m.instrSlot a) ∧
    (∀ a, SlotStatic m a → m.softReset.dataSlot a = m.dataSlot a) ∧
    (∀ a, ¬ SlotStatic m a → a ≠ 0 → m.softReset.dataSlot a = ⟨0, .unused⟩) ∧
    (¬ SlotStatic m 0 → (m.softReset.dataSlot 0).word.toInt = (m.config.dc : Int) - 1 ∧
      (m.softReset.dataSlot 0).tag = .unused) ∧
    m.softReset.bp = m.bp ∧ m.softReset.icount = 0

/-! ## Encoding (30_encoding.md) -/

/-- R90: decoding an encoded instruction gives it back, with every operand at every value. -/
def Obligations.DecodeOfEncodeIsTheInstruction : Prop :=
  ∀ i : Instr, decode (encode i) = .ok i

/-- The other direction: a word that decodes is the encoding of what it decodes to, so no two words
decode to the same instruction (R81, R90). -/
def Obligations.EncodeOfDecodeIsTheWord : Prop :=
  ∀ (w : InstrWord) (i : Instr), decode w = .ok i → encode i = w

/-- R88: exactly the words that fail a check of rule R81 or R83 decode to `Invalid`; no load leaves
one in the instruction store; a step that fetches one is refused. -/
def Obligations.InvalidWordsAreRefused : Prop :=
  (∀ w : InstrWord, (∃ i, decode w = .ok i) ↔ (fieldsOf w).wellFormed = true) ∧
  (∀ w : InstrWord, decode w = .error .opcode ↔ (fieldsOf w).opcodeDefined = false) ∧
  (∀ (text : List Byte) (m : State) (a : Nat), ∃ i, decode ((load text m).instrSlot a).word = .ok i) ∧
  (∀ (m : State) (e : Invalid), m.waiting = none → 0 ≤ m.pc.toInt → m.pc.toInt < (m.config.ic : Int) →
    m.bp ≠ .armed m.pc → decode m.fetchWord = .error e →
    step m = .refused (.invalidWord m.fetchWord))

/-- R81, R83: a word decodes to an instruction of opcode `op` exactly when it matches the table's
mask and match of `op`. -/
def Obligations.WordsMatchTheTableMasks : Prop :=
  ∀ (w : InstrWord) (op : Opcode), (∃ i, decode w = .ok i ∧ i.opcode = op) ↔
    w &&& (if op.cls = .rr then 0xFFF8F8FFFFFFFFF8#64 else 0xFFF8F8FF00000000#64)
      = op.number.setWidth 64 <<< 56

/-- Words written out from rule R81's layout decode to what they stand for, one per family, and
three that break a check do not (95_test_vectors.md V140 to V147). -/
def Obligations.WrittenOutWordsDecode : Prop :=
  decodeTableWord 64 0x0000000000000000 = some (.halt 0 0 0) ∧
  decodeTableWord 64 0x0101000000000000 = some (.in_ 1 0 0) ∧
  decodeTableWord 64 0x0A04020000000001 = some (.div 4 1 2) ∧
  decodeTableWord 64 0x1007070080000000 = some (.ld 7 (BitVec.ofInt 32 (-2147483648)) 7) ∧
  decodeTableWord 64 0x18050600FFFFFFFF = some (.lda 5 (BitVec.ofInt 32 (-1)) 6) ∧
  decodeTableWord 64 0x1C010700FFFFFFFC = some (.jgt 1 (BitVec.ofInt 32 (-4)) 7) ∧
  decodeTableWord 64 0x0B00000000000000 = none ∧
  decodeTableWord 64 0x0700000000000008 = none ∧
  decodeTableWord 64 0x1000000100000000 = none

/-! ## The step (40_cycle.md) -/

/-- R160, R163, R167: a step that reaches execution is `exec` of the decoded instruction at the state
after the frame: the breakpoint re-armed if it was pending elsewhere, the program counter advanced,
the counter incremented, all else as before. -/
def Obligations.StepRunsTheDecodedInstruction : Prop :=
  ∀ (m : State) (i : Instr), Runs m i →
    step m = exec i m.rearm.advance ∧
    m.rearm.advance.pc = m.pc + 1 ∧
    (∀ q, q ≠ m.config.pcIndex → m.rearm.advance.readReg q = m.readReg q) ∧
    m.rearm.advance.icount = m.icount + 1 ∧
    (∀ a, m.rearm.advance.instrSlot a = m.instrSlot a) ∧
    (∀ a, m.rearm.advance.dataSlot a = m.dataSlot a) ∧
    m.rearm.advance.bp = (match m.bp with
      | .pending a => if a = m.pc then .pending a else .armed a
      | b => b) ∧
    SameConsole m m.rearm.advance ∧
    m.rearm.advance.config = m.config ∧
    m.rearm.advance.waiting = none ∧
    m.rearm.advance.pendingRun = m.pendingRun ∧
    m.rearm.advance.result = m.result ∧
    m.rearm.advance.loadResult = m.loadResult

/-- R161: a fetch address outside `[0, IC)` gives `INSTRUCTION-FAULT` and changes nothing. -/
def Obligations.FetchOutsideTheStoreChangesNothing : Prop :=
  ∀ m : State, m.waiting = none → ¬ (0 ≤ m.pc.toInt ∧ m.pc.toInt < (m.config.ic : Int)) →
    step m = .next { m with result := some .instructionFault }

/-- R162: the breakpoint fires on arrival and changes nothing else; pending elsewhere it is re-armed
in the step that executes; in every other case it is unchanged; outside `[0, IC)` it never fires. No
step sets or clears it or changes the address it holds (R32). -/
def Obligations.BreakpointFiresOncePerArrival : Prop :=
  (∀ m : State, m.waiting = none → 0 ≤ m.pc.toInt → m.pc.toInt < (m.config.ic : Int) →
    m.bp = .armed m.pc →
    step m = .next { m with bp := .pending m.pc, result := some .halted }) ∧
  (∀ (m : State) (i : Instr), Runs m i → ∃ m1, step m = exec i m1 ∧
    (∀ a, m.bp = .pending a → a ≠ m.pc → m1.bp = .armed a) ∧
    ((∀ a, m.bp = .pending a → a = m.pc) → m1.bp = m.bp)) ∧
  (∀ m t : State, m.waiting = none → ¬ (0 ≤ m.pc.toInt ∧ m.pc.toInt < (m.config.ic : Int)) →
    step m = .next t → t.bp = m.bp ∧ t.result = some .instructionFault) ∧
  (∀ m t : State, step m = .next t → breakpointAddress t.bp = breakpointAddress m.bp)

/-- R169: every register read of an instruction happens after the advance, so an operand that names
the program counter reads `pc0 + 1` and every other what its register holds (`operandValue`): both
arithmetic sources, the base register, the register stored, the output register and the tested
register of a jump, in every instruction that reads one. -/
def Obligations.OperandsSeeTheAdvancedPc : Prop :=
  (∀ (m : State) (q : Reg),
    operandValue m q = if q = m.config.pcIndex then m.pc + 1 else m.readReg q) ∧
  (∀ form ∈ wrappingForms, ∀ (m : State) (r s t : Reg), Runs m (form.1 r s t) →
    ∃ m', step m = .next m' ∧ Returned m' .ok ∧ (m'.readReg r).toInt
      = (form.2 (operandValue m s).toInt (operandValue m t).toInt).bmod (2 ^ 32)) ∧
  (∀ (m : State) (r s t : Reg), Runs m (.div r s t) → ∃ m', step m = .next m' ∧
    if (operandValue m t).toInt = 0 then Returned m' .divideByZero
    else Returned m' .ok ∧ (m'.readReg r).toInt
      = (Int.tdiv (operandValue m s).toInt (operandValue m t).toInt).bmod (2 ^ 32)) ∧
  (∀ (m : State) (r : Reg) (d : Word) (s : Reg), Runs m (.ld r d s) → ∃ m', step m = .next m' ∧
    if m.dataInRange (d + operandValue m s) = true then
      Returned m' .ok ∧ m'.readReg r = (m.dataSlot (d + operandValue m s).toNat).word
    else Returned m' .dataFault) ∧
  (∀ (m : State) (r : Reg) (d : Word) (s : Reg), Runs m (.st r d s) → ∃ m', step m = .next m' ∧
    if m.dataInRange (d + operandValue m s) = true then
      Returned m' .ok ∧ m'.dataSlot (d + operandValue m s).toNat
        = ⟨operandValue m r, .writer m.pc.toNat⟩
    else Returned m' .dataFault) ∧
  (∀ (m : State) (r : Reg) (d : Word) (s : Reg), Runs m (.lda r d s) →
    ∃ m', step m = .next m' ∧ Returned m' .ok ∧ m'.readReg r = d + operandValue m s) ∧
  (∀ (m : State) (r s t : Reg), Runs m (.out r s t) → ∃ m', step m = .next m' ∧
    Returned m' .ok ∧ m'.output = m.output ++ decimal (operandValue m r)) ∧
  (∀ (m : State) (r s t : Reg), Runs m (.outb r s t) → ∃ m', step m = .next m' ∧
    Returned m' .ok ∧
    m'.output = m.output ++ [if (operandValue m r).toInt = 0 then 0x46 else 0x54]) ∧
  (∀ (m : State) (r s t : Reg), Runs m (.outc r s t) → ∃ m' b, step m = .next m' ∧
    Returned m' .ok ∧ m'.output = m.output ++ [b] ∧
    (b.toNat : Int) = (operandValue m r).toInt % 256) ∧
  (∀ form ∈ jumpForms, ∀ (m : State) (r : Reg) (d : Word) (s : Reg), Runs m (form.1 r d s) →
    ∃ m', step m = .next m' ∧ Returned m' .ok ∧
      m'.pc = if form.2 (operandValue m r).toInt then d + operandValue m s else m.pc + 1)

/-- R24, R170: after a step that executes an instruction which does not write the program counter,
the program counter is `pc0 + 1`. -/
def Obligations.SuccessorIsSequentialUnlessWritten : Prop :=
  ∀ (m t : State) (i : Instr), Runs m i → m.config.pcIndex ∉ Instr.regsWritten m.config.pcIndex i →
    step m = .next t → t.pc = m.pc + 1

/-- R33, R163: the instruction counter counts fetched instructions and nothing else. -/
def Obligations.CounterCountsFetchedInstructions : Prop :=
  ∀ m t : State, step m = .next t →
    ((∃ i, Runs m i) → t.icount = m.icount + 1) ∧ ((¬ ∃ i, Runs m i) → t.icount = m.icount)

/-- R173: a slot that holds `HALT 0,0,0`, whatever its usage tag, halts: the program counter and the
counter advance. -/
def Obligations.UnassignedSlotHalts : Prop :=
  ∀ m : State, m.waiting = none → 0 ≤ m.pc.toInt → m.pc.toInt < (m.config.ic : Int) →
    m.bp ≠ .armed m.pc → (m.instrSlot m.pc.toNat).word = encode (.halt 0 0 0) →
    ∃ t, step m = .next t ∧ Returned t .halted ∧ t.pc = m.pc + 1 ∧ t.icount = m.icount + 1

/-! ## HALT and console I/O (41_system_io.md) -/

/-- R190: `HALT` returns `HALTED` and has no further effect. -/
def Obligations.HaltReturnsHalted : Prop :=
  ∀ (r s t : Reg) (m : State), ∃ m', exec (.halt r s t) m = .next m' ∧ Returned m' .halted ∧
    Unchanged [] [] m m' ∧ SameConsole m m'

/-- R191: `IN` takes one line; a value goes to `x[r]` with `OK` or, with the halt mark, `HALTED`; a
malformed line or end of input gives `INPUT-ERROR` and writes no register. -/
def Obligations.InReadsAnIntegerLine : Prop :=
  ∀ (r s t : Reg) (m : State),
    (∀ line rest v haltFlag, m.inputLines = line :: rest → parseInt line = .value v haltFlag →
      ∃ m', exec (.in_ r s t) m = .next m' ∧ m'.readReg r = v ∧
        Returned m' (if haltFlag then .halted else .ok) ∧
        Unchanged [r] [] m m' ∧ LineTaken line rest m m' ∧ m'.output = m.output) ∧
    (∀ line rest, m.inputLines = line :: rest → parseInt line = .malformed →
      ∃ m', exec (.in_ r s t) m = .next m' ∧ Returned m' .inputError ∧
        Unchanged [] [] m m' ∧ LineTaken line rest m m' ∧ m'.output = m.output) ∧
    (m.inputLines = [] → m.inputEnded = true →
      ∃ m', exec (.in_ r s t) m = .next m' ∧ Returned m' .inputError ∧
        Unchanged [] [] m m' ∧ SameConsole m m')

/-- R192: `INB` takes one line, and every line has a value, 0 or 1; only end of input gives
`INPUT-ERROR`. -/
def Obligations.InbReadsABooleanLine : Prop :=
  ∀ (r s t : Reg) (m : State),
    (∀ line rest, m.inputLines = line :: rest →
      ∃ v haltFlag m', parseBool line = .value v haltFlag ∧ (v = 0 ∨ v = 1) ∧
        exec (.inb r s t) m = .next m' ∧ m'.readReg r = v ∧
        Returned m' (if haltFlag then .halted else .ok) ∧
        Unchanged [r] [] m m' ∧ LineTaken line rest m m' ∧ m'.output = m.output) ∧
    (m.inputLines = [] → m.inputEnded = true →
      ∃ m', exec (.inb r s t) m = .next m' ∧ Returned m' .inputError ∧
        Unchanged [] [] m m' ∧ SameConsole m m')

/-- R200: with no line and no end of input the step waits, in the state of rule R163, and returns
nothing; with a line or the end of input at hand, the blocked step goes on exactly as the
instruction would have gone with it at once. The waiting state itself is the model's form of the
wait (log 6). -/
def Obligations.BlockedInputGoesOnWithTheLine : Prop :=
  ∀ (i : Instr) (m : State), i.opcode = .in_ ∨ i.opcode = .inb → m.inputLines = [] →
    m.inputEnded = false →
    ∃ b, exec i m = .next b ∧ b.waiting.isSome = true ∧ b.result = none ∧
      Unchanged [] [] m b ∧ SameConsole m b ∧ step b = .next b ∧
      (∀ line, step (b.supplyLine line) = exec i (m.supplyLine line)) ∧
      step b.endInput = exec i m.endInput

/-- R193: `OUT` emits the shortest decimal spelling of `x[r]`: a minus sign if it is negative, then
the digits of its magnitude with no leading zero. -/
def Obligations.OutEmitsTheShortestDecimal : Prop :=
  ∀ (r s t : Reg) (m : State), ∃ m' digits, exec (.out r s t) m = .next m' ∧ Returned m' .ok ∧
    Unchanged [] [] m m' ∧ SameInput m m' ∧
    m'.output = m.output ++ ((if (m.readReg r).toInt < 0 then [0x2D] else []) ++ digits) ∧
    digits ≠ [] ∧ digits.all isDigit = true ∧
    digitsValue digits = (m.readReg r).toInt.natAbs ∧
    (digits.head? = some 0x30 → digits = [0x30])

/-- What `OUT` prints `IN` reads back (R193, R197). -/
def Obligations.PrintedDecimalReadsBack : Prop :=
  ∀ v : Word, parseInt (decimal v) = .value v false ∧
    parseInt (decimal v ++ ascii " #") = .value v true

/-- R194: `OUTB` emits `F` for 0 and `T` for every other value. -/
def Obligations.OutbEmitsAToken : Prop :=
  ∀ (r s t : Reg) (m : State), ∃ m', exec (.outb r s t) m = .next m' ∧ Returned m' .ok ∧
    Unchanged [] [] m m' ∧ SameInput m m' ∧
    m'.output = m.output ++ [if (m.readReg r).toInt = 0 then 0x46 else 0x54]

/-- R195: `OUTC` emits one byte, the value modulo 256. -/
def Obligations.OutcEmitsOneByte : Prop :=
  ∀ (r s t : Reg) (m : State), ∃ m' b, exec (.outc r s t) m = .next m' ∧ Returned m' .ok ∧
    Unchanged [] [] m m' ∧ SameInput m m' ∧ m'.output = m.output ++ [b] ∧
    (b.toNat : Int) = (m.readReg r).toInt % 256

/-- R196: `OUTNL` emits one line feed. -/
def Obligations.OutnlEmitsALineFeed : Prop :=
  ∀ (r s t : Reg) (m : State), ∃ m', exec (.outnl r s t) m = .next m' ∧ Returned m' .ok ∧
    Unchanged [] [] m m' ∧ SameInput m m' ∧ m'.output = m.output ++ [0x0A]

/-- R197: a line is an integer exactly when it is `blank* sint blank* ( "#" blank* )?` with a value in
`int32`; every other line is malformed. -/
def Obligations.IntegerLinesAreThoseOfTheGrammar : Prop :=
  ∀ (line : List Byte) (v : Word) (haltFlag : Bool),
    parseInt line = .value v haltFlag ↔
    ∃ b1 signs digits b2 tail,
      line = b1 ++ signs ++ digits ++ b2 ++ tail ∧
      b1.all isBlank = true ∧ b2.all isBlank = true ∧
      signs.all isSign = true ∧ digits ≠ [] ∧ digits.all isDigit = true ∧
      v.toInt = literalValue signs digits ∧
      ((haltFlag = false ∧ tail = []) ∨
        (haltFlag = true ∧ ∃ b3, tail = hashByte :: b3 ∧ b3.all isBlank = true))

/-- R198: the first byte that is not a blank decides a boolean, the last one the halt flag. -/
def Obligations.BooleanLinesReadByTheirEnds : Prop :=
  ∀ line : List Byte, ∃ v haltFlag, parseBool line = .value v haltFlag ∧
    (v = 0 ∨ v = 1) ∧
    (v = 0 ↔ ∃ b1 c rest, line = b1 ++ c :: rest ∧ b1.all isBlank = true ∧
      (c = 0x46 ∨ c = 0x66 ∨ c = 0x30)) ∧
    (haltFlag = true ↔ ∃ front b1, line = front ++ hashByte :: b1 ∧ b1.all isBlank = true)

/-! ## Arithmetic (42_arithmetic.md) -/

/-- R231: `x[r] <- wrap32(x[s] + x[t])`, always `OK`. -/
def Obligations.AddWritesTheWrappedSum : Prop :=
  ∀ (r s t : Reg) (m : State), ∃ m', exec (.add r s t) m = .next m' ∧ Returned m' .ok ∧
    (m'.readReg r).toInt = ((m.readReg s).toInt + (m.readReg t).toInt).bmod (2 ^ 32) ∧
    Unchanged [r] [] m m' ∧ SameConsole m m'

/-- R232: `x[r] <- wrap32(x[s] - x[t])`, always `OK`. -/
def Obligations.SubWritesTheWrappedDifference : Prop :=
  ∀ (r s t : Reg) (m : State), ∃ m', exec (.sub r s t) m = .next m' ∧ Returned m' .ok ∧
    (m'.readReg r).toInt = ((m.readReg s).toInt - (m.readReg t).toInt).bmod (2 ^ 32) ∧
    Unchanged [r] [] m m' ∧ SameConsole m m'

/-- R233: `x[r] <- wrap32(x[s] * x[t])`, always `OK`. -/
def Obligations.MulWritesTheWrappedProduct : Prop :=
  ∀ (r s t : Reg) (m : State), ∃ m', exec (.mul r s t) m = .next m' ∧ Returned m' .ok ∧
    (m'.readReg r).toInt = ((m.readReg s).toInt * (m.readReg t).toInt).bmod (2 ^ 32) ∧
    Unchanged [r] [] m m' ∧ SameConsole m m'

/-- R234: `DIV` by zero returns `DIVIDE-BY-ZERO` and writes nothing; otherwise `x[r]` gets the wrapped
quotient rounded toward zero. -/
def Obligations.DivTruncatesOrReportsZero : Prop :=
  ∀ (r s t : Reg) (m : State),
    ((m.readReg t).toInt = 0 → ∃ m', exec (.div r s t) m = .next m' ∧ Returned m' .divideByZero ∧
      Unchanged [] [] m m' ∧ SameConsole m m') ∧
    ((m.readReg t).toInt ≠ 0 → ∃ m', exec (.div r s t) m = .next m' ∧ Returned m' .ok ∧
      (m'.readReg r).toInt = (Int.tdiv (m.readReg s).toInt (m.readReg t).toInt).bmod (2 ^ 32) ∧
      Unchanged [r] [] m m' ∧ SameConsole m m')

/-- R235: what a quotient written by `DIV` satisfies, but for `-2^31 / -1`, which gives `-2^31`. -/
def Obligations.DivisionObeysItsLaws : Prop :=
  ∀ (r s t : Reg) (m m' : State), (m.readReg t).toInt ≠ 0 → exec (.div r s t) m = .next m' →
    ((m.readReg s).toInt = -2147483648 → (m.readReg t).toInt = -1 →
      (m'.readReg r).toInt = -2147483648) ∧
    (¬ ((m.readReg s).toInt = -2147483648 ∧ (m.readReg t).toInt = -1) →
      ((m'.readReg r).toInt * (m.readReg t).toInt).natAbs ≤ (m.readReg s).toInt.natAbs ∧
      ((m'.readReg r).toInt = 0 ∨
        ((m'.readReg r).toInt * (m.readReg t).toInt).sign = (m.readReg s).toInt.sign) ∧
      ((m.readReg s).toInt - (m'.readReg r).toInt * (m.readReg t).toInt).natAbs
        < (m.readReg t).toInt.natAbs ∧
      ((m.readReg s).toInt - (m'.readReg r).toInt * (m.readReg t).toInt = 0 ∨
        ((m.readReg s).toInt - (m'.readReg r).toInt * (m.readReg t).toInt).sign
          = (m.readReg s).toInt.sign))

/-! ## Memory (43_memory_ops.md) -/

/-- R260: `LD` copies the word at the effective address, or returns `DATA-FAULT` with `x[r]`
unchanged when the address is outside `[0, DC)`. -/
def Obligations.LdLoadsTheWordOrFaults : Prop :=
  ∀ (r : Reg) (d : Word) (s : Reg) (m : State),
    (0 ≤ (d + m.readReg s).toInt ∧ (d + m.readReg s).toInt < (m.config.dc : Int) →
      ∃ m', exec (.ld r d s) m = .next m' ∧ Returned m' .ok ∧
        m'.readReg r = (m.dataSlot (d + m.readReg s).toNat).word ∧
        Unchanged [r] [] m m' ∧ SameConsole m m') ∧
    (¬ (0 ≤ (d + m.readReg s).toInt ∧ (d + m.readReg s).toInt < (m.config.dc : Int)) →
      ∃ m', exec (.ld r d s) m = .next m' ∧ Returned m' .dataFault ∧
        Unchanged [] [] m m' ∧ SameConsole m m')

/-- R261: `ST` writes `x[r]` to the slot at the effective address and tags it with the address of the
store itself; every other slot is unchanged. Outside `[0, DC)` it returns `DATA-FAULT` and writes
nothing. That this address is `x[PC] - 1` while it executes is the model's inference (log 18). -/
def Obligations.StStoresTheWordOrFaults : Prop :=
  ∀ (r : Reg) (d : Word) (s : Reg) (m : State),
    (m.dataInRange (m.effectiveAddress d s) = true →
      ∃ m', exec (.st r d s) m = .next m' ∧ Returned m' .ok ∧
        m'.dataSlot (m.effectiveAddress d s).toNat = ⟨m.readReg r, .writer (m.pc - 1).toNat⟩ ∧
        Unchanged [] [(m.effectiveAddress d s).toNat] m m' ∧ SameConsole m m') ∧
    (m.dataInRange (m.effectiveAddress d s) = false →
      ∃ m', exec (.st r d s) m = .next m' ∧ Returned m' .dataFault ∧
        Unchanged [] [] m m' ∧ SameConsole m m')

/-- R165, R262: `LDA` writes the effective address, the wrapped sum of displacement and base, which
is not range-checked. -/
def Obligations.LdaWritesTheEffectiveAddress : Prop :=
  ∀ (r : Reg) (d : Word) (s : Reg) (m : State), ∃ m', exec (.lda r d s) m = .next m' ∧
    Returned m' .ok ∧
    (m'.readReg r).toInt = (d.toInt + (m.readReg s).toInt).bmod (2 ^ 32) ∧
    Unchanged [r] [] m m' ∧ SameConsole m m'

/-- R263: `LDC` writes the constant; the value of the base register has no effect. -/
def Obligations.LdcWritesTheConstant : Prop :=
  ∀ (r : Reg) (d : Word) (s : Reg) (m : State),
    (∃ m', exec (.ldc r d s) m = .next m' ∧ Returned m' .ok ∧ m'.readReg r = d ∧
      Unchanged [r] [] m m' ∧ SameConsole m m') ∧
    (∀ v m1 m2, s ≠ r → exec (.ldc r d s) m = .next m1 →
      exec (.ldc r d s) (m.writeReg s v) = .next m2 → m2.readReg r = m1.readReg r)

/-- R264, R51: a step changes a data word or a provenance tag only when it executes a store, and then
in one slot only. -/
def Obligations.OnlyStoresChangeTheDataStore : Prop :=
  ∀ m t : State, step m = .next t →
    (∀ a, t.dataSlot a = m.dataSlot a) ∨
    (∃ r d s, Runs m (.st r d s) ∧ t.result = some .ok ∧
      ∀ a, a ≠ (m.rearm.advance.effectiveAddress d s).toNat → t.dataSlot a = m.dataSlot a)

/-! ## Control transfer (44_control.md) -/

/-- R291 to R296: each jump tests its own signed comparison of `x[r]` with zero; when it holds the
program counter gets the effective address, whatever that is, and otherwise nothing changes. -/
def Obligations.JumpsFollowTheirComparison : Prop :=
  ∀ j ∈ ([(Instr.jlt, fun v => decide (v < 0)), (Instr.jle, fun v => decide (v ≤ 0)),
      (Instr.jgt, fun v => decide (0 < v)), (Instr.jge, fun v => decide (0 ≤ v)),
      (Instr.jeq, fun v => decide (v = 0)), (Instr.jne, fun v => decide (v ≠ 0))] :
      List ((Reg → Word → Reg → Instr) × (Int → Bool))),
    ∀ (r : Reg) (d : Word) (s : Reg) (m : State), ∃ m', exec (j.1 r d s) m = .next m' ∧
      Returned m' .ok ∧
      m'.pc = (if j.2 (m.readReg r).toInt then d + m.readReg s else m.pc) ∧
      Unchanged [m.config.pcIndex] [] m m' ∧ SameConsole m m'

/-- R290, R161: each of the six jumps, when its comparison holds and its target is outside `[0, IC)`,
is taken with `OK`: the program counter gets the target, and the next step returns
`INSTRUCTION-FAULT` and changes nothing. -/
def Obligations.JumpOutsideTheStoreFaultsAtTheFetch : Prop :=
  ∀ form ∈ jumpForms, ∀ (m : State) (r : Reg) (d : Word) (s : Reg), Runs m (form.1 r d s) →
    form.2 (operandValue m r).toInt = true →
    ¬ (0 ≤ (d + operandValue m s).toInt ∧ (d + operandValue m s).toInt < (m.config.ic : Int)) →
    ∃ t, step m = .next t ∧ t.result = some .ok ∧ t.pc = d + operandValue m s ∧
      step t = .next { t with result := some .instructionFault }

/-- R297: every instruction whose destination is the program counter transfers control to the value
it writes: `LDA`, `LDC`, `LD`, `ADD`, `SUB`, `MUL`, `DIV`, `IN` and `INB`, whatever registers they
read, the program counter among them. -/
def Obligations.WritesOfThePcTransferControl : Prop :=
  (∀ (m : State) (d : Word) (s : Reg), Runs m (.lda m.config.pcIndex d s) →
    ∃ t, step m = .next t ∧ Returned t .ok ∧ t.pc = d + operandValue m s) ∧
  (∀ (m : State) (d : Word) (s : Reg), Runs m (.ldc m.config.pcIndex d s) →
    ∃ t, step m = .next t ∧ Returned t .ok ∧ t.pc = d) ∧
  (∀ (m : State) (d : Word) (s : Reg), Runs m (.ld m.config.pcIndex d s) →
    m.dataInRange (d + operandValue m s) = true →
    ∃ t, step m = .next t ∧ Returned t .ok ∧
      t.pc = (m.dataSlot (d + operandValue m s).toNat).word) ∧
  (∀ form ∈ wrappingForms, ∀ (m : State) (s t : Reg), Runs m (form.1 m.config.pcIndex s t) →
    ∃ m', step m = .next m' ∧ Returned m' .ok ∧ m'.pc.toInt
      = (form.2 (operandValue m s).toInt (operandValue m t).toInt).bmod (2 ^ 32)) ∧
  (∀ (m : State) (s t : Reg), Runs m (.div m.config.pcIndex s t) →
    (operandValue m t).toInt ≠ 0 →
    ∃ m', step m = .next m' ∧ Returned m' .ok ∧ m'.pc.toInt
      = (Int.tdiv (operandValue m s).toInt (operandValue m t).toInt).bmod (2 ^ 32)) ∧
  (∀ (m : State) (s t : Reg) (line : List Byte) (rest : List (List Byte)) (v : Word)
    (haltFlag : Bool), Runs m (.in_ m.config.pcIndex s t) → m.inputLines = line :: rest →
    parseInt line = .value v haltFlag →
    ∃ m', step m = .next m' ∧ Returned m' (if haltFlag then .halted else .ok) ∧ m'.pc = v) ∧
  (∀ (m : State) (s t : Reg) (line : List Byte) (rest : List (List Byte)) (v : Word)
    (haltFlag : Bool), Runs m (.inb m.config.pcIndex s t) → m.inputLines = line :: rest →
    parseBool line = .value v haltFlag →
    ∃ m', step m = .next m' ∧ Returned m' (if haltFlag then .halted else .ok) ∧ m'.pc = v)

/-! ## Rules of the whole machine -/

/-- R87, R320 to R322: every instruction answers in every state: it returns one of the six results,
or its step waits for input (the waiting state is the model's form of the wait, log 6); and each
result comes from its opcodes only. -/
def Obligations.EveryInstructionAnswersWithItsResults : Prop :=
  ∀ (i : Instr) (m : State), ∃ t, exec i m = .next t ∧
    ((∃ r, Returned t r) ∨
      (t.waiting.isSome = true ∧ t.result = none ∧ i.opcode ∈ [Opcode.in_, .inb])) ∧
    t.result ≠ some .instructionFault ∧
    (t.result = some .dataFault → i.opcode ∈ [Opcode.ld, .st]) ∧
    (t.result = some .divideByZero → i.opcode = .div) ∧
    (t.result = some .inputError → i.opcode ∈ [Opcode.in_, .inb]) ∧
    (t.result = some .halted → i.opcode ∈ [Opcode.halt, .in_, .inb])

/-- R171: a step that returns a fault of its instruction makes only the writes of the frame. -/
def Obligations.FaultingStepMakesNoOtherWrites : Prop :=
  ∀ (m t : State) (i : Instr), Runs m i → step m = .next t →
    t.result = some .dataFault ∨ t.result = some .divideByZero ∨ t.result = some .inputError →
    t.pc = m.pc + 1 ∧ (∀ q, q ≠ m.config.pcIndex → t.readReg q = m.readReg q) ∧
    t.icount = m.icount + 1 ∧ (∀ a, t.instrSlot a = m.instrSlot a) ∧
    (∀ a, t.dataSlot a = m.dataSlot a) ∧ t.bp = m.rearm.bp ∧ t.output = m.output ∧
    t.config = m.config ∧ t.pendingRun = m.pendingRun ∧ t.loadResult = m.loadResult

/-- R28, R62: no step changes the instruction store, its tags or comments, or the parameters. -/
def Obligations.StepNeverWritesTheInstructionStore : Prop :=
  ∀ m t : State, step m = .next t → (∀ a, t.instrSlot a = m.instrSlot a) ∧ t.config = m.config

/-- R22, R86: an instruction writes no register it does not name as a destination; the jumps name the
program counter. -/
def Obligations.UnnamedRegistersAreUnchanged : Prop :=
  ∀ (i : Instr) (m t : State), exec i m = .next t →
    ∀ q, q ∉ Instr.regsWritten m.config.pcIndex i → t.readReg q = m.readReg q

/-- R89: an operand an opcode does not read has no effect, whatever its value. -/
def Obligations.IgnoredOperandsHaveNoEffect : Prop :=
  ∀ (m : State) (r s t r' s' t' : Reg) (d : Word),
    exec (.halt r s t) m = exec (.halt r' s' t') m ∧
    exec (.outnl r s t) m = exec (.outnl r' s' t') m ∧
    exec (.in_ r s t) m = exec (.in_ r s' t') m ∧
    exec (.inb r s t) m = exec (.inb r s' t') m ∧
    exec (.out r s t) m = exec (.out r s' t') m ∧
    exec (.outb r s t) m = exec (.outb r s' t') m ∧
    exec (.outc r s t) m = exec (.outc r s' t') m ∧
    exec (.ldc r d s) m = exec (.ldc r d s') m

/-- R61, R201, R334, R335: a step only appends to the output, and appends only when it executes an
output instruction; it takes at most one line of the input, the oldest, and takes it only for an
input instruction: one it executes or the blocked one. -/
def Obligations.ConsoleMovesOnlyByItsInstructions : Prop :=
  ∀ m t : State, step m = .next t →
    (∃ bytes, t.output = m.output ++ bytes ∧
      (bytes ≠ [] → ∃ i, Runs m i ∧ i.opcode ∈ [Opcode.out, .outb, .outc, .outnl])) ∧
    t.inputEnded = m.inputEnded ∧
    ((t.inputLines = m.inputLines ∧ t.inputTaken = m.inputTaken) ∨
      ∃ line, m.inputLines = line :: t.inputLines ∧ t.inputTaken = m.inputTaken ++ [line] ∧
        (m.waiting.isSome = true ∨ ∃ i, Runs m i ∧ i.opcode ∈ [Opcode.in_, .inb]))

/-- The invariant holds right after reset, and at power-on with any parameters in range. -/
def Obligations.ResetMeetsTheInvariant : Prop :=
  State.reset.wf = true ∧ ∀ c : Config, c.valid = true → (State.powerOn c).wf = true

/-- Every step keeps the invariant: parameters in range (R7, R8), both stores canonical and inside their capacities, every
instruction word valid (R87), every writer tag in `[0, IC)` (R30), a blocked step without a result and
without input at hand (R200, R334). -/
def Obligations.StepKeepsTheInvariant : Prop :=
  ∀ m t : State, m.wf = true → step m = .next t → t.wf = true

/-- R87: every step of a machine that meets the invariant answers a next state: nothing it can fetch
is refused. -/
def Obligations.WellFormedMachinesAnswer : Prop :=
  ∀ m : State, m.wf = true → StepAnswers m

/-- Every host operation, loads and resets among them, keeps the invariant. -/
def Obligations.HostOperationsKeepTheInvariant : Prop :=
  ∀ (op : HostOp) (m : State), m.wf = true → (hostCall op m).1.wf = true

/-- R87: whatever the host does from power-on, the machine meets the invariant, keeps its parameters,
and its next step answers: nothing it can fetch is refused. -/
def Obligations.ReachableMachinesNeverRefuse : Prop :=
  ∀ (c : Config) (m : State), c.valid = true → Reachable c m →
    m.wf = true ∧ m.config = c ∧ StepAnswers m

/-! ## Loader (35_loader.md) -/

/-- R111: lines end at a line feed, with or without a carriage return before it, and the last one
needs none. -/
def Obligations.TextSplitsAtLineFeeds : Prop :=
  ∀ lines : List (List Byte),
    (∀ l ∈ lines, (0x0A : Byte) ∉ l ∧ l.getLast? ≠ some 0x0D) →
    splitLines (lines.flatMap fun l => l ++ [0x0A]) = lines ∧
    splitLines (lines.flatMap fun l => l ++ [0x0D, 0x0A]) = lines ∧
    (∀ l, l ≠ [] → (0x0A : Byte) ∉ l → l.getLast? ≠ some 0x0D →
      splitLines ((lines.flatMap fun l => l ++ [0x0A]) ++ l) = lines ++ [l])

/-- R127: no token selects two opcodes, and every table name selects its own. -/
def Obligations.MnemonicsSelectOneOpcode : Prop :=
  (∀ op : Opcode, matchMnemonic (ascii op.name) = some op) ∧
  (∀ (token : List Byte) (op op' : Opcode), nameMatches (ascii op.name) token = true →
    nameMatches (ascii op'.name) token = true → op = op')

/-- R114 to R117, R120 to R122: what the two directives read from their line and when they fail (a
bad name, no literal or one outside `int32`, malformed quoting, a bad string byte), and what their
words place, where, with which tag, and that they fail when they would pass the end of the data
store. Blanks may stand before the directive and before its operand. -/
def Obligations.DirectivesPlaceTheirWords : Prop :=
  (∀ (ic : Nat) (b0 b1 signs digits rest : List Byte), b0.all isBlank = true →
    b1.all isBlank = true → signs.all isSign = true → digits ≠ [] → digits.all isDigit = true →
    (∀ c ∈ rest.head?, isDigit c = false) →
    ∃ v : Word, v.toInt = (literalValue signs digits).bmod (2 ^ 32) ∧
      parseProgramLine ic (b0 ++ ascii ".DATA" ++ b1 ++ signs ++ digits ++ rest) =
        if inInt32 (literalValue signs digits) = true then .ok (.data [v] .staticNumeric)
        else .error ⟨none, .dataLiteral⟩) ∧
  (∀ (ic : Nat) (b0 b1 signs rest : List Byte), b0.all isBlank = true → b1.all isBlank = true →
    signs.all isSign = true →
    (∀ c ∈ rest.head?, isDigit c = false ∧ isSign c = false ∧
      (signs = [] → isBlank c = false ∧ (b1 = [] → isLetter c = false))) →
    parseProgramLine ic (b0 ++ ascii ".DATA" ++ b1 ++ signs ++ rest)
      = .error ⟨none, .dataLiteral⟩) ∧
  (∀ (ic : Nat) (b0 b1 chars rest : List Byte), b0.all isBlank = true → b1.all isBlank = true →
    (0x22 : Byte) ∉ chars →
    parseProgramLine ic (b0 ++ ascii ".SDATA" ++ b1 ++ ascii "\"" ++ chars ++ ascii "\"" ++ rest) =
      if chars.all isStringByte = true then
        .ok (.data (chars.map fun b => BitVec.ofNat 32 b.toNat) .staticChar)
      else .error ⟨none, .quoting⟩) ∧
  (∀ (ic : Nat) (b0 b1 body : List Byte), b0.all isBlank = true → b1.all isBlank = true →
    (0x22 : Byte) ∉ body →
    parseProgramLine ic (b0 ++ ascii ".SDATA" ++ b1 ++ ascii "\"" ++ body)
      = .error ⟨none, .quoting⟩) ∧
  (∀ (ic : Nat) (b0 b1 rest : List Byte), b0.all isBlank = true → b1.all isBlank = true →
    (∀ c ∈ rest.head?, c ≠ 0x22 ∧ isBlank c = false ∧ (b1 = [] → isLetter c = false)) →
    parseProgramLine ic (b0 ++ ascii ".SDATA" ++ b1 ++ rest) = .error ⟨none, .quoting⟩) ∧
  (∀ (ic : Nat) (b0 name rest : List Byte), b0.all isBlank = true → name.all isLetter = true →
    (∀ c ∈ rest.head?, isLetter c = false) → name ≠ ascii "DATA" → name ≠ ascii "SDATA" →
    parseProgramLine ic (b0 ++ ascii "." ++ name ++ rest) = .error ⟨none, .directive⟩) ∧
  (∀ (words : List Word) (tag : DataTag) (next : Nat) (m : State), next ≤ m.config.dc →
    (m.config.dc < next + words.length →
      applyLine (.data words tag) next m = .error .dataFull) ∧
    (next + words.length ≤ m.config.dc →
      ∃ t, applyLine (.data words tag) next m = .ok (t, next + words.length) ∧
        (∀ (k : Nat) (h : k < words.length), t.dataSlot (next + k) = ⟨words[k], tag⟩) ∧
        (∀ a, a < next ∨ next + words.length ≤ a → t.dataSlot a = m.dataSlot a)))

/-- R120 to R122: the allocation pointer starts at 1 and goes on from line to line, whatever lines
stand between the directives: the words of all directives of a text fill the data slots from slot 1
upward in order, every other slot is as after a full reset, and the load fails, with a full data
store, exactly when they would pass its end. -/
def Obligations.DirectivesFillTheStoreFromSlotOne : Prop :=
  ∀ (text : List Byte) (m : State) (effects : List LineEffect), m.config.valid = true →
    (splitLines text).map (parseProgramLine m.config.ic) = effects.map .ok →
    ((effects.flatMap placedWords).length < m.config.dc →
      (load text m).loadResult = some .ok ∧
      (∀ (k : Nat) (h : k < (effects.flatMap placedWords).length),
        (load text m).dataSlot (1 + k) = (effects.flatMap placedWords)[k]) ∧
      (∀ a, a = 0 ∨ (effects.flatMap placedWords).length < a →
        (load text m).dataSlot a = m.fullReset.dataSlot a)) ∧
    (m.config.dc ≤ (effects.flatMap placedWords).length →
      ∃ line, (load text m).loadResult = some (.error ⟨some line, none, .dataFull⟩))

/-- R132: whatever the text, a load leaves every register 0, the breakpoint `NONE` and the counter 0,
and the console as it was. -/
def Obligations.LoadLeavesTheMachineReset : Prop :=
  ∀ (text : List Byte) (m : State),
    (∀ r, (load text m).readReg r = 0) ∧ (load text m).bp = .none ∧ (load text m).icount = 0 ∧
    (load text m).waiting = none ∧ (load text m).pendingRun = none ∧
    (load text m).loadResult.isSome = true ∧ (load text m).config = m.config ∧
    SameConsole m (load text m)

/-- R131: a load that fails at a line leaves what the lines before it made, and nothing of that
line or the lines after it. -/
def Obligations.FailingLineHasNoEffect : Prop :=
  ∀ (before : List (List Byte)) (line : List Byte) (after : List (List Byte)) (text : List Byte)
    (m : State) (e : LoadError),
    splitLines text = before ++ line :: after →
    (loadLines before 1 1 m.fullReset).loadResult = some .ok →
    (loadLines (before ++ [line]) 1 1 m.fullReset).loadResult = some (.error e) →
    e.line = some (before.length + 1) ∧
    load text m = { loadLines before 1 1 m.fullReset with loadResult := some (.error e) }

/-- R129 (and W8): an instruction spelled as a line and loaded reads back exactly, with its comment. -/
def Obligations.SpelledInstructionLoadsBack : Prop :=
  ∀ (address : Nat) (i : Instr) (comment : List Byte) (m : State), m.config.valid = true →
    address < m.config.ic → (0x0A : Byte) ∉ comment → comment.getLast? ≠ some 0x0D →
    (∀ c ∈ comment.head?, isDigit c = false) →
    (load (spellLine address i comment) m).loadResult = some .ok ∧
    (load (spellLine address i comment) m).viewInstr address = ⟨some i, .assigned, comment⟩

/-! ## Host interface (60_exceptions.md) -/

/-- R333: `runUntilHalt` calls `step` again and again, stops after the first call whose result is not
`OK` or after `maxSteps` calls, and returns the last result and the number of calls; the host gets
exactly these, and `step()` is the run of one call. A run that ended does not depend on a larger
bound. The ending of a step that blocks (R200) and of a refused one are the model's (logs 4, 12). -/
def Obligations.BulkRunStopsAtTheFirstResult : Prop :=
  (∀ m : State, runUntilHalt 0 m = ⟨m, .returned .ok, 0⟩) ∧
  (∀ (n : Nat) (m t : State), step m = .next t →
    (t.result = some .ok →
      runUntilHalt (n + 1) m
        = ⟨(runUntilHalt n t).state, (runUntilHalt n t).ending, (runUntilHalt n t).calls + 1⟩) ∧
    (∀ r, t.result = some r → r ≠ .ok → runUntilHalt (n + 1) m = ⟨t, .returned r, 1⟩) ∧
    (t.result = none → runUntilHalt (n + 1) m = ⟨t, .waits n, 0⟩)) ∧
  (∀ (n : Nat) (m : State) (why : Refusal), step m = .refused why →
    runUntilHalt (n + 1) m = ⟨m, .refused why, 1⟩) ∧
  (∀ (n : Nat) (m : State), (runUntilHalt n m).calls ≤ n ∧
    ((runUntilHalt n m).ending = .returned .ok → (runUntilHalt n m).calls = n) ∧
    (∀ r, (runUntilHalt n m).ending = .returned r → r ≠ .ok →
      ∀ k, n ≤ k → runUntilHalt k m = runUntilHalt n m)) ∧
  (∀ (n : Nat) (m t : State) (r : StepResult) (calls : Nat), m.waiting = none →
    m.pendingRun = none → runUntilHalt n m = ⟨t, .returned r, calls⟩ →
    hostCall (.runUntilHalt n) m = (t, .ran r calls)) ∧
  (∀ m : State, m.waiting = none → hostCall .step m = hostCall (.runUntilHalt 1) m)

/-- R200, R333, R336: a call that blocks on input has not returned. Until the host supplies a line or
the end of input every other operation is turned away and changes nothing (log 9); then the call
goes on with all the calls of `step` it has left, and ends, with the state, the result and the count
of the run whose host had supplied that input before. -/
def Obligations.BlockedRunGoesOnAsIfFedBefore : Prop :=
  ∀ (n : Nat) (m b : State), m.waiting = none → hostCall (.runUntilHalt n) m = (b, .blocked) →
    (∀ line, hostCall (.supplyLine line) b = hostCall (.runUntilHalt n) (m.supplyLine line)) ∧
    hostCall .endInput b = hostCall (.runUntilHalt n) m.endInput ∧
    (∀ op, (∀ line, op ≠ .supplyLine line) → op ≠ .endInput → hostCall op b = (b, .busy))

/-- R337, R172: the run of a loaded program has at most one end: the same program, machine and inputs
give the same number of steps, result, state and output, whatever bound the host runs it with. -/
def Obligations.ProgramRunHasOneEnd : Prop :=
  ∀ (text : List Byte) (m : State) (feeds : List ConsoleInput) (n n' : Nat) (r r' : StepResult)
    (t t' : State) (bytes bytes' : List Byte),
    RunEndsWith text m feeds n r t bytes → RunEndsWith text m feeds n' r' t' bytes' →
    n = n' ∧ r = r' ∧ t = t' ∧ bytes = bytes'

/-- R328, R329, R331: the host reads a register or a data slot with its tag, writes one register, or
one data word with its tag left alone, and sets or clears the breakpoint; an index or address out of
range is an error that changes nothing. -/
def Obligations.HostAccessorsReachOnePlace : Prop :=
  ∀ (m : State) (v : Word), m.waiting = none →
    (∀ (i : Int) (r : Reg), i = (r.val : Int) →
      hostCall (.getReg i) m = (m, .word (m.readReg r)) ∧
      (hostCall (.setReg i v) m).2 = .done ∧ (hostCall (.setReg i v) m).1.readReg r = v ∧
      Unchanged [r] [] m (hostCall (.setReg i v) m).1 ∧
      SameConsole m (hostCall (.setReg i v) m).1) ∧
    (∀ i : Int, i < 0 ∨ 8 ≤ i →
      hostCall (.getReg i) m = (m, .hostError) ∧ hostCall (.setReg i v) m = (m, .hostError)) ∧
    (∀ a : Nat, a < m.config.dc →
      hostCall (.getData a) m = (m, .slot (m.dataSlot a).word (m.dataSlot a).tag) ∧
      (hostCall (.setData a v) m).2 = .done ∧
      (hostCall (.setData a v) m).1.dataSlot a = ⟨v, (m.dataSlot a).tag⟩ ∧
      Unchanged [] [a] m (hostCall (.setData a v) m).1 ∧
      SameConsole m (hostCall (.setData a v) m).1) ∧
    (∀ a : Int, a < 0 ∨ (m.config.dc : Int) ≤ a →
      hostCall (.getData a) m = (m, .hostError) ∧ hostCall (.setData a v) m = (m, .hostError)) ∧
    hostCall (.armBreakpoint v) m = ({ m with bp := .armed v }, .done) ∧
    hostCall .clearBreakpoint m = ({ m with bp := .none }, .done)
end

