-- ==== Sys2Proof/Laws/Memory.lean ====
section
/-! SUPPORT. Read after write on sparse stores, and that every operation keeps the canonical form. -/

namespace Sys2Proof.Machine

variable {α : Type} (d : Nat → α)

/-! ## Reading -/

@[simp] theorem Memory.read_nil (a : Nat) : Memory.read d [] a = d a := rfl

theorem Memory.read_cons (k : Nat) (v : α) (rest : Memory α) (a : Nat) :
    Memory.read d ((k, v) :: rest) a = if k = a then v else Memory.read d rest a := rfl

theorem Memory.read_eq_default {mem : Memory α} {a : Nat} (h : ∀ e ∈ mem, e.1 ≠ a) :
    Memory.read d mem a = d a := by
  induction mem with
  | nil => rfl
  | cons e rest ih =>
    have he := h e (by simp)
    simp [Memory.read, he, ih fun e' h' => h e' (by simp [h'])]

/-- A read finds what a listed entry says or the default. -/
theorem Memory.read_mem_or_default (mem : Memory α) (a : Nat) :
    (a, Memory.read d mem a) ∈ mem ∨ Memory.read d mem a = d a := by
  induction mem with
  | nil => exact .inr rfl
  | cons e rest ih =>
    obtain ⟨k, v⟩ := e
    by_cases hk : k = a
    · left; simp [Memory.read, hk]
    · rcases ih with h | h
      · left; simp [Memory.read, hk, h]
      · right; simp [Memory.read, hk, h]

@[simp] theorem Memory.read_erase_same (mem : Memory α) (a : Nat) :
    Memory.read d (Memory.erase mem a) a = d a :=
  Memory.read_eq_default d (by simp [Memory.erase])

theorem Memory.read_erase_other (mem : Memory α) {a b : Nat} (h : b ≠ a) :
    Memory.read d (Memory.erase mem a) b = Memory.read d mem b := by
  induction mem with
  | nil => rfl
  | cons e rest ih =>
    obtain ⟨k, v⟩ := e
    simp only [Memory.erase] at ih
    by_cases hk : k = a
    · have : a ≠ b := Ne.symm h
      simp [Memory.erase, Memory.read, hk, this, ih]
    · simp [Memory.erase, Memory.read, hk, ih]

theorem Memory.read_insert_same {mem : Memory α} {a : Nat} (v : α) (h : ∀ e ∈ mem, e.1 ≠ a) :
    Memory.read d (Memory.insert mem a v) a = v := by
  induction mem with
  | nil => simp [Memory.insert, Memory.read]
  | cons e rest ih =>
    obtain ⟨k, w⟩ := e
    have hk : k ≠ a := h (k, w) (by simp)
    by_cases hlt : a < k
    · simp [Memory.insert, Memory.read, hlt]
    · simp [Memory.insert, Memory.read, hlt, hk, ih fun e' h' => h e' (by simp [h'])]

theorem Memory.read_insert_other (mem : Memory α) {a b : Nat} (v : α) (h : b ≠ a) :
    Memory.read d (Memory.insert mem a v) b = Memory.read d mem b := by
  induction mem with
  | nil => simp [Memory.insert, Memory.read, Ne.symm h]
  | cons e rest ih =>
    obtain ⟨k, w⟩ := e
    by_cases hlt : a < k
    · simp [Memory.insert, Memory.read, hlt, Ne.symm h]
    · simp [Memory.insert, Memory.read, hlt, ih]

/-- Dropping entries from a rising store sets their addresses back to the default. -/
theorem Memory.read_filter (p : Nat × α → Bool) {mem : Memory α} (h : Memory.rising mem = true)
    (a : Nat) : Memory.read d (mem.filter p) a
      = if p (a, Memory.read d mem a) = true then Memory.read d mem a else d a := by
  induction mem with
  | nil => exact (ite_self (d a)).symm
  | cons e rest ih =>
    obtain ⟨k, v⟩ := e
    simp only [Memory.rising, Bool.and_eq_true, List.all_eq_true, decide_eq_true_eq] at h
    have ih := ih h.2
    by_cases hka : k = a
    · subst hka
      by_cases hp : p (k, v)
      · rw [List.filter_cons_of_pos hp]; simp [Memory.read, hp]
      · rw [List.filter_cons_of_neg hp, Memory.read_eq_default]
        · simp [Memory.read, hp]
        · intro e he; have := h.1 e (List.mem_filter.mp he).1; omega
    · by_cases hp : p (k, v)
      · rw [List.filter_cons_of_pos hp]; simp [Memory.read, hka, ih]
      · rw [List.filter_cons_of_neg hp, ih]; simp [Memory.read, hka]

variable [DecidableEq α]

/-- A read after a write to the same address gives the value written. -/
@[simp] theorem Memory.read_write_same (mem : Memory α) (a : Nat) (v : α) :
    Memory.read d (Memory.write d mem a v) a = v := by
  unfold Memory.write
  split
  · next h => simp [h]
  · exact Memory.read_insert_same d v (by simp [Memory.erase])

/-- A write leaves every other address alone. -/
theorem Memory.read_write_other (mem : Memory α) {a b : Nat} (v : α) (h : b ≠ a) :
    Memory.read d (Memory.write d mem a v) b = Memory.read d mem b := by
  unfold Memory.write
  split
  · exact Memory.read_erase_other d mem h
  · rw [Memory.read_insert_other d _ v h, Memory.read_erase_other d mem h]

theorem Memory.read_write (mem : Memory α) (a b : Nat) (v : α) :
    Memory.read d (Memory.write d mem a v) b = if b = a then v else Memory.read d mem b := by
  split
  · next h => subst h; simp
  · next h => exact Memory.read_write_other d mem v h

/-! ## The canonical form -/

omit [DecidableEq α] in
theorem Memory.rising_filter {mem : Memory α} (p : Nat × α → Bool) (h : Memory.rising mem) :
    Memory.rising (mem.filter p) := by
  induction mem with
  | nil => rfl
  | cons e rest ih =>
    obtain ⟨k, v⟩ := e
    simp only [Memory.rising, Bool.and_eq_true, List.all_eq_true, decide_eq_true_eq] at h
    by_cases hp : p (k, v)
    · simp only [List.filter_cons_of_pos hp, Memory.rising, Bool.and_eq_true, List.all_eq_true,
        decide_eq_true_eq]
      exact ⟨fun x hx => h.1 x (List.mem_filter.mp hx).1, ih h.2⟩
    · rw [List.filter_cons_of_neg hp]
      exact ih h.2

omit [DecidableEq α] in
theorem Memory.mem_insert {mem : Memory α} {a : Nat} {v : α} {e : Nat × α} :
    e ∈ Memory.insert mem a v ↔ e = (a, v) ∨ e ∈ mem := by
  induction mem with
  | nil => simp [Memory.insert]
  | cons x rest ih =>
    by_cases hlt : a < x.1
    · simp [Memory.insert, hlt]
    · simp only [Memory.insert, hlt, if_false, List.mem_cons, ih]
      tauto

omit [DecidableEq α] in
theorem Memory.rising_insert {mem : Memory α} {a : Nat} (v : α) (h : Memory.rising mem)
    (ha : ∀ e ∈ mem, e.1 ≠ a) : Memory.rising (Memory.insert mem a v) := by
  induction mem with
  | nil => rfl
  | cons x rest ih =>
    obtain ⟨k, w⟩ := x
    simp only [Memory.rising, Bool.and_eq_true, List.all_eq_true, decide_eq_true_eq] at h
    by_cases hlt : a < k
    · simp only [Memory.insert, hlt, if_true, Memory.rising, Bool.and_eq_true, List.all_eq_true,
        decide_eq_true_eq, List.mem_cons, forall_eq_or_imp, true_and]
      exact ⟨fun e he => Nat.lt_trans hlt (h.1 e he), h⟩
    · have hk : k < a := by have := ha (k, w) (by simp); simp at this; omega
      simp only [Memory.insert, hlt, if_false, Memory.rising, Bool.and_eq_true, List.all_eq_true,
        decide_eq_true_eq, Memory.mem_insert, forall_eq_or_imp]
      exact ⟨⟨hk, h.1⟩, ih h.2 fun e he => ha e (by simp [he])⟩

/-- What the canonical form says. -/
theorem Memory.wf_iff (mem : Memory α) :
    Memory.wf d mem = true ↔ Memory.rising mem = true ∧ ∀ e ∈ mem, e.2 ≠ d e.1 := by
  simp [Memory.wf]

@[simp] theorem Memory.wf_nil : Memory.wf d ([] : Memory α) = true := rfl

theorem Memory.wf_filter {mem : Memory α} (p : Nat × α → Bool) (h : Memory.wf d mem = true) :
    Memory.wf d (mem.filter p) = true := by
  rw [Memory.wf_iff] at h ⊢
  exact ⟨Memory.rising_filter p h.1, fun e he => h.2 e (List.mem_filter.mp he).1⟩

/-- A write keeps the canonical form. -/
theorem Memory.wf_write {mem : Memory α} (a : Nat) (v : α) (h : Memory.wf d mem = true) :
    Memory.wf d (Memory.write d mem a v) = true := by
  have he : Memory.wf d (Memory.erase mem a) = true := Memory.wf_filter d _ h
  unfold Memory.write
  split
  · exact he
  · next hv =>
    rw [Memory.wf_iff] at he ⊢
    refine ⟨Memory.rising_insert v he.1 (by simp [Memory.erase]), fun e hmem => ?_⟩
    rcases Memory.mem_insert.mp hmem with rfl | hmem
    · exact hv
    · exact he.2 e hmem

/-- An entry of a written store is the one written or an old one. -/
theorem Memory.mem_write {mem : Memory α} {a : Nat} {v : α} {e : Nat × α}
    (h : e ∈ Memory.write d mem a v) : e = (a, v) ∨ e ∈ mem := by
  unfold Memory.write at h
  split at h
  · exact .inr (List.mem_filter.mp h).1
  · rcases Memory.mem_insert.mp h with rfl | h
    · exact .inl rfl
    · exact .inr (List.mem_filter.mp h).1

end Sys2Proof.Machine
end

