-- ==== Sys2Proof/Laws/State.lean ====
section
/-! SUPPORT. One lemma per field per update of the state, so that no later proof unfolds a record
update. -/

namespace Sys2Proof.Machine

variable (m : State)

/-! ## `writeReg` -/

@[simp] theorem State.writeReg_config (r : Reg) (v : Word) :
    (m.writeReg r v).config = m.config := rfl
@[simp] theorem State.writeReg_regs (r : Reg) (v : Word) :
    (m.writeReg r v).regs = m.regs.set r v := rfl
@[simp] theorem State.writeReg_imem (r : Reg) (v : Word) :
    (m.writeReg r v).imem = m.imem := rfl
@[simp] theorem State.writeReg_dmem (r : Reg) (v : Word) :
    (m.writeReg r v).dmem = m.dmem := rfl
@[simp] theorem State.writeReg_bp (r : Reg) (v : Word) :
    (m.writeReg r v).bp = m.bp := rfl
@[simp] theorem State.writeReg_icount (r : Reg) (v : Word) :
    (m.writeReg r v).icount = m.icount := rfl
@[simp] theorem State.writeReg_inputLines (r : Reg) (v : Word) :
    (m.writeReg r v).inputLines = m.inputLines := rfl
@[simp] theorem State.writeReg_inputTaken (r : Reg) (v : Word) :
    (m.writeReg r v).inputTaken = m.inputTaken := rfl
@[simp] theorem State.writeReg_inputEnded (r : Reg) (v : Word) :
    (m.writeReg r v).inputEnded = m.inputEnded := rfl
@[simp] theorem State.writeReg_output (r : Reg) (v : Word) :
    (m.writeReg r v).output = m.output := rfl
@[simp] theorem State.writeReg_waiting (r : Reg) (v : Word) :
    (m.writeReg r v).waiting = m.waiting := rfl
@[simp] theorem State.writeReg_pendingRun (r : Reg) (v : Word) :
    (m.writeReg r v).pendingRun = m.pendingRun := rfl
@[simp] theorem State.writeReg_result (r : Reg) (v : Word) :
    (m.writeReg r v).result = m.result := rfl
@[simp] theorem State.writeReg_loadResult (r : Reg) (v : Word) :
    (m.writeReg r v).loadResult = m.loadResult := rfl

/-! ## `writePc` -/

@[simp] theorem State.writePc_config (v : Word) :
    (m.writePc v).config = m.config := rfl
@[simp] theorem State.writePc_regs (v : Word) :
    (m.writePc v).regs = m.regs.set m.config.pcIndex v := rfl
@[simp] theorem State.writePc_imem (v : Word) :
    (m.writePc v).imem = m.imem := rfl
@[simp] theorem State.writePc_dmem (v : Word) :
    (m.writePc v).dmem = m.dmem := rfl
@[simp] theorem State.writePc_bp (v : Word) :
    (m.writePc v).bp = m.bp := rfl
@[simp] theorem State.writePc_icount (v : Word) :
    (m.writePc v).icount = m.icount := rfl
@[simp] theorem State.writePc_inputLines (v : Word) :
    (m.writePc v).inputLines = m.inputLines := rfl
@[simp] theorem State.writePc_inputTaken (v : Word) :
    (m.writePc v).inputTaken = m.inputTaken := rfl
@[simp] theorem State.writePc_inputEnded (v : Word) :
    (m.writePc v).inputEnded = m.inputEnded := rfl
@[simp] theorem State.writePc_output (v : Word) :
    (m.writePc v).output = m.output := rfl
@[simp] theorem State.writePc_waiting (v : Word) :
    (m.writePc v).waiting = m.waiting := rfl
@[simp] theorem State.writePc_pendingRun (v : Word) :
    (m.writePc v).pendingRun = m.pendingRun := rfl
@[simp] theorem State.writePc_result (v : Word) :
    (m.writePc v).result = m.result := rfl
@[simp] theorem State.writePc_loadResult (v : Word) :
    (m.writePc v).loadResult = m.loadResult := rfl

/-! ## `setInstrSlot` -/

@[simp] theorem State.setInstrSlot_config (a : Nat) (v : InstrSlot) :
    (m.setInstrSlot a v).config = m.config := rfl
@[simp] theorem State.setInstrSlot_regs (a : Nat) (v : InstrSlot) :
    (m.setInstrSlot a v).regs = m.regs := rfl
@[simp] theorem State.setInstrSlot_imem (a : Nat) (v : InstrSlot) :
    (m.setInstrSlot a v).imem = Memory.write resetInstrSlot m.imem a v := rfl
@[simp] theorem State.setInstrSlot_dmem (a : Nat) (v : InstrSlot) :
    (m.setInstrSlot a v).dmem = m.dmem := rfl
@[simp] theorem State.setInstrSlot_bp (a : Nat) (v : InstrSlot) :
    (m.setInstrSlot a v).bp = m.bp := rfl
@[simp] theorem State.setInstrSlot_icount (a : Nat) (v : InstrSlot) :
    (m.setInstrSlot a v).icount = m.icount := rfl
@[simp] theorem State.setInstrSlot_inputLines (a : Nat) (v : InstrSlot) :
    (m.setInstrSlot a v).inputLines = m.inputLines := rfl
@[simp] theorem State.setInstrSlot_inputTaken (a : Nat) (v : InstrSlot) :
    (m.setInstrSlot a v).inputTaken = m.inputTaken := rfl
@[simp] theorem State.setInstrSlot_inputEnded (a : Nat) (v : InstrSlot) :
    (m.setInstrSlot a v).inputEnded = m.inputEnded := rfl
@[simp] theorem State.setInstrSlot_output (a : Nat) (v : InstrSlot) :
    (m.setInstrSlot a v).output = m.output := rfl
@[simp] theorem State.setInstrSlot_waiting (a : Nat) (v : InstrSlot) :
    (m.setInstrSlot a v).waiting = m.waiting := rfl
@[simp] theorem State.setInstrSlot_pendingRun (a : Nat) (v : InstrSlot) :
    (m.setInstrSlot a v).pendingRun = m.pendingRun := rfl
@[simp] theorem State.setInstrSlot_result (a : Nat) (v : InstrSlot) :
    (m.setInstrSlot a v).result = m.result := rfl
@[simp] theorem State.setInstrSlot_loadResult (a : Nat) (v : InstrSlot) :
    (m.setInstrSlot a v).loadResult = m.loadResult := rfl

/-! ## `setDataSlot` -/

@[simp] theorem State.setDataSlot_config (a : Nat) (v : DataSlot) :
    (m.setDataSlot a v).config = m.config := rfl
@[simp] theorem State.setDataSlot_regs (a : Nat) (v : DataSlot) :
    (m.setDataSlot a v).regs = m.regs := rfl
@[simp] theorem State.setDataSlot_imem (a : Nat) (v : DataSlot) :
    (m.setDataSlot a v).imem = m.imem := rfl
@[simp] theorem State.setDataSlot_dmem (a : Nat) (v : DataSlot) :
    (m.setDataSlot a v).dmem = Memory.write (resetDataSlot m.config) m.dmem a v := rfl
@[simp] theorem State.setDataSlot_bp (a : Nat) (v : DataSlot) :
    (m.setDataSlot a v).bp = m.bp := rfl
@[simp] theorem State.setDataSlot_icount (a : Nat) (v : DataSlot) :
    (m.setDataSlot a v).icount = m.icount := rfl
@[simp] theorem State.setDataSlot_inputLines (a : Nat) (v : DataSlot) :
    (m.setDataSlot a v).inputLines = m.inputLines := rfl
@[simp] theorem State.setDataSlot_inputTaken (a : Nat) (v : DataSlot) :
    (m.setDataSlot a v).inputTaken = m.inputTaken := rfl
@[simp] theorem State.setDataSlot_inputEnded (a : Nat) (v : DataSlot) :
    (m.setDataSlot a v).inputEnded = m.inputEnded := rfl
@[simp] theorem State.setDataSlot_output (a : Nat) (v : DataSlot) :
    (m.setDataSlot a v).output = m.output := rfl
@[simp] theorem State.setDataSlot_waiting (a : Nat) (v : DataSlot) :
    (m.setDataSlot a v).waiting = m.waiting := rfl
@[simp] theorem State.setDataSlot_pendingRun (a : Nat) (v : DataSlot) :
    (m.setDataSlot a v).pendingRun = m.pendingRun := rfl
@[simp] theorem State.setDataSlot_result (a : Nat) (v : DataSlot) :
    (m.setDataSlot a v).result = m.result := rfl
@[simp] theorem State.setDataSlot_loadResult (a : Nat) (v : DataSlot) :
    (m.setDataSlot a v).loadResult = m.loadResult := rfl

/-! ## `finish` -/

@[simp] theorem State.finish_config (r : StepResult) :
    (m.finish r).config = m.config := rfl
@[simp] theorem State.finish_regs (r : StepResult) :
    (m.finish r).regs = m.regs := rfl
@[simp] theorem State.finish_imem (r : StepResult) :
    (m.finish r).imem = m.imem := rfl
@[simp] theorem State.finish_dmem (r : StepResult) :
    (m.finish r).dmem = m.dmem := rfl
@[simp] theorem State.finish_bp (r : StepResult) :
    (m.finish r).bp = m.bp := rfl
@[simp] theorem State.finish_icount (r : StepResult) :
    (m.finish r).icount = m.icount := rfl
@[simp] theorem State.finish_inputLines (r : StepResult) :
    (m.finish r).inputLines = m.inputLines := rfl
@[simp] theorem State.finish_inputTaken (r : StepResult) :
    (m.finish r).inputTaken = m.inputTaken := rfl
@[simp] theorem State.finish_inputEnded (r : StepResult) :
    (m.finish r).inputEnded = m.inputEnded := rfl
@[simp] theorem State.finish_output (r : StepResult) :
    (m.finish r).output = m.output := rfl
@[simp] theorem State.finish_waiting (r : StepResult) :
    (m.finish r).waiting = none := rfl
@[simp] theorem State.finish_pendingRun (r : StepResult) :
    (m.finish r).pendingRun = m.pendingRun := rfl
@[simp] theorem State.finish_result (r : StepResult) :
    (m.finish r).result = some r := rfl
@[simp] theorem State.finish_loadResult (r : StepResult) :
    (m.finish r).loadResult = m.loadResult := rfl

/-! ## `emit` -/

@[simp] theorem State.emit_config (bs : List Byte) :
    (m.emit bs).config = m.config := rfl
@[simp] theorem State.emit_regs (bs : List Byte) :
    (m.emit bs).regs = m.regs := rfl
@[simp] theorem State.emit_imem (bs : List Byte) :
    (m.emit bs).imem = m.imem := rfl
@[simp] theorem State.emit_dmem (bs : List Byte) :
    (m.emit bs).dmem = m.dmem := rfl
@[simp] theorem State.emit_bp (bs : List Byte) :
    (m.emit bs).bp = m.bp := rfl
@[simp] theorem State.emit_icount (bs : List Byte) :
    (m.emit bs).icount = m.icount := rfl
@[simp] theorem State.emit_inputLines (bs : List Byte) :
    (m.emit bs).inputLines = m.inputLines := rfl
@[simp] theorem State.emit_inputTaken (bs : List Byte) :
    (m.emit bs).inputTaken = m.inputTaken := rfl
@[simp] theorem State.emit_inputEnded (bs : List Byte) :
    (m.emit bs).inputEnded = m.inputEnded := rfl
@[simp] theorem State.emit_output (bs : List Byte) :
    (m.emit bs).output = m.output ++ bs := rfl
@[simp] theorem State.emit_waiting (bs : List Byte) :
    (m.emit bs).waiting = m.waiting := rfl
@[simp] theorem State.emit_pendingRun (bs : List Byte) :
    (m.emit bs).pendingRun = m.pendingRun := rfl
@[simp] theorem State.emit_result (bs : List Byte) :
    (m.emit bs).result = m.result := rfl
@[simp] theorem State.emit_loadResult (bs : List Byte) :
    (m.emit bs).loadResult = m.loadResult := rfl

/-! ## `takeLine` -/

@[simp] theorem State.takeLine_config (line : List Byte) (rest : List (List Byte)) :
    (m.takeLine line rest).config = m.config := rfl
@[simp] theorem State.takeLine_regs (line : List Byte) (rest : List (List Byte)) :
    (m.takeLine line rest).regs = m.regs := rfl
@[simp] theorem State.takeLine_imem (line : List Byte) (rest : List (List Byte)) :
    (m.takeLine line rest).imem = m.imem := rfl
@[simp] theorem State.takeLine_dmem (line : List Byte) (rest : List (List Byte)) :
    (m.takeLine line rest).dmem = m.dmem := rfl
@[simp] theorem State.takeLine_bp (line : List Byte) (rest : List (List Byte)) :
    (m.takeLine line rest).bp = m.bp := rfl
@[simp] theorem State.takeLine_icount (line : List Byte) (rest : List (List Byte)) :
    (m.takeLine line rest).icount = m.icount := rfl
@[simp] theorem State.takeLine_inputLines (line : List Byte) (rest : List (List Byte)) :
    (m.takeLine line rest).inputLines = rest := rfl
@[simp] theorem State.takeLine_inputTaken (line : List Byte) (rest : List (List Byte)) :
    (m.takeLine line rest).inputTaken = m.inputTaken ++ [line] := rfl
@[simp] theorem State.takeLine_inputEnded (line : List Byte) (rest : List (List Byte)) :
    (m.takeLine line rest).inputEnded = m.inputEnded := rfl
@[simp] theorem State.takeLine_output (line : List Byte) (rest : List (List Byte)) :
    (m.takeLine line rest).output = m.output := rfl
@[simp] theorem State.takeLine_waiting (line : List Byte) (rest : List (List Byte)) :
    (m.takeLine line rest).waiting = m.waiting := rfl
@[simp] theorem State.takeLine_pendingRun (line : List Byte) (rest : List (List Byte)) :
    (m.takeLine line rest).pendingRun = m.pendingRun := rfl
@[simp] theorem State.takeLine_result (line : List Byte) (rest : List (List Byte)) :
    (m.takeLine line rest).result = m.result := rfl
@[simp] theorem State.takeLine_loadResult (line : List Byte) (rest : List (List Byte)) :
    (m.takeLine line rest).loadResult = m.loadResult := rfl

/-! ## `block` -/

@[simp] theorem State.block_config (q : InputRequest) :
    (m.block q).config = m.config := rfl
@[simp] theorem State.block_regs (q : InputRequest) :
    (m.block q).regs = m.regs := rfl
@[simp] theorem State.block_imem (q : InputRequest) :
    (m.block q).imem = m.imem := rfl
@[simp] theorem State.block_dmem (q : InputRequest) :
    (m.block q).dmem = m.dmem := rfl
@[simp] theorem State.block_bp (q : InputRequest) :
    (m.block q).bp = m.bp := rfl
@[simp] theorem State.block_icount (q : InputRequest) :
    (m.block q).icount = m.icount := rfl
@[simp] theorem State.block_inputLines (q : InputRequest) :
    (m.block q).inputLines = m.inputLines := rfl
@[simp] theorem State.block_inputTaken (q : InputRequest) :
    (m.block q).inputTaken = m.inputTaken := rfl
@[simp] theorem State.block_inputEnded (q : InputRequest) :
    (m.block q).inputEnded = m.inputEnded := rfl
@[simp] theorem State.block_output (q : InputRequest) :
    (m.block q).output = m.output := rfl
@[simp] theorem State.block_waiting (q : InputRequest) :
    (m.block q).waiting = some q := rfl
@[simp] theorem State.block_pendingRun (q : InputRequest) :
    (m.block q).pendingRun = m.pendingRun := rfl
@[simp] theorem State.block_result (q : InputRequest) :
    (m.block q).result = none := rfl
@[simp] theorem State.block_loadResult (q : InputRequest) :
    (m.block q).loadResult = m.loadResult := rfl

/-! ## `supplyLine` -/

@[simp] theorem State.supplyLine_config (line : List Byte) :
    (m.supplyLine line).config = m.config := rfl
@[simp] theorem State.supplyLine_regs (line : List Byte) :
    (m.supplyLine line).regs = m.regs := rfl
@[simp] theorem State.supplyLine_imem (line : List Byte) :
    (m.supplyLine line).imem = m.imem := rfl
@[simp] theorem State.supplyLine_dmem (line : List Byte) :
    (m.supplyLine line).dmem = m.dmem := rfl
@[simp] theorem State.supplyLine_bp (line : List Byte) :
    (m.supplyLine line).bp = m.bp := rfl
@[simp] theorem State.supplyLine_icount (line : List Byte) :
    (m.supplyLine line).icount = m.icount := rfl
@[simp] theorem State.supplyLine_inputLines (line : List Byte) :
    (m.supplyLine line).inputLines = m.inputLines ++ [line] := rfl
@[simp] theorem State.supplyLine_inputTaken (line : List Byte) :
    (m.supplyLine line).inputTaken = m.inputTaken := rfl
@[simp] theorem State.supplyLine_inputEnded (line : List Byte) :
    (m.supplyLine line).inputEnded = m.inputEnded := rfl
@[simp] theorem State.supplyLine_output (line : List Byte) :
    (m.supplyLine line).output = m.output := rfl
@[simp] theorem State.supplyLine_waiting (line : List Byte) :
    (m.supplyLine line).waiting = m.waiting := rfl
@[simp] theorem State.supplyLine_pendingRun (line : List Byte) :
    (m.supplyLine line).pendingRun = m.pendingRun := rfl
@[simp] theorem State.supplyLine_result (line : List Byte) :
    (m.supplyLine line).result = m.result := rfl
@[simp] theorem State.supplyLine_loadResult (line : List Byte) :
    (m.supplyLine line).loadResult = m.loadResult := rfl

/-! ## `endInput` -/

@[simp] theorem State.endInput_config :
    (m.endInput).config = m.config := rfl
@[simp] theorem State.endInput_regs :
    (m.endInput).regs = m.regs := rfl
@[simp] theorem State.endInput_imem :
    (m.endInput).imem = m.imem := rfl
@[simp] theorem State.endInput_dmem :
    (m.endInput).dmem = m.dmem := rfl
@[simp] theorem State.endInput_bp :
    (m.endInput).bp = m.bp := rfl
@[simp] theorem State.endInput_icount :
    (m.endInput).icount = m.icount := rfl
@[simp] theorem State.endInput_inputLines :
    (m.endInput).inputLines = m.inputLines := rfl
@[simp] theorem State.endInput_inputTaken :
    (m.endInput).inputTaken = m.inputTaken := rfl
@[simp] theorem State.endInput_inputEnded :
    (m.endInput).inputEnded = true := rfl
@[simp] theorem State.endInput_output :
    (m.endInput).output = m.output := rfl
@[simp] theorem State.endInput_waiting :
    (m.endInput).waiting = m.waiting := rfl
@[simp] theorem State.endInput_pendingRun :
    (m.endInput).pendingRun = m.pendingRun := rfl
@[simp] theorem State.endInput_result :
    (m.endInput).result = m.result := rfl
@[simp] theorem State.endInput_loadResult :
    (m.endInput).loadResult = m.loadResult := rfl

/-! ## `clearRun` -/

@[simp] theorem State.clearRun_config :
    (m.clearRun).config = m.config := rfl
@[simp] theorem State.clearRun_regs :
    (m.clearRun).regs = m.regs := rfl
@[simp] theorem State.clearRun_imem :
    (m.clearRun).imem = m.imem := rfl
@[simp] theorem State.clearRun_dmem :
    (m.clearRun).dmem = m.dmem := rfl
@[simp] theorem State.clearRun_bp :
    (m.clearRun).bp = m.bp := rfl
@[simp] theorem State.clearRun_icount :
    (m.clearRun).icount = m.icount := rfl
@[simp] theorem State.clearRun_inputLines :
    (m.clearRun).inputLines = m.inputLines := rfl
@[simp] theorem State.clearRun_inputTaken :
    (m.clearRun).inputTaken = m.inputTaken := rfl
@[simp] theorem State.clearRun_inputEnded :
    (m.clearRun).inputEnded = m.inputEnded := rfl
@[simp] theorem State.clearRun_output :
    (m.clearRun).output = m.output := rfl
@[simp] theorem State.clearRun_waiting :
    (m.clearRun).waiting = m.waiting := rfl
@[simp] theorem State.clearRun_pendingRun :
    (m.clearRun).pendingRun = none := rfl
@[simp] theorem State.clearRun_result :
    (m.clearRun).result = m.result := rfl
@[simp] theorem State.clearRun_loadResult :
    (m.clearRun).loadResult = m.loadResult := rfl

/-! ## `disarm` -/

@[simp] theorem State.disarm_config :
    (m.disarm).config = m.config := rfl
@[simp] theorem State.disarm_regs :
    (m.disarm).regs = m.regs := rfl
@[simp] theorem State.disarm_imem :
    (m.disarm).imem = m.imem := rfl
@[simp] theorem State.disarm_dmem :
    (m.disarm).dmem = m.dmem := rfl
@[simp] theorem State.disarm_bp :
    (m.disarm).bp = .pending m.pc := rfl
@[simp] theorem State.disarm_icount :
    (m.disarm).icount = m.icount := rfl
@[simp] theorem State.disarm_inputLines :
    (m.disarm).inputLines = m.inputLines := rfl
@[simp] theorem State.disarm_inputTaken :
    (m.disarm).inputTaken = m.inputTaken := rfl
@[simp] theorem State.disarm_inputEnded :
    (m.disarm).inputEnded = m.inputEnded := rfl
@[simp] theorem State.disarm_output :
    (m.disarm).output = m.output := rfl
@[simp] theorem State.disarm_waiting :
    (m.disarm).waiting = m.waiting := rfl
@[simp] theorem State.disarm_pendingRun :
    (m.disarm).pendingRun = m.pendingRun := rfl
@[simp] theorem State.disarm_result :
    (m.disarm).result = m.result := rfl
@[simp] theorem State.disarm_loadResult :
    (m.disarm).loadResult = m.loadResult := rfl

/-! ## `advance` -/

@[simp] theorem State.advance_config :
    (m.advance).config = m.config := rfl
@[simp] theorem State.advance_regs :
    (m.advance).regs = m.regs.set m.config.pcIndex (m.pc + 1) := rfl
@[simp] theorem State.advance_imem :
    (m.advance).imem = m.imem := rfl
@[simp] theorem State.advance_dmem :
    (m.advance).dmem = m.dmem := rfl
@[simp] theorem State.advance_bp :
    (m.advance).bp = m.bp := rfl
@[simp] theorem State.advance_icount :
    (m.advance).icount = m.icount + 1 := rfl
@[simp] theorem State.advance_inputLines :
    (m.advance).inputLines = m.inputLines := rfl
@[simp] theorem State.advance_inputTaken :
    (m.advance).inputTaken = m.inputTaken := rfl
@[simp] theorem State.advance_inputEnded :
    (m.advance).inputEnded = m.inputEnded := rfl
@[simp] theorem State.advance_output :
    (m.advance).output = m.output := rfl
@[simp] theorem State.advance_waiting :
    (m.advance).waiting = m.waiting := rfl
@[simp] theorem State.advance_pendingRun :
    (m.advance).pendingRun = m.pendingRun := rfl
@[simp] theorem State.advance_result :
    (m.advance).result = m.result := rfl
@[simp] theorem State.advance_loadResult :
    (m.advance).loadResult = m.loadResult := rfl

/-! ## `armBreakpoint` -/

@[simp] theorem State.armBreakpoint_config (a : Word) :
    (m.armBreakpoint a).config = m.config := rfl
@[simp] theorem State.armBreakpoint_regs (a : Word) :
    (m.armBreakpoint a).regs = m.regs := rfl
@[simp] theorem State.armBreakpoint_imem (a : Word) :
    (m.armBreakpoint a).imem = m.imem := rfl
@[simp] theorem State.armBreakpoint_dmem (a : Word) :
    (m.armBreakpoint a).dmem = m.dmem := rfl
@[simp] theorem State.armBreakpoint_bp (a : Word) :
    (m.armBreakpoint a).bp = .armed a := rfl
@[simp] theorem State.armBreakpoint_icount (a : Word) :
    (m.armBreakpoint a).icount = m.icount := rfl
@[simp] theorem State.armBreakpoint_inputLines (a : Word) :
    (m.armBreakpoint a).inputLines = m.inputLines := rfl
@[simp] theorem State.armBreakpoint_inputTaken (a : Word) :
    (m.armBreakpoint a).inputTaken = m.inputTaken := rfl
@[simp] theorem State.armBreakpoint_inputEnded (a : Word) :
    (m.armBreakpoint a).inputEnded = m.inputEnded := rfl
@[simp] theorem State.armBreakpoint_output (a : Word) :
    (m.armBreakpoint a).output = m.output := rfl
@[simp] theorem State.armBreakpoint_waiting (a : Word) :
    (m.armBreakpoint a).waiting = m.waiting := rfl
@[simp] theorem State.armBreakpoint_pendingRun (a : Word) :
    (m.armBreakpoint a).pendingRun = m.pendingRun := rfl
@[simp] theorem State.armBreakpoint_result (a : Word) :
    (m.armBreakpoint a).result = m.result := rfl
@[simp] theorem State.armBreakpoint_loadResult (a : Word) :
    (m.armBreakpoint a).loadResult = m.loadResult := rfl

/-! ## `clearBreakpoint` -/

@[simp] theorem State.clearBreakpoint_config :
    (m.clearBreakpoint).config = m.config := rfl
@[simp] theorem State.clearBreakpoint_regs :
    (m.clearBreakpoint).regs = m.regs := rfl
@[simp] theorem State.clearBreakpoint_imem :
    (m.clearBreakpoint).imem = m.imem := rfl
@[simp] theorem State.clearBreakpoint_dmem :
    (m.clearBreakpoint).dmem = m.dmem := rfl
@[simp] theorem State.clearBreakpoint_bp :
    (m.clearBreakpoint).bp = .none := rfl
@[simp] theorem State.clearBreakpoint_icount :
    (m.clearBreakpoint).icount = m.icount := rfl
@[simp] theorem State.clearBreakpoint_inputLines :
    (m.clearBreakpoint).inputLines = m.inputLines := rfl
@[simp] theorem State.clearBreakpoint_inputTaken :
    (m.clearBreakpoint).inputTaken = m.inputTaken := rfl
@[simp] theorem State.clearBreakpoint_inputEnded :
    (m.clearBreakpoint).inputEnded = m.inputEnded := rfl
@[simp] theorem State.clearBreakpoint_output :
    (m.clearBreakpoint).output = m.output := rfl
@[simp] theorem State.clearBreakpoint_waiting :
    (m.clearBreakpoint).waiting = m.waiting := rfl
@[simp] theorem State.clearBreakpoint_pendingRun :
    (m.clearBreakpoint).pendingRun = m.pendingRun := rfl
@[simp] theorem State.clearBreakpoint_result :
    (m.clearBreakpoint).result = m.result := rfl
@[simp] theorem State.clearBreakpoint_loadResult :
    (m.clearBreakpoint).loadResult = m.loadResult := rfl

/-! ## `loaded` -/

@[simp] theorem State.loaded_config (r : LoadResult) :
    (m.loaded r).config = m.config := rfl
@[simp] theorem State.loaded_regs (r : LoadResult) :
    (m.loaded r).regs = m.regs := rfl
@[simp] theorem State.loaded_imem (r : LoadResult) :
    (m.loaded r).imem = m.imem := rfl
@[simp] theorem State.loaded_dmem (r : LoadResult) :
    (m.loaded r).dmem = m.dmem := rfl
@[simp] theorem State.loaded_bp (r : LoadResult) :
    (m.loaded r).bp = m.bp := rfl
@[simp] theorem State.loaded_icount (r : LoadResult) :
    (m.loaded r).icount = m.icount := rfl
@[simp] theorem State.loaded_inputLines (r : LoadResult) :
    (m.loaded r).inputLines = m.inputLines := rfl
@[simp] theorem State.loaded_inputTaken (r : LoadResult) :
    (m.loaded r).inputTaken = m.inputTaken := rfl
@[simp] theorem State.loaded_inputEnded (r : LoadResult) :
    (m.loaded r).inputEnded = m.inputEnded := rfl
@[simp] theorem State.loaded_output (r : LoadResult) :
    (m.loaded r).output = m.output := rfl
@[simp] theorem State.loaded_waiting (r : LoadResult) :
    (m.loaded r).waiting = m.waiting := rfl
@[simp] theorem State.loaded_pendingRun (r : LoadResult) :
    (m.loaded r).pendingRun = m.pendingRun := rfl
@[simp] theorem State.loaded_result (r : LoadResult) :
    (m.loaded r).result = m.result := rfl
@[simp] theorem State.loaded_loadResult (r : LoadResult) :
    (m.loaded r).loadResult = some r := rfl

/-! ## `softReset` -/

@[simp] theorem State.softReset_config :
    (m.softReset).config = m.config := rfl
@[simp] theorem State.softReset_regs :
    (m.softReset).regs = Vector.replicate 8 0 := rfl
@[simp] theorem State.softReset_imem :
    (m.softReset).imem = m.imem := rfl
@[simp] theorem State.softReset_dmem :
    (m.softReset).dmem = keepStatic m.dmem := rfl
@[simp] theorem State.softReset_bp :
    (m.softReset).bp = m.bp := rfl
@[simp] theorem State.softReset_icount :
    (m.softReset).icount = 0 := rfl
@[simp] theorem State.softReset_inputLines :
    (m.softReset).inputLines = m.inputLines := rfl
@[simp] theorem State.softReset_inputTaken :
    (m.softReset).inputTaken = m.inputTaken := rfl
@[simp] theorem State.softReset_inputEnded :
    (m.softReset).inputEnded = m.inputEnded := rfl
@[simp] theorem State.softReset_output :
    (m.softReset).output = m.output := rfl
@[simp] theorem State.softReset_waiting :
    (m.softReset).waiting = m.waiting := rfl
@[simp] theorem State.softReset_pendingRun :
    (m.softReset).pendingRun = m.pendingRun := rfl
@[simp] theorem State.softReset_result :
    (m.softReset).result = m.result := rfl
@[simp] theorem State.softReset_loadResult :
    (m.softReset).loadResult = m.loadResult := rfl

/-! ## `fullReset` -/

@[simp] theorem State.fullReset_config :
    (m.fullReset).config = m.config := rfl
@[simp] theorem State.fullReset_regs :
    (m.fullReset).regs = Vector.replicate 8 0 := rfl
@[simp] theorem State.fullReset_imem :
    (m.fullReset).imem = [] := rfl
@[simp] theorem State.fullReset_dmem :
    (m.fullReset).dmem = [] := rfl
@[simp] theorem State.fullReset_bp :
    (m.fullReset).bp = .none := rfl
@[simp] theorem State.fullReset_icount :
    (m.fullReset).icount = 0 := rfl
@[simp] theorem State.fullReset_inputLines :
    (m.fullReset).inputLines = m.inputLines := rfl
@[simp] theorem State.fullReset_inputTaken :
    (m.fullReset).inputTaken = m.inputTaken := rfl
@[simp] theorem State.fullReset_inputEnded :
    (m.fullReset).inputEnded = m.inputEnded := rfl
@[simp] theorem State.fullReset_output :
    (m.fullReset).output = m.output := rfl
@[simp] theorem State.fullReset_waiting :
    (m.fullReset).waiting = none := rfl
@[simp] theorem State.fullReset_pendingRun :
    (m.fullReset).pendingRun = none := rfl
@[simp] theorem State.fullReset_result :
    (m.fullReset).result = none := rfl
@[simp] theorem State.fullReset_loadResult :
    (m.fullReset).loadResult = none := rfl

/-! ## `rearm` -/

@[simp] theorem State.rearm_config :
    (m.rearm).config = m.config := by
  unfold State.rearm; split <;> (try split) <;> rfl
@[simp] theorem State.rearm_regs :
    (m.rearm).regs = m.regs := by
  unfold State.rearm; split <;> (try split) <;> rfl
@[simp] theorem State.rearm_imem :
    (m.rearm).imem = m.imem := by
  unfold State.rearm; split <;> (try split) <;> rfl
@[simp] theorem State.rearm_dmem :
    (m.rearm).dmem = m.dmem := by
  unfold State.rearm; split <;> (try split) <;> rfl
@[simp] theorem State.rearm_icount :
    (m.rearm).icount = m.icount := by
  unfold State.rearm; split <;> (try split) <;> rfl
@[simp] theorem State.rearm_inputLines :
    (m.rearm).inputLines = m.inputLines := by
  unfold State.rearm; split <;> (try split) <;> rfl
@[simp] theorem State.rearm_inputTaken :
    (m.rearm).inputTaken = m.inputTaken := by
  unfold State.rearm; split <;> (try split) <;> rfl
@[simp] theorem State.rearm_inputEnded :
    (m.rearm).inputEnded = m.inputEnded := by
  unfold State.rearm; split <;> (try split) <;> rfl
@[simp] theorem State.rearm_output :
    (m.rearm).output = m.output := by
  unfold State.rearm; split <;> (try split) <;> rfl
@[simp] theorem State.rearm_waiting :
    (m.rearm).waiting = m.waiting := by
  unfold State.rearm; split <;> (try split) <;> rfl
@[simp] theorem State.rearm_pendingRun :
    (m.rearm).pendingRun = m.pendingRun := by
  unfold State.rearm; split <;> (try split) <;> rfl
@[simp] theorem State.rearm_result :
    (m.rearm).result = m.result := by
  unfold State.rearm; split <;> (try split) <;> rfl
@[simp] theorem State.rearm_loadResult :
    (m.rearm).loadResult = m.loadResult := by
  unfold State.rearm; split <;> (try split) <;> rfl

end Sys2Proof.Machine
end

