-- ==== Sys2Proof/Laws/Accessors.lean ====
section
/-! SUPPORT. What the accessors (registers, program counter, slots) give after each update. -/

namespace Sys2Proof.Machine

variable (m : State)

/-! ## The updated place and the others -/

@[simp] theorem State.readReg_writeReg_same (r : Reg) (v : Word) :
    (m.writeReg r v).readReg r = v := by
  simp [State.readReg]

theorem State.readReg_writeReg_other {r q : Reg} (v : Word) (h : q ≠ r) :
    (m.writeReg r v).readReg q = m.readReg q := by
  have h' : r.val ≠ q.val := fun e => h (Fin.ext e.symm)
  simp [State.readReg, h']

theorem State.readReg_writeReg (r q : Reg) (v : Word) :
    (m.writeReg r v).readReg q = if q = r then v else m.readReg q := by
  split
  · next h => subst h; simp
  · next h => exact State.readReg_writeReg_other m v h

@[simp] theorem State.pc_writePc (v : Word) : (m.writePc v).pc = v :=
  State.readReg_writeReg_same m m.config.pcIndex v

theorem State.readReg_writePc_other {q : Reg} (v : Word) (h : q ≠ m.config.pcIndex) :
    (m.writePc v).readReg q = m.readReg q :=
  State.readReg_writeReg_other m v h

@[simp] theorem State.pc_advance : m.advance.pc = m.pc + 1 :=
  State.readReg_writeReg_same m m.config.pcIndex (m.pc + 1)

theorem State.readReg_advance_other {q : Reg} (h : q ≠ m.config.pcIndex) :
    m.advance.readReg q = m.readReg q :=
  State.readReg_writeReg_other m (m.pc + 1) h

@[simp] theorem State.dataSlot_setDataSlot_same (a : Nat) (v : DataSlot) :
    (m.setDataSlot a v).dataSlot a = v :=
  Memory.read_write_same _ _ _ _

theorem State.dataSlot_setDataSlot_other {a b : Nat} (v : DataSlot) (h : b ≠ a) :
    (m.setDataSlot a v).dataSlot b = m.dataSlot b :=
  Memory.read_write_other _ _ v h

@[simp] theorem State.instrSlot_setInstrSlot_same (a : Nat) (v : InstrSlot) :
    (m.setInstrSlot a v).instrSlot a = v :=
  Memory.read_write_same _ _ _ _

theorem State.instrSlot_setInstrSlot_other {a b : Nat} (v : InstrSlot) (h : b ≠ a) :
    (m.setInstrSlot a v).instrSlot b = m.instrSlot b :=
  Memory.read_write_other _ _ v h

@[simp] theorem State.readReg_softReset (q : Reg) : m.softReset.readReg q = 0 := by
  simp [State.readReg]

@[simp] theorem State.readReg_fullReset (q : Reg) : m.fullReset.readReg q = 0 := by
  simp [State.readReg]

@[simp] theorem State.instrSlot_fullReset (a : Nat) : m.fullReset.instrSlot a = resetInstrSlot a :=
  rfl

@[simp] theorem State.dataSlot_fullReset (a : Nat) :
    m.fullReset.dataSlot a = resetDataSlot m.config a := rfl

/-! ## Updates that leave the accessor alone -/

@[simp] theorem State.readReg_setInstrSlot (a : Nat) (v : InstrSlot) (x : Reg) :
    (m.setInstrSlot a v).readReg x = m.readReg x := rfl
@[simp] theorem State.readReg_setDataSlot (a : Nat) (v : DataSlot) (x : Reg) :
    (m.setDataSlot a v).readReg x = m.readReg x := rfl
@[simp] theorem State.readReg_finish (r : StepResult) (x : Reg) :
    (m.finish r).readReg x = m.readReg x := rfl
@[simp] theorem State.readReg_emit (bs : List Byte) (x : Reg) :
    (m.emit bs).readReg x = m.readReg x := rfl
@[simp] theorem State.readReg_takeLine (line : List Byte) (rest : List (List Byte)) (x : Reg) :
    (m.takeLine line rest).readReg x = m.readReg x := rfl
@[simp] theorem State.readReg_block (q : InputRequest) (x : Reg) :
    (m.block q).readReg x = m.readReg x := rfl
@[simp] theorem State.readReg_supplyLine (line : List Byte) (x : Reg) :
    (m.supplyLine line).readReg x = m.readReg x := rfl
@[simp] theorem State.readReg_endInput (x : Reg) :
    (m.endInput).readReg x = m.readReg x := rfl
@[simp] theorem State.readReg_clearRun (x : Reg) :
    (m.clearRun).readReg x = m.readReg x := rfl
@[simp] theorem State.readReg_disarm (x : Reg) :
    (m.disarm).readReg x = m.readReg x := rfl
@[simp] theorem State.readReg_armBreakpoint (a : Word) (x : Reg) :
    (m.armBreakpoint a).readReg x = m.readReg x := rfl
@[simp] theorem State.readReg_clearBreakpoint (x : Reg) :
    (m.clearBreakpoint).readReg x = m.readReg x := rfl
@[simp] theorem State.readReg_loaded (r : LoadResult) (x : Reg) :
    (m.loaded r).readReg x = m.readReg x := rfl
@[simp] theorem State.readReg_rearm (x : Reg) :
    (m.rearm).readReg x = m.readReg x := by
  unfold State.rearm; split <;> (try split) <;> rfl

@[simp] theorem State.pc_setInstrSlot (a : Nat) (v : InstrSlot) :
    (m.setInstrSlot a v).pc = m.pc := rfl
@[simp] theorem State.pc_setDataSlot (a : Nat) (v : DataSlot) :
    (m.setDataSlot a v).pc = m.pc := rfl
@[simp] theorem State.pc_finish (r : StepResult) :
    (m.finish r).pc = m.pc := rfl
@[simp] theorem State.pc_emit (bs : List Byte) :
    (m.emit bs).pc = m.pc := rfl
@[simp] theorem State.pc_takeLine (line : List Byte) (rest : List (List Byte)) :
    (m.takeLine line rest).pc = m.pc := rfl
@[simp] theorem State.pc_block (q : InputRequest) :
    (m.block q).pc = m.pc := rfl
@[simp] theorem State.pc_supplyLine (line : List Byte) :
    (m.supplyLine line).pc = m.pc := rfl
@[simp] theorem State.pc_endInput :
    (m.endInput).pc = m.pc := rfl
@[simp] theorem State.pc_clearRun :
    (m.clearRun).pc = m.pc := rfl
@[simp] theorem State.pc_disarm :
    (m.disarm).pc = m.pc := rfl
@[simp] theorem State.pc_armBreakpoint (a : Word) :
    (m.armBreakpoint a).pc = m.pc := rfl
@[simp] theorem State.pc_clearBreakpoint :
    (m.clearBreakpoint).pc = m.pc := rfl
@[simp] theorem State.pc_loaded (r : LoadResult) :
    (m.loaded r).pc = m.pc := rfl
@[simp] theorem State.pc_rearm :
    (m.rearm).pc = m.pc := by
  unfold State.rearm; split <;> (try split) <;> rfl

@[simp] theorem State.instrSlot_writeReg (r : Reg) (v : Word) (b : Nat) :
    (m.writeReg r v).instrSlot b = m.instrSlot b := rfl
@[simp] theorem State.instrSlot_writePc (v : Word) (b : Nat) :
    (m.writePc v).instrSlot b = m.instrSlot b := rfl
@[simp] theorem State.instrSlot_setDataSlot (a : Nat) (v : DataSlot) (b : Nat) :
    (m.setDataSlot a v).instrSlot b = m.instrSlot b := rfl
@[simp] theorem State.instrSlot_finish (r : StepResult) (b : Nat) :
    (m.finish r).instrSlot b = m.instrSlot b := rfl
@[simp] theorem State.instrSlot_emit (bs : List Byte) (b : Nat) :
    (m.emit bs).instrSlot b = m.instrSlot b := rfl
@[simp] theorem State.instrSlot_takeLine (line : List Byte) (rest : List (List Byte)) (b : Nat) :
    (m.takeLine line rest).instrSlot b = m.instrSlot b := rfl
@[simp] theorem State.instrSlot_block (q : InputRequest) (b : Nat) :
    (m.block q).instrSlot b = m.instrSlot b := rfl
@[simp] theorem State.instrSlot_supplyLine (line : List Byte) (b : Nat) :
    (m.supplyLine line).instrSlot b = m.instrSlot b := rfl
@[simp] theorem State.instrSlot_endInput (b : Nat) :
    (m.endInput).instrSlot b = m.instrSlot b := rfl
@[simp] theorem State.instrSlot_clearRun (b : Nat) :
    (m.clearRun).instrSlot b = m.instrSlot b := rfl
@[simp] theorem State.instrSlot_disarm (b : Nat) :
    (m.disarm).instrSlot b = m.instrSlot b := rfl
@[simp] theorem State.instrSlot_advance (b : Nat) :
    (m.advance).instrSlot b = m.instrSlot b := rfl
@[simp] theorem State.instrSlot_armBreakpoint (a : Word) (b : Nat) :
    (m.armBreakpoint a).instrSlot b = m.instrSlot b := rfl
@[simp] theorem State.instrSlot_clearBreakpoint (b : Nat) :
    (m.clearBreakpoint).instrSlot b = m.instrSlot b := rfl
@[simp] theorem State.instrSlot_loaded (r : LoadResult) (b : Nat) :
    (m.loaded r).instrSlot b = m.instrSlot b := rfl
@[simp] theorem State.instrSlot_softReset (b : Nat) :
    (m.softReset).instrSlot b = m.instrSlot b := rfl
@[simp] theorem State.instrSlot_rearm (b : Nat) :
    (m.rearm).instrSlot b = m.instrSlot b := by
  unfold State.rearm; split <;> (try split) <;> rfl

@[simp] theorem State.dataSlot_writeReg (r : Reg) (v : Word) (b : Nat) :
    (m.writeReg r v).dataSlot b = m.dataSlot b := rfl
@[simp] theorem State.dataSlot_writePc (v : Word) (b : Nat) :
    (m.writePc v).dataSlot b = m.dataSlot b := rfl
@[simp] theorem State.dataSlot_setInstrSlot (a : Nat) (v : InstrSlot) (b : Nat) :
    (m.setInstrSlot a v).dataSlot b = m.dataSlot b := rfl
@[simp] theorem State.dataSlot_finish (r : StepResult) (b : Nat) :
    (m.finish r).dataSlot b = m.dataSlot b := rfl
@[simp] theorem State.dataSlot_emit (bs : List Byte) (b : Nat) :
    (m.emit bs).dataSlot b = m.dataSlot b := rfl
@[simp] theorem State.dataSlot_takeLine (line : List Byte) (rest : List (List Byte)) (b : Nat) :
    (m.takeLine line rest).dataSlot b = m.dataSlot b := rfl
@[simp] theorem State.dataSlot_block (q : InputRequest) (b : Nat) :
    (m.block q).dataSlot b = m.dataSlot b := rfl
@[simp] theorem State.dataSlot_supplyLine (line : List Byte) (b : Nat) :
    (m.supplyLine line).dataSlot b = m.dataSlot b := rfl
@[simp] theorem State.dataSlot_endInput (b : Nat) :
    (m.endInput).dataSlot b = m.dataSlot b := rfl
@[simp] theorem State.dataSlot_clearRun (b : Nat) :
    (m.clearRun).dataSlot b = m.dataSlot b := rfl
@[simp] theorem State.dataSlot_disarm (b : Nat) :
    (m.disarm).dataSlot b = m.dataSlot b := rfl
@[simp] theorem State.dataSlot_advance (b : Nat) :
    (m.advance).dataSlot b = m.dataSlot b := rfl
@[simp] theorem State.dataSlot_armBreakpoint (a : Word) (b : Nat) :
    (m.armBreakpoint a).dataSlot b = m.dataSlot b := rfl
@[simp] theorem State.dataSlot_clearBreakpoint (b : Nat) :
    (m.clearBreakpoint).dataSlot b = m.dataSlot b := rfl
@[simp] theorem State.dataSlot_loaded (r : LoadResult) (b : Nat) :
    (m.loaded r).dataSlot b = m.dataSlot b := rfl
@[simp] theorem State.dataSlot_rearm (b : Nat) :
    (m.rearm).dataSlot b = m.dataSlot b := by
  unfold State.rearm; split <;> (try split) <;> rfl

end Sys2Proof.Machine
end

