-- ==== Sys2Proof/Laws/PerInstr.lean ====
section
/-! SUPPORT. Laws stated per instruction, one lemma per constructor. The family `EncodedFields` says
that the fields of the canonical word are those of the instruction and pass every check of
30_encoding.md rule R88. -/

namespace Sys2Proof

/-- Cutting a packed word gives back the fields it was packed from. -/
theorem fieldsOf_packFields (op : BitVec 8) (a : Reg) (b : Word) (c : Reg) :
    fieldsOf (packFields op a b c)
      = ⟨op, BitVec.ofNat 8 a.val, BitVec.ofNat 8 c.val, 0, b⟩ := by
  simp only [fieldsOf, packFields, WordFields.mk.injEq]
  refine ⟨?_, ?_, ?_, ?_, ?_⟩ <;> apply BitVec.eq_of_getLsbD_eq <;> intro i hi <;>
    simp only [BitVec.getLsbD_extractLsb', BitVec.getLsbD_append]
  · interval_cases i <;> simp
  · interval_cases i <;> simp
  · interval_cases i <;> simp
  · interval_cases i <;> simp
  · simp [hi]

theorem fieldsOf_encode (i : Instr) :
    fieldsOf (encode i) = ⟨i.opcode.number, BitVec.ofNat 8 i.operand1.val,
      BitVec.ofNat 8 i.operand3.val, 0, i.operand2⟩ :=
  fieldsOf_packFields _ _ _ _

theorem ofNat_reg_lt (r : Reg) : (BitVec.ofNat 8 r.val).toNat < 8 := by
  have := r.isLt; simp; omega

theorem wordOfReg_lt (r : Reg) : (wordOfReg r).toNat < 8 := by
  have := r.isLt; simp [wordOfReg]; omega

theorem opcodeDefined_number (op : Opcode) (a c z : BitVec 8) (b : BitVec 32) :
    (⟨op.number, a, c, z, b⟩ : WordFields).opcodeDefined = true := by
  cases op <;> rfl

/-- The fields of an encoded instruction are well formed when its operand-2 is in range or its
number has bit 4 set. -/
theorem wellFormed_encode {i : Instr}
    (hb : i.opcode.number.getLsbD 4 = true ∨ i.operand2.toNat < 8) :
    (fieldsOf (encode i)).wellFormed = true := by
  rw [fieldsOf_encode]
  simp only [WordFields.wellFormed, WordFields.operand1Ok, WordFields.operand3Ok,
    WordFields.reservedOk, WordFields.operand2Ok, Bool.and_eq_true, Bool.or_eq_true,
    decide_eq_true_eq]
  exact ⟨⟨⟨⟨opcodeDefined_number _ _ _ _ _, ofNat_reg_lt _⟩, ofNat_reg_lt _⟩, trivial⟩, hb⟩

namespace Laws.EncodedFields

/-- The word's fields are the instruction's, and they are well formed. -/
def Statement (i : Instr) : Prop :=
  (fieldsOf (encode i)).op = i.opcode.number ∧ (fieldsOf (encode i)).b = i.operand2 ∧
    (fieldsOf (encode i)).wellFormed = true

/-- Class RR: operand-2 is a register index. -/
theorem of_rr {i : Instr} (s : Reg) (h2 : i.operand2 = wordOfReg s) : Statement i :=
  ⟨by rw [fieldsOf_encode], by rw [fieldsOf_encode],
    wellFormed_encode (.inr (h2 ▸ wordOfReg_lt s))⟩

/-- Classes RM and RA: bit 4 of the number is set. -/
theorem of_rm {i : Instr} (op : Opcode) (ho : i.opcode = op)
    (h4 : op.number.getLsbD 4 = true) : Statement i :=
  ⟨by rw [fieldsOf_encode], by rw [fieldsOf_encode], wellFormed_encode (.inl (ho ▸ h4))⟩

theorem halt (r s t : Reg) : Statement (.halt r s t) := of_rr s rfl
theorem in_ (r s t : Reg) : Statement (.in_ r s t) := of_rr s rfl
theorem inb (r s t : Reg) : Statement (.inb r s t) := of_rr s rfl
theorem out (r s t : Reg) : Statement (.out r s t) := of_rr s rfl
theorem outb (r s t : Reg) : Statement (.outb r s t) := of_rr s rfl
theorem outc (r s t : Reg) : Statement (.outc r s t) := of_rr s rfl
theorem outnl (r s t : Reg) : Statement (.outnl r s t) := of_rr s rfl
theorem add (r s t : Reg) : Statement (.add r s t) := of_rr s rfl
theorem sub (r s t : Reg) : Statement (.sub r s t) := of_rr s rfl
theorem mul (r s t : Reg) : Statement (.mul r s t) := of_rr s rfl
theorem div (r s t : Reg) : Statement (.div r s t) := of_rr s rfl
theorem ld (r : Reg) (d : Word) (s : Reg) : Statement (.ld r d s) := of_rm .ld rfl (by decide)
theorem st (r : Reg) (d : Word) (s : Reg) : Statement (.st r d s) := of_rm .st rfl (by decide)
theorem lda (r : Reg) (d : Word) (s : Reg) : Statement (.lda r d s) := of_rm .lda rfl (by decide)
theorem ldc (r : Reg) (d : Word) (s : Reg) : Statement (.ldc r d s) := of_rm .ldc rfl (by decide)
theorem jlt (r : Reg) (d : Word) (s : Reg) : Statement (.jlt r d s) := of_rm .jlt rfl (by decide)
theorem jle (r : Reg) (d : Word) (s : Reg) : Statement (.jle r d s) := of_rm .jle rfl (by decide)
theorem jgt (r : Reg) (d : Word) (s : Reg) : Statement (.jgt r d s) := of_rm .jgt rfl (by decide)
theorem jge (r : Reg) (d : Word) (s : Reg) : Statement (.jge r d s) := of_rm .jge rfl (by decide)
theorem jeq (r : Reg) (d : Word) (s : Reg) : Statement (.jeq r d s) := of_rm .jeq rfl (by decide)
theorem jne (r : Reg) (d : Word) (s : Reg) : Statement (.jne r d s) := of_rm .jne rfl (by decide)

theorem every (i : Instr) : Statement i := by
  cases i with
  | halt r s t => exact halt r s t
  | in_ r s t => exact in_ r s t
  | inb r s t => exact inb r s t
  | out r s t => exact out r s t
  | outb r s t => exact outb r s t
  | outc r s t => exact outc r s t
  | outnl r s t => exact outnl r s t
  | add r s t => exact add r s t
  | sub r s t => exact sub r s t
  | mul r s t => exact mul r s t
  | div r s t => exact div r s t
  | ld r d s => exact ld r d s
  | st r d s => exact st r d s
  | lda r d s => exact lda r d s
  | ldc r d s => exact ldc r d s
  | jlt r d s => exact jlt r d s
  | jle r d s => exact jle r d s
  | jgt r d s => exact jgt r d s
  | jge r d s => exact jge r d s
  | jeq r d s => exact jeq r d s
  | jne r d s => exact jne r d s

end Laws.EncodedFields

end Sys2Proof
end

