-- ==== Sys2Proof/Laws/Decode.lean ====
section
/-! SUPPORT. The parts of the decoder: number to opcode, byte to register, and when a word decodes. -/

namespace Sys2Proof

theorem Opcode.ofNumber?_number (op : Opcode) : Opcode.ofNumber? op.number = some op := by
  cases op <;> decide

theorem Opcode.number_of_ofNumber? {n : BitVec 8} {op : Opcode} (h : Opcode.ofNumber? n = some op) :
    n = op.number := by
  have := List.find?_some h
  simp at this
  exact this.symm

theorem regOfNat?_val (r : Reg) : regOfNat? (BitVec.ofNat 8 r.val).toNat = some r := by
  revert r; decide

theorem val_of_regOfNat? {n : Nat} {r : Reg} (h : regOfNat? n = some r) : n = r.val := by
  unfold regOfNat? at h
  split at h
  · injection h with h; subst h; rfl
  · cases h

theorem regOfNat?_lt {n : Nat} (h : n < 8) : regOfNat? n = some ⟨n, h⟩ := by
  simp [regOfNat?, h]

theorem regOfNat?_ge {n : Nat} (h : ¬ n < 8) : regOfNat? n = none := by
  simp [regOfNat?, h]

@[simp] theorem regOfWord_wordOfReg (s : Reg) : regOfWord (wordOfReg s) = s := by
  revert s; decide

theorem wordOfReg_regOfWord {b : Word} (h : b.toNat < 8) : wordOfReg (regOfWord b) = b := by
  apply BitVec.eq_of_toNat_eq
  have hm : (regOfWord b).val = b.toNat % 8 := rfl
  rw [wordOfReg, BitVec.toNat_ofNat, hm]
  omega

/-- When a word decodes, and to what: the checks of 30_encoding.md rule R90 one by one. -/
theorem decode_ok_iff (w : InstrWord) (i : Instr) : decode w = .ok i ↔
    ∃ op a c, Opcode.ofNumber? (fieldsOf w).op = some op ∧
      regOfNat? (fieldsOf w).a.toNat = some a ∧ regOfNat? (fieldsOf w).c.toNat = some c ∧
      (fieldsOf w).zero = 0 ∧ operand2InRange op.cls (fieldsOf w).b = true ∧
      i = Instr.ofOperands op a (fieldsOf w).b c := by
  unfold decode
  simp only
  split
  · next h => simp [h]
  · next op h =>
    split
    · next a c ha hc =>
      split
      · next hz =>
        constructor
        · intro h'
          injection h' with h'
          exact ⟨op, a, c, h, ha, hc, hz.1, hz.2, h'.symm⟩
        · rintro ⟨op', a', c', h1, h2, h3, -, -, rfl⟩
          rw [h] at h1; rw [ha] at h2; rw [hc] at h3
          injection h1 with h1; injection h2 with h2; injection h3 with h3
          rw [h1, h2, h3]
      · next hz =>
        simp only [reduceCtorEq, false_iff, not_exists, not_and]
        intro op' a' c' h1 _ _ hz' hb
        rw [h] at h1
        injection h1 with h1
        exact absurd ⟨hz', h1 ▸ hb⟩ hz
    · next hx =>
      simp only [h, reduceCtorEq, Option.some.injEq, false_iff, not_exists, not_and]
      intro op' a c _ ha hc
      exact absurd hc (hx a c ha)

/-- Two words with the same fields are the same word. -/
theorem eq_of_fieldsOf_eq {w v : InstrWord} (h : fieldsOf w = fieldsOf v) : w = v := by
  simp only [fieldsOf, WordFields.mk.injEq] at h
  obtain ⟨h1, h2, h3, h4, h5⟩ := h
  apply BitVec.eq_of_getLsbD_eq
  intro i hi
  have key : ∀ s n : Nat, w.extractLsb' s n = v.extractLsb' s n → s ≤ i → i < s + n →
      w.getLsbD i = v.getLsbD i := by
    intro s n he h1 h2
    have := congrArg (fun x => x.getLsbD (i - s)) he
    simp only [BitVec.getLsbD_extractLsb'] at this
    rw [show s + (i - s) = i by omega] at this
    simpa [show i - s < n by omega] using this
  by_cases c1 : i < 32
  · exact key _ _ h5 (by omega) (by omega)
  by_cases c2 : i < 40
  · exact key _ _ h4 (by omega) (by omega)
  by_cases c3 : i < 48
  · exact key _ _ h3 (by omega) (by omega)
  by_cases c4 : i < 56
  · exact key _ _ h2 (by omega) (by omega)
  · exact key _ _ h1 (by omega) (by omega)

end Sys2Proof
end

