-- ==== Sys2Proof/Laws/Ops.lean ====
section
/-! SUPPORT. For each shared operation, one lemma that says everything it can do. -/

namespace Sys2Proof.Machine

variable (m : State)

/-! ## Ending a step -/

@[simp] theorem raise_eq (r : StepResult) : raise r m = .next (m.finish r) := rfl

theorem State.finish_returned (r : StepResult) : Returned (m.finish r) r := ⟨rfl, rfl⟩

/-! ## Arithmetic, memory access, jumps -/

theorem arith_eq (op : Int → Int → Int) (r s t : Reg) :
    arith op r s t m
      = .next ((m.writeReg r (wrap32 (op (m.readReg s).toInt (m.readReg t).toInt))).finish .ok) :=
  rfl

theorem withDataCheck_in {ea : Word} {effect : State} (h : m.dataInRange ea = true) :
    withDataCheck ea effect m = .next (effect.finish .ok) := by
  simp [withDataCheck, h]

theorem withDataCheck_out {ea : Word} {effect : State} (h : m.dataInRange ea = false) :
    withDataCheck ea effect m = .next (m.finish .dataFault) := by
  simp [withDataCheck, h]

theorem jumpIf_taken {c : Cond} {r : Reg} (d : Word) (s : Reg)
    (h : condHolds c (m.readReg r) = true) :
    jumpIf c r d s m = .next ((m.writePc (m.effectiveAddress d s)).finish .ok) := by
  simp [jumpIf, h]

theorem jumpIf_not_taken {c : Cond} {r : Reg} (d : Word) (s : Reg)
    (h : condHolds c (m.readReg r) = false) :
    jumpIf c r d s m = .next (m.finish .ok) := by
  simp [jumpIf, h]

theorem State.dataInRange_iff (ea : Word) :
    m.dataInRange ea = true ↔ 0 ≤ ea.toInt ∧ ea.toInt < (m.config.dc : Int) := by
  simp [State.dataInRange]

theorem State.instrInRange_iff (a : Word) :
    m.instrInRange a = true ↔ 0 ≤ a.toInt ∧ a.toInt < (m.config.ic : Int) := by
  simp [State.instrInRange]

/-! ## Console input -/

theorem deliver_value (dest : Reg) (w : Word) (haltFlag : Bool) :
    deliver dest (.value w haltFlag) m
      = (m.writeReg dest w).finish (if haltFlag then .halted else .ok) := rfl

theorem deliver_malformed (dest : Reg) : deliver dest .malformed m = m.finish .inputError := rfl

theorem readInput_line {q : InputRequest} {line : List Byte} {rest : List (List Byte)}
    (h : m.inputLines = line :: rest) :
    readInput q m = deliver q.dest (parseLine q.kind line) (m.takeLine line rest) := by
  simp [readInput, h]

theorem readInput_end {q : InputRequest} (h : m.inputLines = []) (he : m.inputEnded = true) :
    readInput q m = m.finish .inputError := by
  simp [readInput, h, he]

theorem readInput_block {q : InputRequest} (h : m.inputLines = []) (he : m.inputEnded = false) :
    readInput q m = m.block q := by
  simp [readInput, h, he]

/-- Everything the input operation can do: a value, a malformed line, end of input, or a wait. -/
theorem readInput_cases (q : InputRequest) :
    (∃ line rest w haltFlag, m.inputLines = line :: rest ∧ parseLine q.kind line = .value w haltFlag ∧
      readInput q m = ((m.takeLine line rest).writeReg q.dest w).finish
        (if haltFlag then .halted else .ok)) ∨
    (∃ line rest, m.inputLines = line :: rest ∧ parseLine q.kind line = .malformed ∧
      readInput q m = (m.takeLine line rest).finish .inputError) ∨
    (m.inputLines = [] ∧ m.inputEnded = true ∧ readInput q m = m.finish .inputError) ∨
    (m.inputLines = [] ∧ m.inputEnded = false ∧ readInput q m = m.block q) := by
  match hl : m.inputLines with
  | line :: rest =>
    cases hv : parseLine q.kind line with
    | value w haltFlag =>
      exact .inl ⟨line, rest, w, haltFlag, rfl, hv, by rw [readInput_line m hl, hv]; rfl⟩
    | malformed => exact .inr (.inl ⟨line, rest, rfl, hv, by rw [readInput_line m hl, hv]; rfl⟩)
  | [] =>
    cases he : m.inputEnded with
    | true => exact .inr (.inr (.inl ⟨rfl, rfl, readInput_end m hl he⟩))
    | false => exact .inr (.inr (.inr ⟨rfl, rfl, readInput_block m hl he⟩))

/-! ## The frame of a step -/

/-- What re-arming does (40_cycle.md rule R162): only a pending breakpoint elsewhere changes. -/
theorem State.rearm_eq :
    m.rearm = m ∨ ∃ a, m.bp = .pending a ∧ a ≠ m.pc ∧ m.rearm = { m with bp := .armed a } := by
  unfold State.rearm
  split
  · next a h =>
    by_cases ha : a = m.pc
    · left; simp [ha]
    · right; exact ⟨a, h, ha, by simp [ha]⟩
  · exact .inl rfl
  · exact .inl rfl

/-- Everything the frame can do (rule R160). -/
theorem beginCycle_cases :
    (m.instrInRange m.pc = false ∧ beginCycle m = .stop (m.finish .instructionFault)) ∨
    (m.instrInRange m.pc = true ∧ m.bp = .armed m.pc ∧
      beginCycle m = .stop (m.disarm.finish .halted)) ∨
    (m.instrInRange m.pc = true ∧ m.bp ≠ .armed m.pc ∧
      beginCycle m = .run m.fetchWord m.rearm.advance) := by
  cases hr : m.instrInRange m.pc with
  | false => exact .inl ⟨rfl, by simp [beginCycle, hr]⟩
  | true =>
    by_cases hb : m.bp = .armed m.pc
    · exact .inr (.inl ⟨rfl, hb, by simp [beginCycle, hr, State.breakpointFires, hb]⟩)
    · exact .inr (.inr ⟨rfl, hb, by simp [beginCycle, hr, State.breakpointFires, hb]⟩)

/-- Everything a step that answers a next state can have done. -/
theorem step_cases {t : State} (h : step m = .next t) :
    (∃ q, m.waiting = some q ∧ t = readInput q m) ∨
    (m.waiting = none ∧ m.instrInRange m.pc = false ∧ t = m.finish .instructionFault) ∨
    (m.waiting = none ∧ m.instrInRange m.pc = true ∧ m.bp = .armed m.pc ∧
      t = m.disarm.finish .halted) ∨
    (∃ i, m.waiting = none ∧ m.instrInRange m.pc = true ∧ m.bp ≠ .armed m.pc ∧
      decode m.fetchWord = .ok i ∧ exec i m.rearm.advance = .next t) := by
  unfold step at h
  cases hw : m.waiting with
  | some q => simp only [hw, Host.Outcome.next.injEq] at h; exact .inl ⟨q, rfl, h.symm⟩
  | none =>
    simp only [hw] at h
    rcases beginCycle_cases m with ⟨hr, hc⟩ | ⟨hr, hb, hc⟩ | ⟨hr, hb, hc⟩
    · simp only [hc, Host.Outcome.next.injEq] at h
      exact .inr (.inl ⟨rfl, hr, h.symm⟩)
    · simp only [hc, Host.Outcome.next.injEq] at h
      exact .inr (.inr (.inl ⟨rfl, hr, hb, h.symm⟩))
    · simp only [hc] at h
      cases hd : decode m.fetchWord with
      | ok i => simp only [hd] at h; exact .inr (.inr (.inr ⟨i, rfl, hr, hb, rfl, h⟩))
      | error e => simp [hd] at h

end Sys2Proof.Machine
end

