-- ==== Sys2Proof/Laws/Exec.lean ====
section
/-! SUPPORT. What the meanings can do, said once: five shapes cover all 21 instructions. -/

namespace Sys2Proof.Machine

/-- The instruction ends with this result without any effect of its own: a halt, a data fault, a
division by zero, or a jump that is not taken. -/
def EndsWith (i : Instr) (r : StepResult) : Prop :=
  match i with
  | .halt _ _ _ => r = .halted
  | .div _ _ _ => r = .divideByZero
  | .ld _ _ _ | .st _ _ _ => r = .dataFault
  | .jlt _ _ _ | .jle _ _ _ | .jgt _ _ _ | .jge _ _ _ | .jeq _ _ _ | .jne _ _ _ => r = .ok
  | _ => False

/-- The output instructions. -/
def IsOutput (i : Instr) : Prop :=
  match i with
  | .out _ _ _ | .outb _ _ _ | .outc _ _ _ | .outnl _ _ _ => True
  | _ => False

/-- The input instructions, with what they ask for. -/
def AsksFor (i : Instr) (q : InputRequest) : Prop :=
  match i with
  | .in_ r _ _ => q = ⟨.integer, r⟩
  | .inb r _ _ => q = ⟨.boolean, r⟩
  | _ => False

/-- The instructions that write a register without asking for input. -/
def Computes (i : Instr) : Prop :=
  match i with
  | .halt _ _ _ | .in_ _ _ _ | .inb _ _ _ | .st _ _ _ => False
  | .out _ _ _ | .outb _ _ _ | .outc _ _ _ | .outnl _ _ _ => False
  | _ => True

theorem jumpIf_cases {c : Cond} {r : Reg} {d : Word} {s : Reg} {m t : State}
    (h : jumpIf c r d s m = .next t) :
    t = m.finish .ok ∨ ∃ v, t = (m.writeReg m.config.pcIndex v).finish .ok := by
  cases hc : condHolds c (m.readReg r) with
  | true => rw [jumpIf_taken m d s hc] at h; injection h with h; exact .inr ⟨_, h.symm⟩
  | false => rw [jumpIf_not_taken m d s hc] at h; injection h with h; exact .inl h.symm

theorem withDataCheck_cases {ea : Word} {effect m t : State}
    (h : withDataCheck ea effect m = .next t) :
    (m.dataInRange ea = true ∧ t = effect.finish .ok) ∨ t = m.finish .dataFault := by
  cases hr : m.dataInRange ea with
  | true => rw [withDataCheck_in m hr] at h; injection h with h; exact .inl ⟨rfl, h.symm⟩
  | false => rw [withDataCheck_out m hr] at h; injection h with h; exact .inr h.symm

/-- Everything a meaning that answers a next state can have done. -/
theorem exec_cases {i : Instr} {m t : State} (h : exec i m = .next t) :
    (∃ r, EndsWith i r ∧ t = m.finish r) ∨
    (∃ q v, Computes i ∧ q ∈ Instr.regsWritten m.config.pcIndex i ∧
      t = (m.writeReg q v).finish .ok) ∨
    (∃ r d s, i = .st r d s ∧ m.dataInRange (m.effectiveAddress d s) = true ∧
      t = (m.memWrite (m.effectiveAddress d s) (m.readReg r)
        (.writer m.fetchAddress.toNat)).finish .ok) ∨
    (∃ bs, IsOutput i ∧ t = (m.emit bs).finish .ok) ∨
    (∃ q, AsksFor i q ∧ q.dest ∈ Instr.regsWritten m.config.pcIndex i ∧ t = readInput q m) := by
  cases i with
  | halt r s t => injection h with h; exact .inl ⟨_, rfl, h.symm⟩
  | in_ r s t => injection h with h; exact .inr (.inr (.inr (.inr ⟨_, rfl, by simp [Instr.regsWritten], h.symm⟩)))
  | inb r s t => injection h with h; exact .inr (.inr (.inr (.inr ⟨_, rfl, by simp [Instr.regsWritten], h.symm⟩)))
  | out r s t => injection h with h; exact .inr (.inr (.inr (.inl ⟨_, trivial, h.symm⟩)))
  | outb r s t => injection h with h; exact .inr (.inr (.inr (.inl ⟨_, trivial, h.symm⟩)))
  | outc r s t => injection h with h; exact .inr (.inr (.inr (.inl ⟨_, trivial, h.symm⟩)))
  | outnl r s t => injection h with h; exact .inr (.inr (.inr (.inl ⟨_, trivial, h.symm⟩)))
  | add r s t => injection h with h; exact .inr (.inl ⟨r, _, trivial, by simp [Instr.regsWritten], h.symm⟩)
  | sub r s t => injection h with h; exact .inr (.inl ⟨r, _, trivial, by simp [Instr.regsWritten], h.symm⟩)
  | mul r s t => injection h with h; exact .inr (.inl ⟨r, _, trivial, by simp [Instr.regsWritten], h.symm⟩)
  | div r s t =>
    simp only [exec, execDiv] at h
    split at h
    · injection h with h; exact .inl ⟨_, rfl, h.symm⟩
    · injection h with h; exact .inr (.inl ⟨r, _, trivial, by simp [Instr.regsWritten], h.symm⟩)
  | ld r d s =>
    rcases withDataCheck_cases h with ⟨-, h⟩ | h
    · exact .inr (.inl ⟨r, _, trivial, by simp [Instr.regsWritten], h⟩)
    · exact .inl ⟨_, rfl, h⟩
  | st r d s =>
    rcases withDataCheck_cases h with ⟨hr, h⟩ | h
    · exact .inr (.inr (.inl ⟨r, d, s, rfl, hr, h⟩))
    · exact .inl ⟨_, rfl, h⟩
  | lda r d s => injection h with h; exact .inr (.inl ⟨r, _, trivial, by simp [Instr.regsWritten], h.symm⟩)
  | ldc r d s => injection h with h; exact .inr (.inl ⟨r, _, trivial, by simp [Instr.regsWritten], h.symm⟩)
  | jlt r d s | jle r d s | jgt r d s | jge r d s | jeq r d s | jne r d s =>
    rcases jumpIf_cases h with h | ⟨v, h⟩
    · exact .inl ⟨_, rfl, h⟩
    · exact .inr (.inl ⟨_, v, trivial, by simp [Instr.regsWritten], h⟩)

end Sys2Proof.Machine
end

