-- ==== Sys2Proof/Laws/Loader.lean ====
section
/-! SUPPORT. What the loader's operations can do. -/

namespace Sys2Proof.Machine

/-- Placing words changes the data store only. -/
theorem placeWords_fields (words : List Word) (tag : DataTag) (next : Nat) (m : State) :
    placeWords next words tag m = { m with dmem := (placeWords next words tag m).dmem } := by
  induction words generalizing next m with
  | nil => rfl
  | cons v vs ih => rw [placeWords, ih]; rfl

/-- Everything a line's effect can do (35_loader.md rules R120 to R122, R128). -/
theorem applyLine_cases {e : LineEffect} {next next' : Nat} {m m' : State}
    (h : applyLine e next m = .ok (m', next')) :
    (e = .nothing ∧ m' = m ∧ next' = next) ∨
    (∃ words tag, e = .data words tag ∧ next + words.length ≤ m.config.dc ∧
      m' = placeWords next words tag m ∧ next' = next + words.length) ∨
    (∃ address i comment, e = .instr address i comment ∧
      m' = m.setInstrSlot address ⟨encode i, .assigned, comment⟩ ∧ next' = next) := by
  cases e with
  | nothing =>
    simp only [applyLine, Except.ok.injEq, Prod.mk.injEq] at h
    exact .inl ⟨rfl, h.1.symm, h.2.symm⟩
  | data words tag =>
    simp only [applyLine] at h
    split at h
    · next hle =>
      simp only [Except.ok.injEq, Prod.mk.injEq] at h
      exact .inr (.inl ⟨words, tag, rfl, hle, h.1.symm, h.2.symm⟩)
    · cases h
  | instr address i comment =>
    simp only [applyLine, Except.ok.injEq, Prod.mk.injEq] at h
    exact .inr (.inr ⟨address, i, comment, rfl, h.1.symm, h.2.symm⟩)

@[simp] theorem loadLines_nil (n next : Nat) (m : State) : loadLines [] n next m = m.loaded .ok := rfl

theorem loadLines_parse_error {line : List Byte} {e : LineError} {m : State}
    (h : parseProgramLine m.config.ic line = .error e) (rest : List (List Byte)) (n next : Nat) :
    loadLines (line :: rest) n next m = m.loaded (.error ⟨some n, e.address, e.kind⟩) := by
  simp [loadLines, h]

theorem loadLines_apply_error {line : List Byte} {e : LineEffect} {k : LoadErrorKind} {m : State}
    {next : Nat} (h : parseProgramLine m.config.ic line = .ok e) (ha : applyLine e next m = .error k)
    (rest : List (List Byte)) (n : Nat) :
    loadLines (line :: rest) n next m = m.loaded (.error ⟨some n, none, k⟩) := by
  simp [loadLines, h, ha]

theorem loadLines_ok {line : List Byte} {e : LineEffect} {m m' : State} {next next' : Nat}
    (h : parseProgramLine m.config.ic line = .ok e) (ha : applyLine e next m = .ok (m', next'))
    (rest : List (List Byte)) (n : Nat) :
    loadLines (line :: rest) n next m = loadLines rest (n + 1) next' m' := by
  simp [loadLines, h, ha]

/-- Loading the lines keeps whatever every line's effect and the record of the result keep: one
induction for every fact about a load. -/
theorem loadLines_induction {P : Nat → State → Prop} {Q : State → Prop}
    (hdone : ∀ next m r, P next m → Q (m.loaded r))
    (hline : ∀ line e next next' m m', P next m → parseProgramLine m.config.ic line = .ok e →
      applyLine e next m = .ok (m', next') → P next' m')
    (lines : List (List Byte)) (n next : Nat) (m : State) (h : P next m) :
    Q (loadLines lines n next m) := by
  induction lines generalizing n next m with
  | nil => exact hdone next m .ok h
  | cons line rest ih =>
    cases hp : parseProgramLine m.config.ic line with
    | error e => rw [loadLines_parse_error hp]; exact hdone next m _ h
    | ok e =>
      cases ha : applyLine e next m with
      | error k => rw [loadLines_apply_error hp ha]; exact hdone next m _ h
      | ok r => rw [loadLines_ok hp ha]; exact ih _ _ _ (hline line e next r.2 m r.1 h hp ha)

end Sys2Proof.Machine
end

