-- ==== Sys2Proof/Laws/Operands.lean ====
section
/-! SUPPORT. Wrapping arithmetic and effective addresses as bit-vector arithmetic, and accesses in
range. -/

namespace Sys2Proof.Machine

theorem wrap32_toInt (n : Int) : (wrap32 n).toInt = n.bmod (2 ^ 32) := by
  simp [wrap32, BitVec.toInt_ofInt]

theorem wrap32_add (a b : Word) : wrap32 (a.toInt + b.toInt) = a + b := by
  apply BitVec.eq_of_toInt_eq
  simp [wrap32, BitVec.toInt_ofInt, BitVec.toInt_add]

@[simp] theorem wrap32_self (a : Word) : wrap32 a.toInt = a := by simp [wrap32]

/-- The effective address as a wrapping sum (40_cycle.md rule R165). -/
theorem State.effectiveAddress_eq (m : State) (d : Word) (s : Reg) :
    m.effectiveAddress d s = d + m.readReg s :=
  wrap32_add _ _

/-- A word that is not negative is its unsigned value. -/
theorem toInt_eq_toNat_of_nonneg {a : Word} (h : 0 ≤ a.toInt) : a.toInt = (a.toNat : Int) := by
  rw [BitVec.toInt_eq_toNat_cond] at h ⊢
  split
  · rfl
  · next hn => rw [if_neg hn] at h; have := a.isLt; omega

theorem toNat_lt_of_toInt {a : Word} {n : Nat} (h : 0 ≤ a.toInt ∧ a.toInt < (n : Int)) :
    a.toNat < n := by
  have := toInt_eq_toNat_of_nonneg h.1
  omega

theorem State.fetchAddress_advance (m : State) : m.advance.fetchAddress = m.pc := by
  simp [State.fetchAddress]

end Sys2Proof.Machine
end

