-- ==== Sys2Proof/Laws/Step.lean ====
section
/-! SUPPORT. What a step that runs an instruction is, and what input and every meaning leave alone. -/

namespace Sys2Proof.Machine

theorem Runs.instrInRange {m : State} {i : Instr} (h : Runs m i) : m.instrInRange m.pc = true :=
  (m.instrInRange_iff _).mpr h.inRange

/-- A step that reaches execution is the meaning of the decoded instruction after the frame. -/
theorem Runs.step_eq_exec {m : State} {i : Instr} (h : Runs m i) :
    step m = exec i m.rearm.advance := by
  rcases beginCycle_cases m with ⟨hr, hc⟩ | ⟨hr, hb, hc⟩ | ⟨hr, hb, hc⟩
  · rw [h.instrInRange] at hr; cases hr
  · exact absurd hb h.noBreak
  · simp [step, h.idle, hc, h.decoded]

theorem Runs.unique {m : State} {i j : Instr} (h : Runs m i) (h' : Runs m j) : i = j := by
  have := h.decoded.symm.trans h'.decoded
  injection this

/-- The state in which an instruction executes: the program counter is `pc0 + 1`. -/
theorem State.readReg_frame_pc (m : State) :
    m.rearm.advance.readReg m.config.pcIndex = m.pc + 1 := by
  simpa [State.pc] using State.pc_advance m.rearm

/-- The state in which an instruction executes: every other register is as before the step. -/
theorem State.readReg_frame_other (m : State) {q : Reg} (h : q ≠ m.config.pcIndex) :
    m.rearm.advance.readReg q = m.readReg q := by
  rw [State.readReg_advance_other _ (by simpa using h)]
  simp

/-- What the input operation never changes. -/
theorem readInput_fields (q : InputRequest) (m : State) :
    (readInput q m).config = m.config ∧ (readInput q m).imem = m.imem ∧
    (readInput q m).dmem = m.dmem ∧ (readInput q m).bp = m.bp ∧
    (readInput q m).icount = m.icount ∧ (readInput q m).inputEnded = m.inputEnded ∧
    (readInput q m).output = m.output ∧ (readInput q m).loadResult = m.loadResult ∧
    (readInput q m).pendingRun = m.pendingRun := by
  rcases readInput_cases m q with ⟨_, _, _, _, _, _, h⟩ | ⟨_, _, _, _, h⟩ | ⟨_, _, h⟩ | ⟨_, _, h⟩ <;>
    rw [h] <;> simp

theorem readInput_readReg_other {q : InputRequest} {x : Reg} (m : State) (h : x ≠ q.dest) :
    (readInput q m).readReg x = m.readReg x := by
  rcases readInput_cases m q with ⟨_, _, _, _, _, _, h'⟩ | ⟨_, _, _, _, h'⟩ | ⟨_, _, h'⟩ | ⟨_, _, h'⟩ <;>
    rw [h'] <;> simp [State.readReg_writeReg, h]

/-- What no meaning changes. -/
theorem exec_fields {i : Instr} {m t : State} (h : exec i m = .next t) :
    t.config = m.config ∧ t.imem = m.imem ∧ t.bp = m.bp ∧ t.icount = m.icount ∧
    t.inputEnded = m.inputEnded ∧ t.loadResult = m.loadResult ∧ t.pendingRun = m.pendingRun := by
  rcases exec_cases h with ⟨r, _, rfl⟩ | ⟨q, v, _, _, rfl⟩ | ⟨r, d, s, _, _, rfl⟩ | ⟨bs, _, rfl⟩ |
    ⟨q, _, _, rfl⟩
  · simp
  · simp
  · simp [State.memWrite]
  · simp
  · simp [readInput_fields q m]

/-! ## The frames of the shapes -/

theorem unchanged_finish (m : State) (r : StepResult) : Unchanged [] [] m (m.finish r) :=
  ⟨rfl, fun _ _ => rfl, fun _ => rfl, fun _ _ => rfl, rfl, rfl, rfl, rfl⟩

theorem unchanged_writeReg (m : State) (q : Reg) (v : Word) (r : StepResult) :
    Unchanged [q] [] m ((m.writeReg q v).finish r) :=
  ⟨rfl, fun x hx => by simp at hx; simp [State.readReg_writeReg, hx], fun _ => rfl,
    fun _ _ => rfl, rfl, rfl, rfl, rfl⟩

theorem unchanged_memWrite (m : State) (ea v : Word) (t : DataTag) (r : StepResult) :
    Unchanged [] [ea.toNat] m ((m.memWrite ea v t).finish r) :=
  ⟨rfl, fun _ _ => rfl, fun _ => rfl,
    fun a ha => by simp at ha; simp [State.memWrite, State.dataSlot_setDataSlot_other _ _ ha],
    rfl, rfl, rfl, rfl⟩

theorem unchanged_emit (m : State) (bs : List Byte) (r : StepResult) :
    Unchanged [] [] m ((m.emit bs).finish r) :=
  ⟨rfl, fun _ _ => rfl, fun _ => rfl, fun _ _ => rfl, rfl, rfl, rfl, rfl⟩

theorem sameConsole_finish (m : State) (r : StepResult) : SameConsole m (m.finish r) :=
  ⟨⟨rfl, rfl, rfl⟩, rfl⟩

theorem sameConsole_writeReg (m : State) (q : Reg) (v : Word) (r : StepResult) :
    SameConsole m ((m.writeReg q v).finish r) := ⟨⟨rfl, rfl, rfl⟩, rfl⟩

theorem sameConsole_memWrite (m : State) (ea v : Word) (t : DataTag) (r : StepResult) :
    SameConsole m ((m.memWrite ea v t).finish r) := ⟨⟨rfl, rfl, rfl⟩, rfl⟩

end Sys2Proof.Machine
end

