-- ==== Sys2Proof/Laws/Run.lean ====
section
/-! SUPPORT. What a bulk run and a call that has not returned can do, one lemma per way a step ends. -/

namespace Sys2Proof.Machine

/-- The registers an executing instruction reads, from the state before the step. -/
theorem State.readReg_frame (m : State) (q : Reg) :
    m.rearm.advance.readReg q = operandValue m q := by
  unfold operandValue
  split
  · next h => rw [h]; exact m.readReg_frame_pc
  · next h => exact m.readReg_frame_other h

/-! ## `runUntilHalt` -/

@[simp] theorem runUntilHalt_zero (m : State) : runUntilHalt 0 m = ⟨m, .returned .ok, 0⟩ := rfl

theorem runUntilHalt_ok {m t : State} (h : step m = .next t) (hr : t.result = some .ok) (n : Nat) :
    runUntilHalt (n + 1) m = { runUntilHalt n t with calls := (runUntilHalt n t).calls + 1 } := by
  simp [runUntilHalt, h, hr]

theorem runUntilHalt_stop {m t : State} {r : StepResult} (h : step m = .next t)
    (hr : t.result = some r) (hne : r ≠ .ok) (n : Nat) :
    runUntilHalt (n + 1) m = ⟨t, .returned r, 1⟩ := by
  simp only [runUntilHalt, h, hr]

theorem runUntilHalt_blocked {m t : State} (h : step m = .next t) (hr : t.result = none) (n : Nat) :
    runUntilHalt (n + 1) m = ⟨t, .waits n, 0⟩ := by
  simp [runUntilHalt, h, hr]

theorem runUntilHalt_refused {m : State} {why : Refusal} (h : step m = .refused why) (n : Nat) :
    runUntilHalt (n + 1) m = ⟨m, .refused why, 1⟩ := by
  simp [runUntilHalt, h]

/-! ## `settleRun`, `goOn` -/

@[simp] theorem settleRun_returned (c k : Nat) (t : State) (r : StepResult) :
    settleRun c ⟨t, .returned r, k⟩ = (t, .ran r (c + k)) := rfl

@[simp] theorem settleRun_refused (c k : Nat) (t : State) (why : Refusal) :
    settleRun c ⟨t, .refused why, k⟩ = (t, .refused why (c + k)) := rfl

@[simp] theorem settleRun_waits (c k f : Nat) (t : State) :
    settleRun c ⟨t, .waits f, k⟩ = ({ t with pendingRun := some ⟨f, c + k⟩ }, .blocked) := rfl

theorem goOn_run {m : State} {p : PendingRun} (h : m.pendingRun = some p) :
    goOn m = settleRun p.calls (runUntilHalt (p.further + 1) m.clearRun) := by
  simp [goOn, h]

theorem goOn_step {m : State} (h : m.pendingRun = none) :
    goOn m = settleRun 0 (runUntilHalt 1 m) := by
  simp [goOn, h]

end Sys2Proof.Machine
end

