-- ==== Sys2Proof/Tests/Slice0.lean ====
section
/-! SUPPORT. Tests of one step each, with expected values from 95_test_vectors.md (named by their
ids), and a witness for every hypothesis of the statements. -/

namespace Sys2Proof.Tests

open Sys2Proof.Machine

/-! ## Helpers -/

/-- A small machine: the test vectors assume `DC = 10000`, `PC_INDEX = 7` and `IC` at least 16. -/
def mach : State := State.powerOn ⟨16, 10000, 7⟩

/-- The machine about to fetch the word `w` at address `a`. -/
def fetching (a : Nat) (w : InstrWord) (m : State) : State :=
  (m.setInstrSlot a ⟨w, .assigned, []⟩).writePc (BitVec.ofNat 32 a)

/-- Register `r` set to an integer. -/
def setTo (r : Reg) (n : Int) (m : State) : State := m.writeReg r (BitVec.ofInt 32 n)

/-- The machine with the given input lines and nothing more to come. -/
def fed (lines : List String) (m : State) : State :=
  { m with inputLines := lines.map ascii, inputEnded := true }

/-- What a step returned and the value of register `r` after it. -/
def after (r : Reg) (o : Outcome) : Option (Option StepResult × Int) :=
  match o with
  | .next t => some (t.result, (t.readReg r).toInt)
  | _ => none

/-- What a step returned and the output after it. -/
def printed (o : Outcome) : Option (Option StepResult × List Byte) :=
  match o with
  | .next t => some (t.result, t.output)
  | _ => none

/-- What a step returned and data slot `a` after it. -/
def stored (a : Nat) (o : Outcome) : Option (Option StepResult × Int × DataTag) :=
  match o with
  | .next t => some (t.result, (t.dataSlot a).word.toInt, (t.dataSlot a).tag)
  | _ => none

/-- What a step returned, the program counter, the breakpoint and the counter after it. -/
def frame (o : Outcome) : Option (Option StepResult × Int × Breakpoint × Nat) :=
  match o with
  | .next t => some (t.result, t.pc.toInt, t.bp, t.icount)
  | _ => none

/-- The state after a step; the state itself where there is none. -/
def next (m : State) : State :=
  match step m with
  | .next t => t
  | _ => m

theorem step_next_of {m t : State} (h : step m = .next t) : next m = t := by simp [next, h]

/-! ## Well-formedness: an ill-formed word for each check of rule R88 -/

theorem test_wf_opcode : WordFields.opcodeDefined ⟨0x0B, 0, 0, 0, 0⟩ = false ∧
    WordFields.opcodeDefined ⟨0x20, 0, 0, 0, 0⟩ = false ∧
    WordFields.opcodeDefined ⟨0x12, 0, 0, 0, 0⟩ = false ∧
    WordFields.opcodeDefined ⟨0x17, 0, 0, 0, 0⟩ = false := by decide

theorem test_wf_operand1 : WordFields.operand1Ok ⟨0x07, 8, 0, 0, 0⟩ = false ∧
    WordFields.operand1Ok ⟨0x07, 7, 0, 0, 0⟩ = true := by decide

theorem test_wf_operand3 : WordFields.operand3Ok ⟨0x07, 0, 8, 0, 0⟩ = false ∧
    WordFields.operand3Ok ⟨0x07, 0, 7, 0, 0⟩ = true := by decide

theorem test_wf_reserved : WordFields.reservedOk ⟨0x10, 0, 0, 1, 0⟩ = false := by decide

theorem test_wf_operand2 : WordFields.operand2Ok ⟨0x07, 0, 0, 0, 8⟩ = false ∧
    WordFields.operand2Ok ⟨0x10, 0, 0, 0, 8⟩ = true := by decide

theorem test_wf_refuses : WordFields.wellFormed ⟨0x0B, 0, 0, 0, 0⟩ = false ∧
    WordFields.wellFormed ⟨0x07, 8, 0, 0, 0⟩ = false ∧
    WordFields.wellFormed ⟨0x07, 0, 8, 0, 0⟩ = false ∧
    WordFields.wellFormed ⟨0x10, 0, 0, 1, 0⟩ = false ∧
    WordFields.wellFormed ⟨0x07, 0, 0, 0, 8⟩ = false ∧
    WordFields.wellFormed ⟨0x07, 1, 2, 0, 7⟩ = true := by decide

/-! ## Decoding: words written out from rule R81, `op | a | c | 00 | b32` -/

/-- V10. -/
theorem test_decode_halt : decode 0x0000000000000000 = .ok (.halt 0 0 0) := by rfl
/-- V11. -/
theorem test_decode_in : decode 0x0101000000000000 = .ok (.in_ 1 0 0) := by rfl
/-- V19. -/
theorem test_decode_inb : decode 0x0202000000000000 = .ok (.inb 2 0 0) := by rfl
/-- V28. -/
theorem test_decode_out : decode 0x0307000000000000 = .ok (.out 7 0 0) := by rfl
/-- V29. -/
theorem test_decode_outb : decode 0x0402000000000000 = .ok (.outb 2 0 0) := by rfl
/-- V30. -/
theorem test_decode_outc : decode 0x0504000000000000 = .ok (.outc 4 0 0) := by rfl
/-- V31. -/
theorem test_decode_outnl : decode 0x0600000000000000 = .ok (.outnl 0 0 0) := by rfl
/-- V40. -/
theorem test_decode_add : decode 0x0703020000000001 = .ok (.add 3 1 2) := by rfl
/-- V43. -/
theorem test_decode_sub : decode 0x0803020000000001 = .ok (.sub 3 1 2) := by rfl
/-- V46. -/
theorem test_decode_mul : decode 0x0903020000000001 = .ok (.mul 3 1 2) := by rfl
/-- V50. -/
theorem test_decode_div : decode 0x0A03020000000001 = .ok (.div 3 1 2) := by rfl
/-- V142: the largest register numbers and the most negative displacement. -/
theorem test_decode_ld :
    decode 0x1007070080000000 = .ok (.ld 7 (BitVec.ofInt 32 (-2147483648)) 7) := by rfl
/-- V77. -/
theorem test_decode_st : decode 0x1103060000000000 = .ok (.st 3 0 6) := by rfl
/-- V81. -/
theorem test_decode_lda : decode 0x18050600FFFFFFFF = .ok (.lda 5 (BitVec.ofInt 32 (-1)) 6) := by
  rfl
/-- V84. -/
theorem test_decode_ldc :
    decode 0x1901030080000000 = .ok (.ldc 1 (BitVec.ofInt 32 (-2147483648)) 3) := by rfl
/-- V90. -/
theorem test_decode_jlt : decode 0x1A010700FFFFFFFC = .ok (.jlt 1 (BitVec.ofInt 32 (-4)) 7) := by
  rfl
/-- V91. -/
theorem test_decode_jle : decode 0x1B010700FFFFFFFC = .ok (.jle 1 (BitVec.ofInt 32 (-4)) 7) := by
  rfl
/-- V92. -/
theorem test_decode_jgt : decode 0x1C010700FFFFFFFC = .ok (.jgt 1 (BitVec.ofInt 32 (-4)) 7) := by
  rfl
/-- V93. -/
theorem test_decode_jge : decode 0x1D010700FFFFFFFC = .ok (.jge 1 (BitVec.ofInt 32 (-4)) 7) := by
  rfl
/-- V94. -/
theorem test_decode_jeq : decode 0x1E010700FFFFFFFC = .ok (.jeq 1 (BitVec.ofInt 32 (-4)) 7) := by
  rfl
/-- V95. -/
theorem test_decode_jne : decode 0x1F010700FFFFFFFC = .ok (.jne 1 (BitVec.ofInt 32 (-4)) 7) := by
  rfl

/-- V143 to V147, and a reserved operand-3 bit. -/
theorem test_decode_invalid : decode 0x0B00000000000000 = .error .opcode ∧
    decode 0x2000000000000000 = .error .opcode ∧
    decode 0x0708000000000000 = .error .field ∧
    decode 0x0700000000000008 = .error .field ∧
    decode 0x1000000100000000 = .error .field ∧
    decode 0x0700080000000000 = .error .field := by
  refine ⟨rfl, rfl, rfl, rfl, rfl, rfl⟩

/-- Bytes come most significant first (R50, R81), and what follows a word is left. -/
theorem test_decode_bytes :
    decodeBytes [0x1E, 0x00, 0x07, 0x00, 0xFF, 0xFF, 0xFF, 0xFE, 0x2A]
      = .ok (.jeq 0 (BitVec.ofInt 32 (-2)) 7, [0x2A]) ∧
    decodeBytes [0x1E, 0x00, 0x07, 0x00, 0xFF, 0xFF, 0xFF] = .error .short ∧
    encodeBytes (.jeq 0 (BitVec.ofInt 32 (-2)) 7)
      = [0x1E, 0x00, 0x07, 0x00, 0xFF, 0xFF, 0xFF, 0xFE] := by
  refine ⟨rfl, rfl, by decide⟩

/-! ## The frame (V1 to V9) -/

/-- V1, V2: nothing fetched, nothing changed. -/
theorem test_fetch_outside :
    frame (step (setTo 7 (-1) mach)) = some (some .instructionFault, -1, .none, 0) ∧
    frame (step (setTo 7 16 mach)) = some (some .instructionFault, 16, .none, 0) := by decide

/-- V3: the last slot, unassigned; the advance does not wrap. -/
theorem test_last_slot :
    frame (step (setTo 7 15 mach)) = some (some .halted, 16, .none, 1) ∧
    frame (step (next (setTo 7 15 mach))) = some (some .instructionFault, 16, .none, 1) := by decide

/-- V5, V6, V7: the one-shot breakpoint. -/
theorem test_breakpoint :
    frame (step (setTo 7 3 (mach.armBreakpoint 3))) = some (some .halted, 3, .pending 3, 0) ∧
    frame (step (fetching 3 0x1901000000000009 { mach with bp := .pending 3 }))
      = some (some .ok, 4, .pending 3, 1) ∧
    frame (step (fetching 4 0x1901000000000009 { mach with bp := .pending 3 }))
      = some (some .ok, 5, .armed 3, 1) := by decide

/-- V8, V9: a breakpoint outside the store never fires; the fetch check comes first. -/
theorem test_breakpoint_outside :
    frame (step (setTo 7 16 (mach.armBreakpoint 16)))
      = some (some .instructionFault, 16, .armed 16, 0) ∧
    frame (step (setTo 7 (-1) (mach.armBreakpoint (BitVec.ofInt 32 (-1)))))
      = some (some .instructionFault, -1, .armed (BitVec.ofInt 32 (-1)), 0) := by decide

/-! ## HALT and console I/O (V10 to V31) -/

/-- V10. -/
theorem test_halt : frame (step (fetching 1 0x0000000000000000 mach)) = some (some .halted, 2, .none, 1) := by
  decide

/-- V11 to V14. -/
theorem test_in_values :
    after 1 (step (fetching 0 0x0101000000000000 (fed ["-42"] mach))) = some (some .ok, -42) ∧
    after 1 (step (fetching 0 0x0101000000000000 (fed ["17 #"] mach))) = some (some .halted, 17) ∧
    after 1 (step (fetching 0 0x0101000000000000 (fed ["  -+-12 #"] mach)))
      = some (some .halted, 12) ∧
    after 1 (step (fetching 0 0x0101000000000000 (fed ["-2147483648"] mach)))
      = some (some .ok, -2147483648) := by decide

/-- V15 to V18: malformed lines and end of input leave `x[1]` alone. -/
theorem test_in_errors :
    (["2147483648", "12 x", "--", "", "12#x"].all fun line =>
      after 1 (step (fetching 0 0x0101000000000000 (fed [line] (setTo 1 6 mach))))
        == some (some .inputError, 6)) = true ∧
    after 1 (step (fetching 0 0x0101000000000000 (fed [] (setTo 1 6 mach))))
      = some (some .inputError, 6) := by decide

/-- V19 to V24. -/
theorem test_inb_values :
    ([("false", StepResult.ok, (0 : Int)), ("  f", .ok, 0), ("True", .ok, 1), ("yes", .ok, 1),
        ("1", .ok, 1), ("-0", .ok, 1), ("", .ok, 1), ("0#", .halted, 0), ("#", .halted, 1)].all
      fun c => after 2 (step (fetching 0 0x0202000000000000 (fed [c.1] (setTo 2 6 mach))))
        == some (some c.2.1, c.2.2)) = true := by decide

/-- V18. -/
theorem test_inb_end : after 2 (step (fetching 0 0x0202000000000000 (fed [] (setTo 2 6 mach))))
    = some (some .inputError, 6) := by decide

/-- V25 to V27: `-5`, `0`, `-2147483648`. -/
theorem test_out :
    printed (step (fetching 0 0x0301000000000000 (setTo 1 (-5) mach)))
      = some (some .ok, [0x2D, 0x35]) ∧
    printed (step (fetching 0 0x0301000000000000 mach)) = some (some .ok, [0x30]) ∧
    printed (step (fetching 0 0x0301000000000000 (setTo 1 (-2147483648) mach)))
      = some (some .ok, [0x2D, 0x32, 0x31, 0x34, 0x37, 0x34, 0x38, 0x33, 0x36, 0x34, 0x38]) := by
  decide

/-- V28: the program counter prints as `pc0 + 1`. -/
theorem test_out_pc :
    printed (step (fetching 6 0x0307000000000000 mach)) = some (some .ok, [0x37]) := by decide

/-- V29. -/
theorem test_outb :
    ([((0 : Int), (0x46 : Byte)), (7, 0x54), (-1, 0x54)].all fun c =>
      printed (step (fetching 0 0x0402000000000000 (setTo 2 c.1 mach)))
        == some (some .ok, [c.2])) = true := by decide

/-- V30. -/
theorem test_outc :
    ([((72 : Int), (0x48 : Byte)), (321, 0x41), (-191, 0x41), (10, 0x0A)].all fun c =>
      printed (step (fetching 0 0x0504000000000000 (setTo 4 c.1 mach)))
        == some (some .ok, [c.2])) = true := by decide

/-- V31. -/
theorem test_outnl :
    printed (step (fetching 0 0x0600000000000000 mach)) = some (some .ok, [0x0A]) := by decide

/-! ## Arithmetic (V40 to V60) -/

/-- The result and `x[3]` of an instruction on `x[1] = a`, `x[2] = b`, with `x[3] = 77` before. -/
def arith (w : InstrWord) (a b : Int) : Option (Option StepResult × Int) :=
  after 3 (step (fetching 0 w (setTo 1 a (setTo 2 b (setTo 3 77 mach)))))

/-- V40 to V42. -/
theorem test_add : arith 0x0703020000000001 2 3 = some (some .ok, 5) ∧
    arith 0x0703020000000001 2147483647 1 = some (some .ok, -2147483648) ∧
    arith 0x0703020000000001 (-2147483648) (-1) = some (some .ok, 2147483647) := by decide

/-- V59, V60, V4: sources are read first; a destination or source that is the program counter. -/
theorem test_add_aliases :
    after 1 (step (fetching 0 0x0701010000000001 (setTo 1 5 mach))) = some (some .ok, 10) ∧
    after 7 (step (fetching 0 0x0707020000000001 (setTo 1 10 (setTo 2 3 mach))))
      = some (some .ok, 13) ∧
    after 1 (step (fetching 3 0x0701000000000007 mach)) = some (some .ok, 4) := by decide

/-- V43 to V45. -/
theorem test_sub : arith 0x0803020000000001 2 3 = some (some .ok, -1) ∧
    arith 0x0803020000000001 (-2147483648) 1 = some (some .ok, 2147483647) ∧
    arith 0x0803020000000001 0 (-2147483648) = some (some .ok, -2147483648) := by decide

/-- V46 to V49. -/
theorem test_mul : arith 0x0903020000000001 7 (-3) = some (some .ok, -21) ∧
    arith 0x0903020000000001 65536 65536 = some (some .ok, 0) ∧
    arith 0x0903020000000001 46341 46341 = some (some .ok, -2147479015) ∧
    arith 0x0903020000000001 (-2147483648) (-1) = some (some .ok, -2147483648) := by decide

/-- V50 to V54. -/
theorem test_div : arith 0x0A03020000000001 7 2 = some (some .ok, 3) ∧
    arith 0x0A03020000000001 (-7) 2 = some (some .ok, -3) ∧
    arith 0x0A03020000000001 7 (-2) = some (some .ok, -3) ∧
    arith 0x0A03020000000001 (-7) (-2) = some (some .ok, 3) ∧
    arith 0x0A03020000000001 (-1) 2 = some (some .ok, 0) := by decide

/-- V55, V56, V57. -/
theorem test_div_corners :
    arith 0x0A03020000000001 (-2147483648) (-1) = some (some .ok, -2147483648) ∧
    arith 0x0A03020000000001 5 0 = some (some .divideByZero, 77) ∧
    after 3 (step (fetching 4 0x0A03070000000001 (setTo 1 20 mach))) = some (some .ok, 4) := by
  decide

/-! ## Memory (V70 to V85) -/

/-- V70 to V74: slot 0, the last slot, and addresses just outside. -/
theorem test_ld :
    after 1 (step (fetching 0 0x1001000000000000 mach)) = some (some .ok, 9999) ∧
    after 0 (step (fetching 0 0x1000010000000000 (setTo 1 9999 (mach.hostSetData 9999 4))))
      = some (some .ok, 4) ∧
    after 0 (step (fetching 0 0x1000010000000000 (setTo 0 6 (setTo 1 10000 mach))))
      = some (some .dataFault, 6) ∧
    after 2 (step (fetching 0 0x10020000FFFFFFFF (setTo 2 6 mach))) = some (some .dataFault, 6) ∧
    after 2 (step (fetching 0 0x1002010000000001 (setTo 1 2147483647 mach)))
      = some (some .dataFault, 0) := by decide

/-- V76: the effective address wraps into range. -/
theorem test_ld_wraps :
    after 2 (step (fetching 0 0x1002010080000004 (setTo 1 2147483647 (mach.hostSetData 3 8))))
      = some (some .ok, 8) := by decide

/-- V77, V80, V79. -/
theorem test_st :
    stored 9999 (step (fetching 4 0x1103060000000000 (setTo 3 (-21) (setTo 6 9999 mach))))
      = some (some .ok, -21, .writer 4) ∧
    stored 5 (step (fetching 2 0x1107000000000005 mach)) = some (some .ok, 3, .writer 2) ∧
    (next (fetching 0 0x1101000000002710 mach)).dmem = [] := by decide

/-- V78: a store takes a static slot out of the static data, so a soft reset clears it. -/
theorem test_st_over_static :
    let m := next (fetching 8 0x1103000000000001 (mach.setDataSlot 1 ⟨7, .staticNumeric⟩))
    m.dataSlot 1 = ⟨0, .writer 8⟩ ∧ m.softReset.dataSlot 1 = ⟨0, .unused⟩ := by decide

/-- V81 to V83, V85. -/
theorem test_lda :
    after 5 (step (fetching 0 0x18050600FFFFFFFF (setTo 6 9999 mach))) = some (some .ok, 9998) ∧
    after 1 (step (fetching 0 0x180102007FFFFFFF (setTo 2 1 mach)))
      = some (some .ok, -2147483648) ∧
    after 1 (step (fetching 0 0x1801020000000014 (setTo 2 (-50) mach))) = some (some .ok, -30) ∧
    after 4 (step (fetching 9 0x1804070000000001 mach)) = some (some .ok, 11) := by decide

/-- V84. -/
theorem test_ldc : after 1 (step (fetching 0 0x1901030080000000 (setTo 3 123456 mach)))
    = some (some .ok, -2147483648) := by decide

/-! ## Control transfer (V90 to V99) -/

/-- Where a word at address 5 leaves the program counter, for `x[1] = -1, 0, 1`. -/
def jumps (w : InstrWord) : List (Option (Option StepResult × Int)) :=
  [-1, 0, 1].map fun n => after 7 (step (fetching 5 w (setTo 1 n mach)))

/-- V90. -/
theorem test_jlt : jumps 0x1A010700FFFFFFFC
    = [some (some .ok, 2), some (some .ok, 6), some (some .ok, 6)] := by decide
/-- V91. -/
theorem test_jle : jumps 0x1B010700FFFFFFFC
    = [some (some .ok, 2), some (some .ok, 2), some (some .ok, 6)] := by decide
/-- V92. -/
theorem test_jgt : jumps 0x1C010700FFFFFFFC
    = [some (some .ok, 6), some (some .ok, 6), some (some .ok, 2)] := by decide
/-- V93. -/
theorem test_jge : jumps 0x1D010700FFFFFFFC
    = [some (some .ok, 6), some (some .ok, 2), some (some .ok, 2)] := by decide
/-- V94. -/
theorem test_jeq : jumps 0x1E010700FFFFFFFC
    = [some (some .ok, 6), some (some .ok, 2), some (some .ok, 6)] := by decide
/-- V95. -/
theorem test_jne : jumps 0x1F010700FFFFFFFC
    = [some (some .ok, 2), some (some .ok, 6), some (some .ok, 2)] := by decide

/-- V97: the tested register is the program counter. -/
theorem test_jump_tests_pc :
    after 7 (step (fetching 5 0x1C07000000000000 mach)) = some (some .ok, 0) ∧
    after 7 (step (fetching 5 0x1E07000000000000 mach)) = some (some .ok, 6) := by decide

/-- V98: `5: JEQ 0,100000(0)`. -/
theorem test_jump_outside :
    after 7 (step (fetching 5 0x1E000000000186A0 mach)) = some (some .ok, 100000) ∧
    after 7 (step (next (fetching 5 0x1E000000000186A0 mach)))
      = some (some .instructionFault, 100000) := by decide

/-! ## Waiting for input (R200, R334) -/

/-- The step waits; nothing else runs; a line arrives, and the blocked step goes on and returns. -/
theorem test_blocked_in :
    let b := (hostCall .step (fetching 0 0x0101000000000000 mach)).1
    b.waiting = some ⟨.integer, 1⟩ ∧ b.result = none ∧ b.pc = 1 ∧ b.icount = 1 ∧
    (hostCall (.getReg 1) b).2 = .busy ∧ (hostCall .step b).2 = .busy ∧
    (hostCall (.supplyLine (ascii "9")) b).2 = .ran .ok 1 ∧
    (hostCall (.supplyLine (ascii "9")) b).1.readReg 1 = 9 := by decide

/-- A run that waits in its first step makes its further steps once the line is there (R333). -/
theorem test_blocked_run :
    let b := (hostCall (.runUntilHalt 9) (fetching 0 0x0101000000000000 mach)).1
    b.pendingRun = some ⟨8, 0⟩ ∧
    (hostCall (.supplyLine (ascii "9")) b).2 = .ran .halted 2 ∧
    (hostCall (.supplyLine (ascii "9")) b).1.readReg 1 = 9 ∧
    (hostCall .endInput b).2 = .ran .inputError 1 ∧
    (hostCall (.supplyLine (ascii "9")) b).1.pendingRun = none := by decide

/-! ## Loader (V110 to V134) -/

/-- What a load of a text returns. -/
def loads (text : String) : Option LoadResult := (load (ascii text) mach).loadResult

/-- An error at a line, with the address if known. -/
def fails (line : Nat) (address : Option Nat) (kind : LoadErrorKind) : Option LoadResult :=
  some (.error ⟨some line, address, kind⟩)

/-- V110, V111, V114, V116, V117, V128, V132, V134. -/
theorem test_load_ok :
    (["* comment\n\n   0: HALT 0,0,0", "0: HALTED 0,0,0", "0: OUTN 1,0,0", "0: LDC 1,--5(0)",
        "0: LDC 1,+-+5,0", ".SDATA \"\"", "0: HALT 0,0,0\r\n", ""].all
      fun text => loads text == some .ok) = true := by decide +kernel

/-- V112, V113, V115, V118, V119. -/
theorem test_load_errors_opcode_and_operands :
    loads "0: halt 0,0,0" = fails 1 (some 0) .mnemonic ∧
    loads "0: LDX 1,2(0)" = fails 1 (some 0) .mnemonic ∧
    loads "0: ADD 8,1,2" = fails 1 (some 0) .register ∧
    loads "0: LDC 1,2147483648(0)" = fails 1 (some 0) .displacement ∧
    loads "0 HALT 0,0,0" = fails 1 (some 0) .colon := by decide +kernel

/-- V120 to V123, V126, V127. -/
theorem test_load_errors_address_and_separators :
    loads "16: HALT 0,0,0" = fails 1 (some 16) .address ∧
    loads "-1: HALT 0,0,0" = fails 1 none .address ∧
    loads "0: LD 1,2(0" = fails 1 (some 0) .separator ∧
    loads "0: LDC 1,5\n1: HALT 0,0,0" = fails 1 (some 0) .separator ∧
    loads ".FOO 1" = fails 1 none .directive ∧
    loads ".DATAX 1" = fails 1 none .directive := by decide +kernel

/-- V124, V130, V131 and W8: what a slot reads back as. -/
theorem test_load_reads_back :
    (load (ascii "3: LDC 1,5,0\n3: LDC 1,6,0") mach).viewInstr 3 = ⟨some (.ldc 1 6 0), .assigned, []⟩ ∧
    (load (ascii "0: ADD 1,2,3 ; sum") mach).viewInstr 0
      = ⟨some (.add 1 2 3), .assigned, ascii " ; sum"⟩ ∧
    (load (ascii "5: JGT 1,-4(7) loop") mach).viewInstr 5
      = ⟨some (.jgt 1 (BitVec.ofInt 32 (-4)) 7), .assigned, ascii " loop"⟩ ∧
    (load (ascii "5: JGT 1,-4,7 loop") mach).viewInstr 5
      = ⟨some (.jgt 1 (BitVec.ofInt 32 (-4)) 7), .assigned, ascii " loop"⟩ := by decide +kernel

/-- V125, V129, W1. -/
theorem test_load_data :
    (load (ascii ".DATA 7\n.SDATA \"ab\n.DATA 9") mach).dmem = [(1, ⟨7, .staticNumeric⟩)] ∧
    loads ".DATA 7\n.SDATA \"ab\n.DATA 9" = fails 2 none .quoting ∧
    (load (ascii ".SDATA \"A B\"") mach).dmem
      = [(1, ⟨65, .staticChar⟩), (2, ⟨32, .staticChar⟩), (3, ⟨66, .staticChar⟩)] ∧
    (load (ascii ".DATA 7\n.DATA -3") mach).dmem
      = [(1, ⟨7, .staticNumeric⟩), (2, ⟨BitVec.ofInt 32 (-3), .staticNumeric⟩)] := by decide +kernel

/-- V133: `DC = 3`. -/
theorem test_load_data_full :
    let m := load (ascii ".DATA 1\n.DATA 2\n.DATA 3") (State.powerOn ⟨16, 3, 7⟩)
    m.loadResult = fails 3 none .dataFull ∧
    m.dmem = [(1, ⟨1, .staticNumeric⟩), (2, ⟨2, .staticNumeric⟩)] := by decide +kernel

/-! ## Host operations -/

/-- P1, run from a load: two steps. -/
theorem test_program_p1 :
    let r := runUntilHalt 5 (load (ascii "0: LDC 0,5,0\n1: HALT 0,0,0") mach)
    r.ending = .returned .halted ∧ r.calls = 2 ∧ r.state.readReg 0 = 5 ∧ r.state.pc = 2 ∧
    r.state.icount = 2 := by decide +kernel

/-- The usage counts and the trace view (R332, R174). -/
theorem test_views :
    let m := load (ascii ".DATA 7\n0: LD 1,1(0) x") mach
    m.instrUsage = 1 ∧ m.dataUsage = 1 ∧
    (m.viewTrace 0).regs = [(0, 0)] ∧ (m.viewTrace 0).data = some 7 ∧
    (hostCall (.getInstr 16) m).2 = .hostError ∧
    (hostCall (.getData 1) m).2 = .slot 7 .staticNumeric := by decide +kernel

/-- W7: what a soft reset keeps. -/
theorem test_soft_reset :
    let m := { setTo 3 5 (mach.setDataSlot 4 ⟨105, .staticChar⟩) with
      dmem := [(0, ⟨1, .writer 2⟩), (4, ⟨105, .staticChar⟩), (9, ⟨8, .writer 3⟩), (10, ⟨6, .unused⟩)],
      bp := .armed 3, icount := 12 }
    m.softReset.dmem = [(4, ⟨105, .staticChar⟩)] ∧ m.softReset.readReg 3 = 0 ∧
    m.softReset.icount = 0 ∧ m.softReset.bp = .armed 3 ∧
    (m.softReset.dataSlot 0).word = 9999 := by decide

/-- The word placed for the next fetch runs as the first instruction after reset. -/
theorem test_with_fetch_word :
    after 1 (step (State.reset.withFetchWord 64 0x1901000000000009)) = some (some .ok, 9) := by
  decide

/-! ## Witnesses: a state and operands for the hypotheses of each statement -/

/-- `LDC 1,9,0` at slot 0. -/
def runsLdc : State := fetching 0 0x1901000000000009 mach

theorem runs_ldc : Runs runsLdc (.ldc 1 9 0) := ⟨rfl, by decide, by decide, rfl⟩

/-- `DIV 3,1,2` by zero at slot 15, the last one, a breakpoint pending elsewhere. -/
def runsDiv : State := fetching 15 0x0A03020000000001 { mach with bp := .pending 3 }

theorem runs_div : Runs runsDiv (.div 3 1 2) := ⟨rfl, by decide, by decide, rfl⟩

theorem test_witness_valid_config : Config.valid ⟨1, 1, 0⟩ = true ∧
    Config.valid ⟨2147483647, 2147483647, 7⟩ = true ∧ mach.config.valid = true := by decide

/-- SoftResetKeepsOnlyStaticData: a static slot, one that is not, and slot 0. -/
theorem test_witness_soft_reset :
    let m := mach.setDataSlot 4 ⟨105, .staticChar⟩
    m.wf = true ∧ SlotStatic m 4 ∧ ¬ SlotStatic m 5 ∧ ¬ SlotStatic m 0 := by
  refine ⟨by decide, .inr (by decide), ?_, ?_⟩ <;> (rintro (h | h) <;> revert h <;> decide)

/-- InvalidWordsAreRefused, the fourth clause: a state only outside the invariant. -/
theorem test_witness_invalid :
    let m := fetching 0 0x0B00000000000000 mach
    m.waiting = none ∧ 0 ≤ m.pc.toInt ∧ m.pc.toInt < (m.config.ic : Int) ∧ m.bp ≠ .armed m.pc ∧
    decode m.fetchWord = .error .opcode ∧
    step m = .refused (.invalidWord 0x0B00000000000000) := by
  refine ⟨rfl, by decide, by decide, by decide, rfl, rfl⟩

/-- EncodeOfDecodeIsTheWord. -/
theorem test_witness_encode : decode 0x1007070080000000 = .ok (.ld 7 0x80000000 7) ∧
    encode (.ld 7 0x80000000 7) = 0x1007070080000000 := ⟨rfl, by decide⟩

/-- FetchOutsideTheStoreChangesNothing and the third clause on breakpoints, at both edges. -/
theorem test_witness_fetch_outside :
    (∀ n ∈ [(-1 : Int), 16, -2147483648, 2147483647],
      (setTo 7 n mach).waiting = none ∧
      ¬ (0 ≤ (setTo 7 n mach).pc.toInt ∧ (setTo 7 n mach).pc.toInt < ((setTo 7 n mach).config.ic : Int))) ∧
    (∀ n ∈ [(0 : Int), 15],
      0 ≤ (setTo 7 n mach).pc.toInt ∧ (setTo 7 n mach).pc.toInt < ((setTo 7 n mach).config.ic : Int)) := by
  decide

/-- BreakpointFiresOncePerArrival: armed here; pending elsewhere; pending here. -/
theorem test_witness_breakpoint :
    (setTo 7 15 (mach.armBreakpoint 15)).waiting = none ∧
    (setTo 7 15 (mach.armBreakpoint 15)).bp = .armed (setTo 7 15 (mach.armBreakpoint 15)).pc ∧
    runsDiv.bp = .pending 3 ∧ (3 : Word) ≠ runsDiv.pc ∧
    Runs { runsLdc with bp := .pending 0 } (.ldc 1 9 0) ∧
    runsLdc.pc = 0 := by
  refine ⟨rfl, by decide, rfl, by decide, ⟨rfl, by decide, by decide, rfl⟩, by decide⟩

/-- Every statement about a step that answers: a step that executes, and one that does not. -/
theorem test_witness_steps :
    (∃ t, step runsLdc = .next t) ∧ (∃ t, step (setTo 7 16 mach) = .next t) ∧
    (∃ t, step runsDiv = .next t ∧ t.result = some .divideByZero) ∧
    ¬ ∃ i, Runs (setTo 7 16 mach) i := by
  refine ⟨⟨_, rfl⟩, ⟨_, rfl⟩, ⟨_, rfl, rfl⟩, ?_⟩
  rintro ⟨i, h⟩
  exact absurd h.inRange (by decide)

/-- OperandsSeeTheAdvancedPc: a form of each clause that reads the program counter, alone, as both
sources, as tested register and base. -/
theorem test_witness_pc_operands :
    Runs (fetching 3 0x0701070000000007 mach) (.add 1 7 7) ∧
    Runs (fetching 3 0x0801070000000002 mach) (.sub 1 2 7) ∧
    Runs (fetching 4 0x0A03070000000001 mach) (.div 3 1 7) ∧
    Runs (fetching 9 0x1001070000000001 mach) (.ld 1 1 7) ∧
    Runs (fetching 2 0x1107070000000005 mach) (.st 7 5 7) ∧
    Runs (fetching 9 0x1804070000000001 mach) (.lda 4 1 7) ∧
    Runs (fetching 6 0x0307000000000000 mach) (.out 7 0 0) ∧
    Runs (fetching 6 0x0407000000000000 mach) (.outb 7 0 0) ∧
    Runs (fetching 6 0x0507000000000000 mach) (.outc 7 0 0) ∧
    Runs (fetching 5 0x1C07070000000000 mach) (.jgt 7 0 7) := by
  refine ⟨⟨rfl, by decide, by decide, rfl⟩, ⟨rfl, by decide, by decide, rfl⟩,
    ⟨rfl, by decide, by decide, rfl⟩, ⟨rfl, by decide, by decide, rfl⟩,
    ⟨rfl, by decide, by decide, rfl⟩, ⟨rfl, by decide, by decide, rfl⟩,
    ⟨rfl, by decide, by decide, rfl⟩, ⟨rfl, by decide, by decide, rfl⟩,
    ⟨rfl, by decide, by decide, rfl⟩, ⟨rfl, by decide, by decide, rfl⟩⟩

/-- OperandsSeeTheAdvancedPc, both sides of its tests: a divisor 0 and another, an address inside and
one outside, a jump taken and one not. -/
theorem test_witness_pc_operand_sides :
    (operandValue (fetching 4 0x0A03070000000001 mach) 7).toInt = 5 ∧
    (operandValue (fetching 15 0x0A03020000000001 mach) 2).toInt = 0 ∧
    mach.dataInRange (9990 + operandValue (fetching 8 0x1101070000000000 mach) 7) = true ∧
    mach.dataInRange (9990 + operandValue (fetching 9 0x1101070000000000 mach) 7) = false ∧
    decide (0 < (operandValue (fetching 5 0x1C07070000000000 mach) 7).toInt) = true ∧
    decide (0 < (operandValue (fetching 5 0x1C01070000000000 mach) 1).toInt) = false := by decide

/-- SuccessorIsSequentialUnlessWritten, UnnamedRegistersAreUnchanged: what `LDC 1,9,0` writes. -/
theorem test_witness_successor :
    runsLdc.config.pcIndex ∉ Instr.regsWritten runsLdc.config.pcIndex (.ldc 1 9 0) ∧
    (1 : Reg) ∈ Instr.regsWritten 7 (.ldc 1 9 0) ∧ (7 : Reg) ∈ Instr.regsWritten 7 (.jeq 1 9 0) := by
  decide

/-- UnassignedSlotHalts, at both edges of the store. -/
theorem test_witness_unassigned :
    ∀ n ∈ [(0 : Int), 15],
      (setTo 7 n mach).waiting = none ∧ 0 ≤ (setTo 7 n mach).pc.toInt ∧
      (setTo 7 n mach).pc.toInt < ((setTo 7 n mach).config.ic : Int) ∧
      (setTo 7 n mach).bp ≠ .armed (setTo 7 n mach).pc ∧
      ((setTo 7 n mach).instrSlot (setTo 7 n mach).pc.toNat).word = encode (.halt 0 0 0) := by decide

/-- InReadsAnIntegerLine and InbReadsABooleanLine: a value, a value with the halt mark, a malformed
line, the end of input. -/
theorem test_witness_in :
    (fed ["12", "x"] mach).inputLines = ascii "12" :: [ascii "x"] ∧
    parseInt (ascii "12") = .value 12 false ∧ parseInt (ascii "12#") = .value 12 true ∧
    parseInt (ascii "x") = .malformed ∧
    (fed [] mach).inputLines = [] ∧ (fed [] mach).inputEnded = true := by decide

/-- BlockedInputGoesOnWithTheLine. -/
theorem test_witness_blocked : (Instr.in_ 1 0 0).opcode = .in_ ∧ (Instr.inb 1 0 0).opcode = .inb ∧
    mach.inputLines = [] ∧ mach.inputEnded = false := by decide

/-- IntegerLinesAreThoseOfTheGrammar: the extreme values of the literal. -/
theorem test_witness_integer_lines :
    parseInt (ascii "2147483647") = .value 2147483647 false ∧
    parseInt (ascii "-2147483648 # ") = .value 0x80000000 true ∧
    parseInt (ascii "-2147483649") = .malformed := by decide

/-- DivTruncatesOrReportsZero, DivisionObeysItsLaws: a zero divisor, the wrapping quotient, another. -/
theorem test_witness_div :
    (mach.readReg 2).toInt = 0 ∧
    ((setTo 1 (-2147483648) (setTo 2 (-1) mach)).readReg 1).toInt = -2147483648 ∧
    ((setTo 1 (-2147483648) (setTo 2 (-1) mach)).readReg 2).toInt = -1 ∧
    (∃ t, exec (.div 3 1 2) (setTo 1 (-7) (setTo 2 2 mach)) = .next t) ∧
    ((setTo 1 (-7) (setTo 2 2 mach)).readReg 2).toInt ≠ 0 :=
  ⟨by decide, by decide, by decide, ⟨_, rfl⟩, by decide⟩

/-- LdLoadsTheWordOrFaults, StStoresTheWordOrFaults: the two edges of the data store, inside and
outside. -/
theorem test_witness_data_range :
    (0 ≤ ((0 : Word) + mach.readReg 0).toInt ∧
      ((9999 : Word) + mach.readReg 0).toInt < (mach.config.dc : Int)) ∧
    ¬ (((10000 : Word) + mach.readReg 0).toInt < (mach.config.dc : Int)) ∧
    ¬ (0 ≤ ((0xFFFFFFFF : Word) + mach.readReg 0).toInt) ∧
    mach.dataInRange (mach.effectiveAddress 0 0) = true ∧
    mach.dataInRange (mach.effectiveAddress 9999 0) = true ∧
    mach.dataInRange (mach.effectiveAddress 10000 0) = false ∧
    mach.dataInRange (mach.effectiveAddress 0xFFFFFFFF 0) = false := by decide

/-- LdcWritesTheConstant, the second clause. -/
theorem test_witness_ldc : (0 : Reg) ≠ 1 ∧
    (∃ t, exec (.ldc 1 9 0) mach = .next t) ∧
    (∃ t, exec (.ldc 1 9 0) (mach.writeReg 0 5) = .next t) := ⟨by decide, ⟨_, rfl⟩, ⟨_, rfl⟩⟩

/-- OnlyStoresChangeTheDataStore: a step that does. -/
theorem test_witness_store : ∃ t, step (fetching 4 0x1103060000000000 (setTo 3 5 mach)) = .next t ∧
    t.dataSlot 0 ≠ mach.dataSlot 0 := ⟨_, rfl, by decide⟩

/-- JumpOutsideTheStoreFaultsAtTheFetch: the targets `IC` and -1 of a jump whose comparison holds. -/
theorem test_witness_jump_outside :
    let m := fetching 5 0x1E00000000000010 mach
    let n := fetching 5 0x1C070100FFFFFFFF mach
    Runs m (.jeq 0 16 0) ∧ (Instr.jeq, fun v => decide (v = 0)) ∈ jumpForms ∧
    decide ((operandValue m 0).toInt = 0) = true ∧
    ¬ (0 ≤ (16 + operandValue m 0).toInt ∧ (16 + operandValue m 0).toInt < (m.config.ic : Int)) ∧
    Runs n (.jgt 7 0xFFFFFFFF 1) ∧ (Instr.jgt, fun v => decide (0 < v)) ∈ jumpForms ∧
    decide (0 < (operandValue n 7).toInt) = true ∧
    ¬ (0 ≤ (0xFFFFFFFF + operandValue n 1).toInt ∧
      (0xFFFFFFFF + operandValue n 1).toInt < (n.config.ic : Int)) := by
  refine ⟨⟨rfl, by decide, by decide, rfl⟩, by simp [jumpForms], by decide, by decide,
    ⟨rfl, by decide, by decide, rfl⟩, by simp [jumpForms], by decide, by decide⟩

/-- WritesOfThePcTransferControl: each instruction with `x[7]` as its destination. -/
theorem test_witness_pc_writes :
    Runs (fetching 3 0x180707000000000A mach) (.lda 7 10 7) ∧
    Runs (fetching 3 0x190700000000000A mach) (.ldc 7 10 0) ∧
    Runs (fetching 3 0x1007000000000001 mach) (.ld 7 1 0) ∧
    Runs (fetching 3 0x0707020000000001 mach) (.add 7 1 2) ∧
    Runs (fetching 3 0x0807070000000001 mach) (.sub 7 1 7) ∧
    Runs (fetching 3 0x0907020000000007 mach) (.mul 7 7 2) ∧
    Runs (fetching 3 0x0A07070000000001 mach) (.div 7 1 7) ∧
    Runs (fetching 3 0x0107000000000000 (fed ["12"] mach)) (.in_ 7 0 0) ∧
    Runs (fetching 3 0x0207000000000000 (fed ["#"] mach)) (.inb 7 0 0) := by
  refine ⟨⟨rfl, by decide, by decide, rfl⟩, ⟨rfl, by decide, by decide, rfl⟩,
    ⟨rfl, by decide, by decide, rfl⟩, ⟨rfl, by decide, by decide, rfl⟩,
    ⟨rfl, by decide, by decide, rfl⟩, ⟨rfl, by decide, by decide, rfl⟩,
    ⟨rfl, by decide, by decide, rfl⟩, ⟨rfl, by decide, by decide, rfl⟩,
    ⟨rfl, by decide, by decide, rfl⟩⟩

/-- WritesOfThePcTransferControl, its further hypotheses: an address in range, a divisor that is not
0, a line with a value for each input instruction. -/
theorem test_witness_pc_write_operands :
    mach.dataInRange (1 + operandValue (fetching 3 0x1007000000000001 mach) 0) = true ∧
    (operandValue (fetching 3 0x0A07070000000001 mach) 7).toInt ≠ 0 ∧
    (fetching 3 0x0107000000000000 (fed ["12"] mach)).inputLines = [ascii "12"] ∧
    parseInt (ascii "12") = .value 12 false ∧
    (fetching 3 0x0207000000000000 (fed ["#"] mach)).inputLines = [ascii "#"] ∧
    parseBool (ascii "#") = .value 1 true := by decide

/-- EveryInstructionAnswersWithItsResults, FaultingStepMakesNoOtherWrites: each result is returned. -/
theorem test_witness_results :
    after 1 (exec (.ld 1 0xFFFFFFFF 0) mach) = some (some .dataFault, 0) ∧
    after 1 (exec (.div 1 0 0) mach) = some (some .divideByZero, 0) ∧
    after 1 (exec (.inb 1 0 0) (fed [] mach)) = some (some .inputError, 0) ∧
    after 1 (exec (.halt 1 0 0) mach) = some (some .halted, 0) ∧
    after 1 (step (fetching 0 0x1001000000002710 mach)) = some (some .dataFault, 0) ∧
    Runs (fetching 0 0x1001000000002710 mach) (.ld 1 10000 0) ∧
    after 1 (step (fetching 0 0x0101000000000000 (fed [] mach))) = some (some .inputError, 0) ∧
    Runs (fetching 0 0x0101000000000000 (fed [] mach)) (.in_ 1 0 0) := by
  refine ⟨by decide, by decide, by decide, by decide, by decide, ⟨rfl, by decide, by decide, rfl⟩,
    by decide, ⟨rfl, by decide, by decide, rfl⟩⟩

/-- ConsoleMovesOnlyByItsInstructions: a step that prints, one that takes a
line, a blocked one that goes on. -/
theorem test_witness_console :
    (∃ t, step (fetching 0 0x0600000000000000 mach) = .next t ∧ t.output = mach.output ++ [0x0A]) ∧
    (∃ t, step (fetching 0 0x0101000000000000 (fed ["3", "4"] mach)) = .next t ∧
      t.inputLines = [ascii "4"] ∧ t.inputTaken = [ascii "3"]) ∧
    (∃ t, step { fed ["3"] mach with waiting := some ⟨.integer, 1⟩ } = .next t ∧
      t.inputTaken = [ascii "3"]) :=
  ⟨⟨_, rfl, by decide⟩, ⟨_, rfl, by decide, by decide⟩, ⟨_, rfl, by decide⟩⟩

/-- StepKeepsTheInvariant, WellFormedMachinesAnswer, HostOperationsKeepTheInvariant: states that are
not the reset state, a waiting one among them, and states outside the invariant. -/
theorem test_witness_invariant :
    runsLdc.wf = true ∧ (∃ t, step runsLdc = .next t) ∧
    (next (fetching 0 0x0101000000000000 mach)).wf = true ∧
    (mach.setDataSlot 9999 ⟨5, .writer 15⟩).wf = true ∧
    (mach.setDataSlot 9999 ⟨5, .writer 16⟩).wf = false ∧
    (mach.setDataSlot 10000 ⟨5, .unused⟩).wf = false ∧
    (mach.setInstrSlot 0 ⟨0x0B00000000000000, .unused, []⟩).wf = false :=
  ⟨by decide, ⟨_, rfl⟩, by decide, by decide, by decide, by decide, by decide⟩

/-- ReachableMachinesNeverRefuse: a machine that has been armed and stepped. -/
theorem test_witness_reachable :
    Reachable mach.config (hostCall .step (hostCall (.armBreakpoint 0) mach).1).1 :=
  .call _ _ (.call _ _ .powerOn)

/-- TextSplitsAtLineFeeds. -/
theorem test_witness_lines :
    (∀ l ∈ [ascii "a", [], ascii "b "], (0x0A : Byte) ∉ l ∧ l.getLast? ≠ some 0x0D) ∧
    splitLines (ascii "a\n\nb \nc") = [ascii "a", [], ascii "b ", ascii "c"] ∧
    splitLines (ascii "a\r\n\r") = [ascii "a", []] := by decide

/-- MnemonicsSelectOneOpcode: a prefix of four letters, a short name in full. -/
theorem test_witness_mnemonics : nameMatches (ascii "HALT") (ascii "HALTED") = true ∧
    nameMatches (ascii "LD") (ascii "LD") = true ∧
    nameMatches (ascii "LD") (ascii "LDX") = false ∧
    nameMatches (ascii "OUTB") (ascii "OUT") = false := by decide

/-- DirectivesPlaceTheirWords: what each clause says of a line, literals in and out of `int32` first. -/
theorem test_witness_directive_lines :
    inInt32 (literalValue (ascii "--") (ascii "2147483647")) = true ∧
    inInt32 (literalValue [] (ascii "2147483648")) = false ∧
    parseProgramLine 16 (ascii " .DATA --7 x") = .ok (.data [7] .staticNumeric) ∧
    parseProgramLine 16 (ascii ".DATA 2147483648") = .error ⟨none, .dataLiteral⟩ ∧
    parseProgramLine 16 (ascii ".DATA -x") = .error ⟨none, .dataLiteral⟩ ∧
    parseProgramLine 16 (ascii ".SDATA \"a b\" c")
      = .ok (.data [0x61, 0x20, 0x62] .staticChar) ∧
    parseProgramLine 16 (ascii ".SDATA \"a\x01\"") = .error ⟨none, .quoting⟩ ∧
    parseProgramLine 16 (ascii ".SDATA \"ab") = .error ⟨none, .quoting⟩ ∧
    parseProgramLine 16 (ascii ".SDATA ab") = .error ⟨none, .quoting⟩ ∧
    parseProgramLine 16 (ascii ".data 7") = .error ⟨none, .directive⟩ := by decide +kernel

/-- DirectivesPlaceTheirWords, its hypotheses on the parts of a line and the two sides of a full
store. -/
theorem test_witness_directive_parts :
    (ascii " \t").all isBlank = true ∧ (ascii "+-").all isSign = true ∧
    (∀ c ∈ (ascii "x").head?, isDigit c = false ∧ isSign c = false) ∧
    (∀ c ∈ (ascii "1").head?, c ≠ 0x22 ∧ isBlank c = false ∧ isLetter c = false) ∧
    (0x22 : Byte) ∉ ascii "Hi\t~" ∧ (ascii "Hi\t~").all isStringByte = true ∧
    (ascii "DATAX").all isLetter = true ∧ ascii "DATAX" ≠ ascii "DATA" ∧
    9999 ≤ mach.config.dc ∧ mach.config.dc < 9999 + [(1 : Word), 2].length ∧
    9998 + [(1 : Word), 2].length ≤ mach.config.dc := by decide

/-- DirectivesFillTheStoreFromSlotOne: a text of both directives with an instruction between them
places three words, which fit a store of four slots and not one of three. -/
theorem test_witness_directives_fill :
    let effects : List LineEffect := [.data [7] .staticNumeric, .instr 0 (.halt 0 0 0) [],
      .data [0x41, 0x42] .staticChar]
    (splitLines (ascii ".DATA 7\n0: HALT 0,0,0\n.SDATA \"AB\"")).map (parseProgramLine 16)
      = effects.map .ok ∧
    (effects.flatMap placedWords).length = 3 ∧
    Config.valid ⟨16, 4, 7⟩ = true ∧ Config.valid ⟨16, 3, 7⟩ = true := by
  refine ⟨by decide +kernel, by decide, by decide, by decide⟩

/-- FailingLineHasNoEffect, with an empty and a non-empty text before the failing line. -/
theorem test_witness_failing_line :
    splitLines (ascii ".DATA 7\n.FOO\n.DATA 9") = [ascii ".DATA 7"] ++ ascii ".FOO" :: [ascii ".DATA 9"] ∧
    (loadLines [ascii ".DATA 7"] 1 1 mach.fullReset).loadResult = some .ok ∧
    (loadLines ([ascii ".DATA 7"] ++ [ascii ".FOO"]) 1 1 mach.fullReset).loadResult
      = some (.error ⟨some 2, none, .directive⟩) ∧
    (loadLines [] 1 1 mach.fullReset).loadResult = some .ok ∧
    (loadLines ([] ++ [ascii ".FOO"]) 1 1 mach.fullReset).loadResult
      = some (.error ⟨some 1, none, .directive⟩) := by decide +kernel

/-- SpelledInstructionLoadsBack: the last slot, with and without a comment. -/
theorem test_witness_spelled : mach.config.valid = true ∧ 15 < mach.config.ic ∧
    (0x0A : Byte) ∉ ascii " loop" ∧ (ascii " loop").getLast? ≠ some 0x0D ∧
    (∀ c ∈ (ascii " loop").head?, isDigit c = false) ∧
    ([] : List Byte).getLast? ≠ some 0x0D ∧
    spellLine 5 (.jgt 1 (BitVec.ofInt 32 (-4)) 7) (ascii " loop") = ascii "5: JGT 1,-4(7) loop" := by
  decide

/-- BulkRunStopsAtTheFirstResult: a run that uses all its calls, one that ends before, one that blocks
and one that is refused. -/
theorem test_witness_bulk : (runUntilHalt 1 runsLdc).ending = .returned .ok ∧
    (runUntilHalt 2 runsLdc).ending = .returned .halted ∧ (runUntilHalt 2 runsLdc).calls = 2 ∧
    (runUntilHalt 9 (fetching 0 0x0101000000000000 mach)).ending = .waits 8 ∧
    (runUntilHalt 9 (fetching 0 0x0B00000000000000 mach)).ending
      = .refused (.invalidWord 0x0B00000000000000) ∧
    runsLdc.waiting = none ∧ runsLdc.pendingRun = none := by decide

/-- BlockedRunGoesOnAsIfFedBefore: a run of nine calls that blocks in its first. -/
theorem test_witness_blocked_run : (fetching 0 0x0101000000000000 mach).waiting = none ∧
    hostCall (.runUntilHalt 9) (fetching 0 0x0101000000000000 mach)
      = ((hostCall (.runUntilHalt 9) (fetching 0 0x0101000000000000 mach)).1, .blocked) := by
  refine ⟨rfl, rfl⟩

/-- HostAccessorsReachOnePlace: the edges of both ranges. -/
theorem test_witness_host : mach.waiting = none ∧ (0 : Int) = ((0 : Reg).val : Int) ∧
    (7 : Int) = ((7 : Reg).val : Int) ∧ 0 < mach.config.dc ∧ 9999 < mach.config.dc ∧
    hostReg? (-1) = none ∧ hostReg? 8 = none ∧
    hostAddress? mach.config.dc (-1) = none ∧ hostAddress? mach.config.dc 10000 = none ∧
    hostAddress? mach.config.dc 9999 = some 9999 := by decide

/-- ProgramRunHasOneEnd: the run of a program that prints, reads and halts ends with `HALTED` after
three steps, its host feeding one line while the run waits. -/
theorem test_run_ends : ∃ t, RunEndsWith (ascii "0: OUTNL 0,0,0\n1: IN 1,0,0") mach
    [.line (ascii "9")] 3 .halted t [0x0A] :=
  ⟨_, by decide +kernel, by decide, ⟨9, rfl⟩, by decide +kernel⟩

end Sys2Proof.Tests
end

/-! # Proofs of the statements about the state (10_state.md) -/

namespace Sys2Proof.Machine

/-! ## Parameters in range and the reset contents of the data store -/

theorem Config.valid_iff (c : Config) :
    c.valid = true ↔ (1 ≤ c.ic ∧ c.ic ≤ 2147483647) ∧ 1 ≤ c.dc ∧ c.dc ≤ 2147483647 := by
  simp [Config.valid]

/-- R31: a data capacity in range fits in a word, so slot 0 reads as `DC - 1` without wrapping. -/
theorem resetDataSlot_zero_toInt {c : Config} (hc : c.valid = true) :
    (resetDataSlot c 0).word.toInt = (c.dc : Int) - 1 := by
  obtain ⟨-, hlow, hhigh⟩ := (Config.valid_iff c).mp hc
  have hsmall : (c.dc - 1) % 2 ^ 32 = c.dc - 1 := Nat.mod_eq_of_lt (by omega)
  simp only [resetDataSlot, if_true, BitVec.toInt_eq_toNat_cond, BitVec.toNat_ofNat, hsmall]
  rw [if_pos (by omega)]
  omega

theorem resetDataSlot_of_ne_zero (c : Config) {a : Nat} (ha : a ≠ 0) :
    resetDataSlot c a = ⟨0, .unused⟩ := by
  simp [resetDataSlot, ha]

/-! ## Full reset and power-on (R40, R42) -/

/-- A state that has its registers 0, both stores empty, no breakpoint and the counter 0 has every
value of the table. -/
theorem fullResetValues_of_cleared {t : State} (hc : t.config.valid = true)
    (hregs : t.regs = Vector.replicate 8 0) (himem : t.imem = []) (hdmem : t.dmem = [])
    (hbp : t.bp = .none) (hicount : t.icount = 0) : FullResetValues t.config t := by
  have hreg (r : Reg) : t.readReg r = 0 := by simp [State.readReg, hregs]
  have hdata (a : Nat) : t.dataSlot a = resetDataSlot t.config a := by simp [State.dataSlot, hdmem]
  exact {
    config := rfl
    regs := hreg
    pc := hreg _
    instrs := fun a => by
      rw [State.instrSlot, himem, show encode (.halt 0 0 0) = 0 by decide]
      rfl
    slotZero := by rw [hdata, resetDataSlot_zero_toInt hc]
    words := fun a ha => by rw [hdata, resetDataSlot_of_ne_zero _ ha]
    tags := fun a => by rw [hdata]; rfl
    bp := hbp
    icount := hicount }

theorem fullResetValues_powerOn {c : Config} (hc : c.valid = true) :
    FullResetValues c (State.powerOn c) :=
  fullResetValues_of_cleared (t := State.powerOn c) hc rfl rfl rfl rfl rfl

theorem Config.default_valid : Config.default.valid = true := by decide

/-- Settles O1: full reset, power-on and `State.reset` all clear the same pieces of state. -/
theorem fullResetAndPowerOnGiveTheTableValues :
    Obligations.FullResetAndPowerOnGiveTheTableValues :=
  ⟨fun m hc => fullResetValues_of_cleared (t := m.fullReset) hc rfl rfl rfl rfl rfl,
    fun _ hc => fullResetValues_powerOn hc, fullResetValues_powerOn Config.default_valid, rfl, rfl⟩

/-! ## The invariant at power-on -/

/-- What the invariant says, part by part. -/
theorem State.wf_iff (m : State) : m.wf = true ↔
    m.config.valid = true ∧ m.imemWf = true ∧ m.dmemWf = true ∧ m.waitWf = true := by
  simp [State.wf, and_assoc]

/-- A power-on state lists no slot and waits for nothing. -/
theorem State.powerOn_wf {c : Config} (hc : c.valid = true) : (State.powerOn c).wf = true :=
  (State.powerOn c).wf_iff.mpr ⟨hc, rfl, rfl, rfl⟩

/-- Settles O45: `State.reset` is the power-on state for the default parameters. -/
theorem resetMeetsTheInvariant : Obligations.ResetMeetsTheInvariant :=
  ⟨State.powerOn_wf Config.default_valid, fun _ hc => State.powerOn_wf hc⟩

/-! ## Soft reset (R41) -/

theorem State.dmem_rising {m : State} (h : m.wf = true) : Memory.rising m.dmem = true := by
  obtain ⟨-, -, hdmem, -⟩ := m.wf_iff.mp h
  rw [State.dmemWf, Bool.and_eq_true] at hdmem
  exact ((Memory.wf_iff _ _).mp hdmem.1).1

theorem isStatic_dataSlot_tag_iff (m : State) (a : Nat) :
    isStatic (m.dataSlot a).tag = true ↔ SlotStatic m a := by
  unfold SlotStatic
  cases (m.dataSlot a).tag <;> simp [isStatic]

/-- The data store after a soft reset, slot by slot. -/
theorem State.dataSlot_softReset {m : State} (h : m.wf = true) (a : Nat) :
    m.softReset.dataSlot a =
      if isStatic (m.dataSlot a).tag = true then m.dataSlot a else resetDataSlot m.config a :=
  Memory.read_filter _ _ (State.dmem_rising h) a

theorem State.dataSlot_softReset_static {m : State} (h : m.wf = true) {a : Nat}
    (ha : SlotStatic m a) : m.softReset.dataSlot a = m.dataSlot a := by
  rw [State.dataSlot_softReset h, if_pos ((isStatic_dataSlot_tag_iff m a).mpr ha)]

theorem State.dataSlot_softReset_not_static {m : State} (h : m.wf = true) {a : Nat}
    (ha : ¬ SlotStatic m a) : m.softReset.dataSlot a = resetDataSlot m.config a := by
  rw [State.dataSlot_softReset h, if_neg (mt (isStatic_dataSlot_tag_iff m a).mp ha)]

/-- Settles O2: a slot that is not static reads as after a full reset, every other one as before. -/
theorem softResetKeepsOnlyStaticData : Obligations.SoftResetKeepsOnlyStaticData := by
  intro m h
  obtain ⟨hvalid, -⟩ := m.wf_iff.mp h
  refine ⟨m.readReg_softReset, m.instrSlot_softReset,
    fun a => State.dataSlot_softReset_static h, fun a hs ha => ?_, fun hs => ?_, rfl, rfl⟩
  · rw [State.dataSlot_softReset_not_static h hs, resetDataSlot_of_ne_zero _ ha]
  · rw [State.dataSlot_softReset_not_static h hs]
    exact ⟨resetDataSlot_zero_toInt hvalid, rfl⟩

/-! ## Registers and the program counter (R22, R24) -/

/-- A meaning writes no register that its instruction does not name as a destination. -/
theorem exec_readReg_other {i : Instr} {m t : State} (h : exec i m = .next t) {q : Reg}
    (hq : q ∉ Instr.regsWritten m.config.pcIndex i) : t.readReg q = m.readReg q := by
  rcases exec_cases h with ⟨_, _, rfl⟩ | ⟨r, v, _, hr, rfl⟩ | ⟨_, _, _, _, _, rfl⟩ | ⟨_, _, rfl⟩ |
    ⟨request, _, hdest, rfl⟩
  case inl | inr.inr.inl | inr.inr.inr.inl => rfl
  case inr.inl =>
    exact m.readReg_writeReg_other v (ne_of_mem_of_not_mem hr hq).symm
  case inr.inr.inr.inr =>
    exact readInput_readReg_other m (ne_of_mem_of_not_mem hdest hq).symm

/-- Settles O42, by the shapes an instruction's meaning can have. -/
theorem unnamedRegistersAreUnchanged : Obligations.UnnamedRegistersAreUnchanged :=
  fun _ _ _ h _ hq => exec_readReg_other h hq

/-- Settles O12: the frame sets the program counter to `pc0 + 1` and the meaning leaves it there. -/
theorem successorIsSequentialUnlessWritten : Obligations.SuccessorIsSequentialUnlessWritten := by
  intro m t i hruns hpc hstep
  rw [hruns.step_eq_exec] at hstep
  obtain ⟨hconfig, -⟩ := exec_fields hstep
  have hframe : m.rearm.advance.config = m.config := by simp
  calc t.pc = t.readReg m.config.pcIndex := by rw [State.pc, hconfig, hframe]
    _ = m.rearm.advance.readReg m.config.pcIndex := exec_readReg_other hstep (by rwa [hframe])
    _ = m.pc + 1 := m.readReg_frame_pc

/-! ## What a step does to the counter, the instruction store and the parameters -/

/-- A step that answers executes an instruction in the frame, or executes none and leaves the
parameters, the instruction store and the counter alone. -/
theorem step_runs_or_keeps {m t : State} (h : step m = .next t) :
    (∃ i, Runs m i ∧ exec i m.rearm.advance = .next t) ∨
    ((¬ ∃ i, Runs m i) ∧ t.config = m.config ∧ t.imem = m.imem ∧ t.icount = m.icount) := by
  rcases step_cases m h with ⟨q, hw, rfl⟩ | ⟨_, hr, rfl⟩ | ⟨_, _, hb, rfl⟩ | ⟨i, hw, hr, hb, hd, he⟩
  · obtain ⟨hconfig, himem, -, -, hicount, -⟩ := readInput_fields q m
    refine .inr ⟨fun ⟨_, hruns⟩ => ?_, hconfig, himem, hicount⟩
    cases hw.symm.trans hruns.idle
  · refine .inr ⟨fun ⟨_, hruns⟩ => ?_, rfl, rfl, rfl⟩
    cases hr.symm.trans hruns.instrInRange
  · exact .inr ⟨fun ⟨_, hruns⟩ => hruns.noBreak hb, rfl, rfl, rfl⟩
  · exact .inl ⟨i, ⟨hw, (m.instrInRange_iff _).mp hr, hb, hd⟩, he⟩

/-- Settles O13: the frame of an executed instruction counts one, and nothing else counts. -/
theorem counterCountsFetchedInstructions : Obligations.CounterCountsFetchedInstructions := by
  intro m t h
  rcases step_runs_or_keeps h with ⟨i, hruns, hexec⟩ | ⟨hnot, -, -, hicount⟩
  · obtain ⟨-, -, -, hicount, -⟩ := exec_fields hexec
    exact ⟨fun _ => by simpa using hicount, fun hnot => absurd ⟨i, hruns⟩ hnot⟩
  · exact ⟨fun hruns => absurd hruns hnot, fun _ => hicount⟩

theorem step_keeps_config_imem {m t : State} (h : step m = .next t) :
    t.config = m.config ∧ t.imem = m.imem := by
  rcases step_runs_or_keeps h with ⟨i, -, hexec⟩ | ⟨-, hconfig, himem, -⟩
  · obtain ⟨hconfig, himem, -⟩ := exec_fields hexec
    exact ⟨by simpa using hconfig, by simpa using himem⟩
  · exact ⟨hconfig, himem⟩

/-- Settles O41: an instruction slot reads from the instruction store, which no step writes. -/
theorem stepNeverWritesTheInstructionStore : Obligations.StepNeverWritesTheInstructionStore := by
  intro m t h
  obtain ⟨hconfig, himem⟩ := step_keeps_config_imem h
  exact ⟨fun a => by rw [State.instrSlot, himem, State.instrSlot], hconfig⟩

end Sys2Proof.Machine

/-! # Proofs of the statements about memory and the console (20_memory.md) -/

namespace Sys2Proof.Machine

/-! ## What moves the console channels (R61, R201, R334, R335) -/

theorem isOutput_iff (i : Instr) :
    IsOutput i ↔ i.opcode ∈ [Opcode.out, .outb, .outc, .outnl] := by
  cases i <;> simp [IsOutput, Instr.opcode]

theorem exists_asksFor_iff (i : Instr) :
    (∃ q, AsksFor i q) ↔ i.opcode ∈ [Opcode.in_, .inb] := by
  cases i <;> simp [AsksFor, Instr.opcode]

/-- The input operation takes the oldest line, or none. -/
theorem readInput_input (q : InputRequest) (m : State) :
    SameInput m (readInput q m) ∨
    ∃ line rest, m.inputLines = line :: rest ∧ LineTaken line rest m (readInput q m) := by
  rcases readInput_cases m q with ⟨line, rest, _, _, hlines, _, h⟩ | ⟨line, rest, hlines, _, h⟩ |
    ⟨_, _, h⟩ | ⟨_, _, h⟩ <;> rw [h]
  case inl | inr.inl => exact .inr ⟨line, rest, hlines, ⟨rfl, rfl, rfl⟩⟩
  case inr.inr.inl | inr.inr.inr => exact .inl ⟨rfl, rfl, rfl⟩

/-- What a meaning does to the console: nothing, bytes from an output instruction, or the input
operation of an input instruction. -/
theorem exec_console {i : Instr} {m t : State} (h : exec i m = .next t) :
    SameConsole m t ∨
    (IsOutput i ∧ SameInput m t ∧ ∃ bytes, t.output = m.output ++ bytes) ∨
    ∃ q, AsksFor i q ∧ t = readInput q m := by
  rcases exec_cases h with ⟨r, _, rfl⟩ | ⟨q, v, _, _, rfl⟩ | ⟨r, d, s, _, _, rfl⟩ |
    ⟨bytes, hout, rfl⟩ | ⟨q, hasks, _, rfl⟩
  · exact .inl (sameConsole_finish _ _)
  · exact .inl (sameConsole_writeReg _ _ _ _)
  · exact .inl (sameConsole_memWrite _ _ _ _ _)
  · exact .inr (.inl ⟨hout, ⟨rfl, rfl, rfl⟩, bytes, rfl⟩)
  · exact .inr (.inr ⟨q, hasks, rfl⟩)

/-- A meaning prints only as an output instruction. -/
theorem exec_output {i : Instr} {m t : State} (h : exec i m = .next t) :
    ∃ bytes, t.output = m.output ++ bytes ∧
      (bytes ≠ [] → i.opcode ∈ [Opcode.out, .outb, .outc, .outnl]) := by
  rcases exec_console h with hsame | ⟨hout, -, bytes, hbytes⟩ | ⟨q, -, rfl⟩
  · exact ⟨[], by simp [hsame.output], by simp⟩
  · exact ⟨bytes, hbytes, fun _ => (isOutput_iff i).mp hout⟩
  · obtain ⟨-, -, -, -, -, -, houtput, -⟩ := readInput_fields q m
    exact ⟨[], by simp [houtput], by simp⟩

/-- A meaning takes a line only as an input instruction. -/
theorem exec_input {i : Instr} {m t : State} (h : exec i m = .next t) :
    SameInput m t ∨
    ∃ line rest, m.inputLines = line :: rest ∧ LineTaken line rest m t ∧
      i.opcode ∈ [Opcode.in_, .inb] := by
  rcases exec_console h with hsame | ⟨-, hinput, -⟩ | ⟨q, hasks, rfl⟩
  · exact .inl hsame.input
  · exact .inl hinput
  · refine (readInput_input q m).imp_right fun ⟨line, rest, hlines, htaken⟩ => ?_
    exact ⟨line, rest, hlines, htaken, (exists_asksFor_iff i).mp ⟨q, hasks⟩⟩

theorem sameConsole_frame (m : State) : SameConsole m m.rearm.advance :=
  ⟨⟨by simp, by simp, by simp⟩, by simp⟩

/-- Settles O44: the frame and a step that stops in it leave the console alone; what is left is the
input operation of a blocked step and the meaning of an executed instruction. -/
theorem consoleMovesOnlyByItsInstructions : Obligations.ConsoleMovesOnlyByItsInstructions := by
  intro m t h
  rcases step_cases m h with ⟨q, hw, rfl⟩ | ⟨_, _, rfl⟩ | ⟨_, _, _, rfl⟩ | ⟨i, hw, hr, hb, hd, he⟩
  case inl =>
    obtain ⟨-, -, -, -, -, hended, houtput, -⟩ := readInput_fields q m
    refine ⟨⟨[], by simp [houtput], by simp⟩, hended, ?_⟩
    rcases readInput_input q m with hsame | ⟨line, rest, hlines, htaken⟩
    · exact .inl ⟨hsame.lines, hsame.taken⟩
    · exact .inr ⟨line, by rw [hlines, htaken.lines], htaken.taken, .inl (by simp [hw])⟩
  case inr.inl | inr.inr.inl => exact ⟨⟨[], by simp, by simp⟩, rfl, .inl ⟨rfl, rfl⟩⟩
  case inr.inr.inr =>
    have hruns : Runs m i := ⟨hw, (m.instrInRange_iff _).mp hr, hb, hd⟩
    have hframe := sameConsole_frame m
    obtain ⟨bytes, houtput, hprints⟩ := exec_output he
    obtain ⟨-, -, -, -, hended, -⟩ := exec_fields he
    refine ⟨⟨bytes, hframe.output ▸ houtput, fun hne => ⟨i, hruns, hprints hne⟩⟩,
      hended.trans hframe.input.ended, ?_⟩
    rcases exec_input he with hsame | ⟨line, rest, hlines, htaken, hreads⟩
    · exact .inl ⟨hsame.lines.trans hframe.input.lines, hsame.taken.trans hframe.input.taken⟩
    · refine .inr ⟨line, ?_, ?_, .inr ⟨i, hruns, hreads⟩⟩
      · rw [htaken.lines, ← hlines, hframe.input.lines]
      · rw [htaken.taken, hframe.input.taken]

end Sys2Proof.Machine

/-! # Proofs of the statements about the encoding (30_encoding.md) -/

namespace Sys2Proof

/-! ## An instruction and the record it is made of (R85) -/

theorem Instr.ofOperands_operands (i : Instr) :
    Instr.ofOperands i.opcode i.operand1 i.operand2 i.operand3 = i := by
  cases i <;> simp [Instr.ofOperands, Instr.opcode, Instr.operand1, Instr.operand2, Instr.operand3]

theorem operand2InRange_operand2 (i : Instr) :
    operand2InRange i.opcode.cls i.operand2 = true := by
  cases i <;> simp [operand2InRange, Instr.opcode, Opcode.cls, Instr.operand2, wordOfReg_lt]

@[simp] theorem Instr.opcode_ofOperands (op : Opcode) (a : Reg) (b : Word) (c : Reg) :
    (Instr.ofOperands op a b c).opcode = op := by
  cases op <;> rfl

@[simp] theorem Instr.operand1_ofOperands (op : Opcode) (a : Reg) (b : Word) (c : Reg) :
    (Instr.ofOperands op a b c).operand1 = a := by
  cases op <;> rfl

@[simp] theorem Instr.operand3_ofOperands (op : Opcode) (a : Reg) (b : Word) (c : Reg) :
    (Instr.ofOperands op a b c).operand3 = c := by
  cases op <;> rfl

theorem operand2InRange_iff (cls : OpClass) (b : Word) :
    operand2InRange cls b = true ↔ (cls = .rr → b.toNat < 8) := by
  cases cls <;> simp [operand2InRange]

/-- A record's operand-2 is kept when it is in range for the class. -/
theorem Instr.operand2_ofOperands {op : Opcode} {b : Word} (hb : operand2InRange op.cls b = true)
    (a c : Reg) : (Instr.ofOperands op a b c).operand2 = b := by
  rw [operand2InRange_iff] at hb
  cases op
  case ld | st | lda | ldc | jlt | jle | jgt | jge | jeq | jne => rfl
  all_goals exact wordOfReg_regOfWord (hb rfl)

/-! ## The decoder and the encoder are inverse to each other (R90) -/

/-- The canonical word of an instruction passes every check of the decoder. -/
theorem decode_encode (i : Instr) : decode (encode i) = .ok i := by
  refine (decode_ok_iff _ _).mpr ⟨i.opcode, i.operand1, i.operand3, ?_⟩
  rw [fieldsOf_encode]
  exact ⟨i.opcode.ofNumber?_number, regOfNat?_val _, regOfNat?_val _, rfl,
    operand2InRange_operand2 i, i.ofOperands_operands.symm⟩

/-- Settles O3: the fields of the packed word are the operands it was packed from. -/
theorem decodeOfEncodeIsTheInstruction : Obligations.DecodeOfEncodeIsTheInstruction :=
  decode_encode

theorem ofNat_eq_of_regOfNat? {x : BitVec 8} {r : Reg} (h : regOfNat? x.toNat = some r) :
    BitVec.ofNat 8 r.val = x := by
  rw [← val_of_regOfNat? h, BitVec.ofNat_toNat, BitVec.setWidth_eq]

/-- A word that decodes has the fields of the encoded instruction. -/
theorem encode_of_decode {w : InstrWord} {i : Instr} (h : decode w = .ok i) : encode i = w := by
  obtain ⟨op, a, c, hop, ha, hc, hzero, hb, rfl⟩ := (decode_ok_iff w i).mp h
  refine eq_of_fieldsOf_eq ?_
  rw [fieldsOf_encode, Instr.opcode_ofOperands, Instr.operand1_ofOperands,
    Instr.operand3_ofOperands, Instr.operand2_ofOperands hb, ← Opcode.number_of_ofNumber? hop,
    ofNat_eq_of_regOfNat? ha, ofNat_eq_of_regOfNat? hc, ← hzero]

/-- Settles O4: the checks of the decoder leave no bit of the word free. -/
theorem encodeOfDecodeIsTheWord : Obligations.EncodeOfDecodeIsTheWord :=
  fun _ _ => encode_of_decode

/-! ## Which words decode (R81, R83, R88) -/

/-- The opcode numbers of the table are the defined ones. -/
theorem opcodeDefined_iff (f : WordFields) :
    f.opcodeDefined = true ↔ ∃ op, Opcode.ofNumber? f.op = some op := by
  constructor
  · have hdefined : ∀ n : BitVec 8, (⟨n, 0, 0, 0, 0⟩ : WordFields).opcodeDefined = true →
        (Opcode.ofNumber? n).isSome = true := by decide
    exact fun h => Option.isSome_iff_exists.mp (hdefined f.op h)
  · rintro ⟨op, hop⟩
    obtain ⟨n, a, c, zero, b⟩ := f
    obtain rfl : n = op.number := Opcode.number_of_ofNumber? hop
    exact opcodeDefined_number op a c zero b

theorem exists_regOfNat?_iff (n : Nat) : (∃ r, regOfNat? n = some r) ↔ n < 8 := by
  constructor
  · rintro ⟨r, h⟩
    rw [val_of_regOfNat? h]
    exact r.isLt
  · exact fun h => ⟨_, regOfNat?_lt h⟩

/-- Class RR is bit 4 of the opcode number (R83), so the two forms of the operand-2 check agree. -/
theorem operand2Ok_eq {f : WordFields} {op : Opcode} (h : Opcode.ofNumber? f.op = some op) :
    f.operand2Ok = operand2InRange op.cls f.b := by
  rw [WordFields.operand2Ok, Opcode.number_of_ofNumber? h]
  cases op <;> simp [operand2InRange, Opcode.cls, Opcode.number]

theorem Opcode.mem_all (op : Opcode) : op ∈ Opcode.all := by
  cases op <;> decide

theorem Opcode.ofNumber?_eq_some_iff (n : BitVec 8) (op : Opcode) :
    Opcode.ofNumber? n = some op ↔ n = op.number :=
  ⟨Opcode.number_of_ofNumber?, fun h => h ▸ op.ofNumber?_number⟩

/-- The checks of rule R81 for one opcode. -/
theorem exists_decode_opcode_iff (w : InstrWord) (op : Opcode) :
    (∃ i, decode w = .ok i ∧ i.opcode = op) ↔
    Opcode.ofNumber? (fieldsOf w).op = some op ∧ (fieldsOf w).a.toNat < 8 ∧
      (fieldsOf w).c.toNat < 8 ∧ (fieldsOf w).zero = 0 ∧
      operand2InRange op.cls (fieldsOf w).b = true := by
  rw [← exists_regOfNat?_iff, ← exists_regOfNat?_iff]
  constructor
  · rintro ⟨i, h, rfl⟩
    obtain ⟨op, a, c, hop, ha, hc, hzero, hb, rfl⟩ := (decode_ok_iff w i).mp h
    rw [Instr.opcode_ofOperands]
    exact ⟨hop, ⟨a, ha⟩, ⟨c, hc⟩, hzero, hb⟩
  · rintro ⟨hop, ⟨a, ha⟩, ⟨c, hc⟩, hzero, hb⟩
    exact ⟨_, (decode_ok_iff w _).mpr ⟨op, a, c, hop, ha, hc, hzero, hb, rfl⟩,
      Instr.opcode_ofOperands op a _ c⟩

theorem exists_decode_iff_wellFormed (w : InstrWord) :
    (∃ i, decode w = .ok i) ↔ (fieldsOf w).wellFormed = true := by
  simp only [WordFields.wellFormed, Bool.and_eq_true, opcodeDefined_iff, WordFields.operand1Ok,
    WordFields.operand3Ok, WordFields.reservedOk, decide_eq_true_eq]
  constructor
  · rintro ⟨i, h⟩
    obtain ⟨hop, ha, hc, hzero, hb⟩ := (exists_decode_opcode_iff w i.opcode).mp ⟨i, h, rfl⟩
    exact ⟨⟨⟨⟨⟨_, hop⟩, ha⟩, hc⟩, hzero⟩, (operand2Ok_eq hop).trans hb⟩
  · rintro ⟨⟨⟨⟨⟨op, hop⟩, ha⟩, hc⟩, hzero⟩, hb⟩
    obtain ⟨i, h, -⟩ := (exists_decode_opcode_iff w op).mpr
      ⟨hop, ha, hc, hzero, (operand2Ok_eq hop).symm.trans hb⟩
    exact ⟨i, h⟩

theorem decode_eq_error_opcode_iff (w : InstrWord) :
    decode w = .error .opcode ↔ (fieldsOf w).opcodeDefined = false := by
  rw [← Bool.not_eq_true, opcodeDefined_iff]
  unfold decode
  simp only
  split
  · next h => simp [h]
  · next op h => split <;> [split; skip] <;> simp [h]

/-! ## The masks of the table (R81) -/

theorem fieldsOf_and (w v : InstrWord) : fieldsOf (w &&& v) =
    ⟨(fieldsOf w).op &&& (fieldsOf v).op, (fieldsOf w).a &&& (fieldsOf v).a,
      (fieldsOf w).c &&& (fieldsOf v).c, (fieldsOf w).zero &&& (fieldsOf v).zero,
      (fieldsOf w).b &&& (fieldsOf v).b⟩ := by
  simp [fieldsOf, BitVec.extractLsb'_and]

theorem fieldsOf_number (op : Opcode) :
    fieldsOf (op.number.setWidth 64 <<< 56) = ⟨op.number, 0, 0, 0, 0⟩ := by
  cases op <;> decide

/-- Masking away the low three bits of a field leaves nothing exactly when it is below 8. -/
theorem and_allOnes_shiftLeft_eq_zero_iff {n : Nat} (x : BitVec n) :
    x &&& (BitVec.allOnes n <<< 3) = 0 ↔ x.toNat < 8 := by
  have hshift : x &&& (BitVec.allOnes n <<< 3) = x >>> 3 <<< 3 := by
    ext i hi
    by_cases h3 : i < 3
    · simp [h3]
    · simp [h3, hi, BitVec.getLsbD_eq_getElem, show 3 + (i - 3) = i by omega]
  rw [hshift, ← BitVec.toNat_inj]
  have hlow : x.toNat / 8 * 8 < 2 ^ n := by have := x.isLt; omega
  have hshifted : (x >>> 3 <<< 3).toNat = x.toNat / 8 * 8 := by
    rw [BitVec.toNat_shiftLeft, BitVec.toNat_ushiftRight, Nat.shiftLeft_eq,
      Nat.shiftRight_eq_div_pow]
    exact Nat.mod_eq_of_lt hlow
  rw [hshifted, BitVec.ofNat_eq_ofNat, BitVec.toNat_zero]
  omega

/-- The mask of a class (R81): the opcode number, the reserved byte, all but the low three bits of
the register bytes and, in class RR, of operand-2. -/
theorem fieldsOf_mask (cls : OpClass) :
    fieldsOf (if cls = .rr then 0xFFF8F8FFFFFFFFF8#64 else 0xFFF8F8FF00000000#64) =
      ⟨BitVec.allOnes 8, BitVec.allOnes 8 <<< 3, BitVec.allOnes 8 <<< 3, BitVec.allOnes 8,
        if cls = .rr then BitVec.allOnes 32 <<< 3 else 0⟩ := by
  cases cls <;> decide

theorem and_class_mask_eq_zero_iff (cls : OpClass) (b : Word) :
    b &&& (if cls = .rr then BitVec.allOnes 32 <<< 3 else 0) = 0 ↔
      operand2InRange cls b = true := by
  cases cls with
  | rr => simpa [operand2InRange] using and_allOnes_shiftLeft_eq_zero_iff b
  | rm | ra => simp [operand2InRange]

/-- Matching a row of the table, field by field. -/
theorem matches_mask_iff (w : InstrWord) (op : Opcode) :
    w &&& (if op.cls = .rr then 0xFFF8F8FFFFFFFFF8#64 else 0xFFF8F8FF00000000#64)
      = op.number.setWidth 64 <<< 56 ↔
    (fieldsOf w).op = op.number ∧ (fieldsOf w).a.toNat < 8 ∧ (fieldsOf w).c.toNat < 8 ∧
      (fieldsOf w).zero = 0 ∧ operand2InRange op.cls (fieldsOf w).b = true := by
  rw [← and_class_mask_eq_zero_iff, ← and_allOnes_shiftLeft_eq_zero_iff,
    ← and_allOnes_shiftLeft_eq_zero_iff]
  calc _ ↔ fieldsOf (w &&& _) = fieldsOf (op.number.setWidth 64 <<< 56) :=
        ⟨congrArg fieldsOf, eq_of_fieldsOf_eq⟩
    _ ↔ _ := by
      rw [fieldsOf_and, fieldsOf_mask, fieldsOf_number, WordFields.mk.injEq,
        BitVec.and_allOnes, BitVec.and_allOnes]

/-- Settles O6: the decoder's checks are the fields of the mask. -/
theorem wordsMatchTheTableMasks : Obligations.WordsMatchTheTableMasks := by
  intro w op
  rw [exists_decode_opcode_iff, matches_mask_iff, Opcode.ofNumber?_eq_some_iff]

/-- Settles O7, by decoding the words. -/
theorem writtenOutWordsDecode : Obligations.WrittenOutWordsDecode := by
  unfold Obligations.WrittenOutWordsDecode
  decide

end Sys2Proof

namespace Sys2Proof.Machine

/-! ## Operands that are not read (R89) -/

/-- Settles O43: the meanings do not mention these operands. -/
theorem ignoredOperandsHaveNoEffect : Obligations.IgnoredOperandsHaveNoEffect :=
  fun _ _ _ _ _ _ _ _ => ⟨rfl, rfl, rfl, rfl, rfl, rfl, rfl, rfl⟩

/-! ## What an instruction can return (R87, R320 to R322) -/

theorem withDataCheck_answers (ea : Word) (effect m : State) :
    ∃ t, withDataCheck ea effect m = .next t := by
  unfold withDataCheck
  split <;> exact ⟨_, rfl⟩

/-- Every instruction has a meaning in every state. -/
theorem exec_answers (i : Instr) (m : State) : ∃ t, exec i m = .next t := by
  cases i with
  | div r s t =>
    simp only [exec, execDiv]
    split <;> exact ⟨_, rfl⟩
  | ld r d s | st r d s => exact withDataCheck_answers _ _ m
  | _ => exact ⟨_, rfl⟩

/-- The opcodes that can return a result (R320 to R322). -/
def resultOpcodes (r : StepResult) : List Opcode :=
  match r with
  | .ok => Opcode.all
  | .halted => [.halt, .in_, .inb]
  | .instructionFault => []
  | .dataFault => [.ld, .st]
  | .divideByZero => [.div]
  | .inputError => [.in_, .inb]

/-- A result that comes without any effect of the instruction is one of its opcode's. -/
theorem EndsWith.mem_resultOpcodes {i : Instr} {r : StepResult} (h : EndsWith i r) :
    i.opcode ∈ resultOpcodes r := by
  cases i with
  | halt | div | ld | st => cases h; simp [Instr.opcode, resultOpcodes]
  | jlt | jle | jgt | jge | jeq | jne => cases h; exact Opcode.mem_all _
  | _ => exact False.elim h

theorem mem_resultOpcodes_of_input {op : Opcode} {r : StepResult}
    (hop : op ∈ [Opcode.in_, .inb]) (hr : r ∈ [StepResult.ok, .halted, .inputError]) :
    op ∈ resultOpcodes r := by
  simp only [List.mem_cons, List.not_mem_nil, or_false] at hr
  rcases hr with rfl | rfl | rfl
  · exact op.mem_all
  · exact List.mem_cons_of_mem _ hop
  · exact hop

/-- The input operation returns `OK`, `HALTED` or `INPUT-ERROR`, or waits. -/
theorem readInput_result (q : InputRequest) (m : State) :
    (∃ r ∈ [StepResult.ok, .halted, .inputError], Returned (readInput q m) r) ∨
    ((readInput q m).waiting.isSome = true ∧ (readInput q m).result = none) := by
  rcases readInput_cases m q with ⟨_, _, _, haltFlag, _, _, h⟩ | ⟨_, _, _, _, h⟩ | ⟨_, _, h⟩ |
    ⟨_, _, h⟩ <;> rw [h]
  case inl => exact .inl ⟨_, by cases haltFlag <;> decide, State.finish_returned _ _⟩
  case inr.inl | inr.inr.inl => exact .inl ⟨.inputError, by decide, State.finish_returned _ _⟩
  case inr.inr.inr => exact .inr ⟨rfl, rfl⟩

/-- A meaning returns a result of its opcode, or is an input instruction that waits. -/
theorem exec_result {i : Instr} {m t : State} (h : exec i m = .next t) :
    (∃ r, Returned t r ∧ i.opcode ∈ resultOpcodes r) ∨
    (t.waiting.isSome = true ∧ t.result = none ∧ i.opcode ∈ [Opcode.in_, .inb]) := by
  rcases exec_cases h with ⟨r, hends, rfl⟩ | ⟨_, _, _, _, rfl⟩ | ⟨_, _, _, _, _, rfl⟩ |
    ⟨_, _, rfl⟩ | ⟨q, hasks, _, rfl⟩
  case inl => exact .inl ⟨r, State.finish_returned _ _, hends.mem_resultOpcodes⟩
  case inr.inl | inr.inr.inl | inr.inr.inr.inl =>
    exact .inl ⟨.ok, State.finish_returned _ _, Opcode.mem_all _⟩
  case inr.inr.inr.inr =>
    have hinput := (exists_asksFor_iff i).mp ⟨q, hasks⟩
    rcases readInput_result q m with ⟨r, hr, hreturned⟩ | ⟨hwaiting, hresult⟩
    · exact .inl ⟨r, hreturned, mem_resultOpcodes_of_input hinput hr⟩
    · exact .inr ⟨hwaiting, hresult, hinput⟩

/-- Settles O39: the results that name an opcode are those of the table of results. -/
theorem everyInstructionAnswersWithItsResults :
    Obligations.EveryInstructionAnswersWithItsResults := by
  intro i m
  obtain ⟨t, h⟩ := exec_answers i m
  refine ⟨t, h, ?_⟩
  rcases exec_result h with ⟨r, hreturned, hop⟩ | ⟨hwaiting, hnone, hop⟩
  · have hresult := hreturned.1
    refine ⟨.inl ⟨r, hreturned⟩, ?_⟩
    rw [hresult]
    cases r with
    | ok => simp
    | instructionFault => cases hop
    | _ => simpa [resultOpcodes] using hop
  · simp [hwaiting, hnone, hop]

/-! ## The stores of the invariant (R25, R29, R30, R87) -/

theorem wordDecodes_iff (w : InstrWord) : wordDecodes w = true ↔ ∃ i, decode w = .ok i := by
  unfold wordDecodes
  cases decode w <;> simp [Except.toOption]

theorem wordDecodes_encode (i : Instr) : wordDecodes (encode i) = true :=
  (wordDecodes_iff _).mpr ⟨i, decode_encode i⟩

theorem wordDecodes_resetInstrSlot (a : Nat) : wordDecodes (resetInstrSlot a).word = true :=
  wordDecodes_encode (.halt 0 0 0)

theorem State.imemWf_iff (m : State) : m.imemWf = true ↔
    Memory.wf resetInstrSlot m.imem = true ∧
    ∀ e ∈ m.imem, e.1 < m.config.ic ∧ wordDecodes e.2.word = true := by
  simp [State.imemWf]

theorem State.dmemWf_iff (m : State) : m.dmemWf = true ↔
    Memory.wf (resetDataSlot m.config) m.dmem = true ∧
    ∀ e ∈ m.dmem, e.1 < m.config.dc ∧ tagInRange m.config.ic e.2.tag = true := by
  simp [State.dmemWf]

/-- What the invariant says of the two stores, for parameters `c`. A step needs no more of the state
it starts from, and no operation needs the parameters to be in range. -/
structure StoresWf (c : Config) (m : State) : Prop where
  config : m.config = c
  imem : m.imemWf = true
  dmem : m.dmemWf = true

section
variable {c : Config} {m t : State}

/-- An update of anything but the parameters and the stores keeps what is said of them. -/
theorem StoresWf.congr (h : StoresWf c m) (hconfig : t.config = m.config) (himem : t.imem = m.imem)
    (hdmem : t.dmem = m.dmem) : StoresWf c t where
  config := hconfig.trans h.config
  imem := by rw [State.imemWf, himem, hconfig]; exact h.imem
  dmem := by rw [State.dmemWf, hdmem, hconfig]; exact h.dmem

theorem StoresWf.writeReg (h : StoresWf c m) (r : Reg) (v : Word) : StoresWf c (m.writeReg r v) :=
  h.congr rfl rfl rfl

theorem StoresWf.emit (h : StoresWf c m) (bytes : List Byte) : StoresWf c (m.emit bytes) :=
  h.congr rfl rfl rfl

theorem StoresWf.disarm (h : StoresWf c m) : StoresWf c m.disarm :=
  h.congr rfl rfl rfl

theorem StoresWf.frame (h : StoresWf c m) : StoresWf c m.rearm.advance :=
  h.congr (by simp) (by simp) (by simp)

theorem StoresWf.setInstrSlot (h : StoresWf c m) {a : Nat} {v : InstrSlot} (ha : a < c.ic)
    (hv : wordDecodes v.word = true) : StoresWf c (m.setInstrSlot a v) where
  config := h.config
  imem := by
    obtain ⟨hwf, hall⟩ := m.imemWf_iff.mp h.imem
    refine (State.imemWf_iff _).mpr ⟨Memory.wf_write _ a v hwf, fun e he => ?_⟩
    rcases Memory.mem_write _ he with rfl | he
    · exact ⟨h.config ▸ ha, hv⟩
    · exact hall e he
  dmem := h.dmem

theorem StoresWf.setDataSlot (h : StoresWf c m) {a : Nat} {v : DataSlot} (ha : a < c.dc)
    (hv : tagInRange c.ic v.tag = true) : StoresWf c (m.setDataSlot a v) where
  config := h.config
  imem := h.imem
  dmem := by
    obtain ⟨hwf, hall⟩ := m.dmemWf_iff.mp h.dmem
    refine (State.dmemWf_iff _).mpr ⟨Memory.wf_write _ a v hwf, fun e he => ?_⟩
    rcases Memory.mem_write _ he with rfl | he
    · exact ⟨h.config ▸ ha, h.config ▸ hv⟩
    · exact hall e he

/-- Every instruction slot decodes, listed or not. -/
theorem StoresWf.instrSlot_decodes (h : StoresWf c m) (a : Nat) :
    ∃ i, decode (m.instrSlot a).word = .ok i := by
  obtain ⟨-, hall⟩ := m.imemWf_iff.mp h.imem
  rw [← wordDecodes_iff]
  rcases Memory.read_mem_or_default resetInstrSlot m.imem a with hmem | hdefault
  · exact (hall _ hmem).2
  · rw [State.instrSlot, hdefault]
    exact wordDecodes_resetInstrSlot a

/-- Every data slot has a tag in range, listed or not. -/
theorem StoresWf.dataSlot_tagInRange (h : StoresWf c m) (a : Nat) :
    tagInRange c.ic (m.dataSlot a).tag = true := by
  obtain ⟨-, hall⟩ := m.dmemWf_iff.mp h.dmem
  rcases Memory.read_mem_or_default (resetDataSlot m.config) m.dmem a with hmem | hdefault
  · rw [← h.config]
    exact (hall _ hmem).2
  · rw [State.dataSlot, hdefault]
    rfl

/-! ## The wait of the invariant (R200, R334) -/

theorem State.waitWf_of_idle (h : m.waiting = none) : m.waitWf = true := by
  simp [State.waitWf, h]

theorem State.waitWf_block (q : InputRequest) (hlines : m.inputLines = [])
    (hended : m.inputEnded = false) : (m.block q).waitWf = true := by
  simp [State.waitWf, State.block, hlines, hended]

/-- The input operation waits only when there is nothing to read. -/
theorem readInput_waitWf (q : InputRequest) (m : State) : (readInput q m).waitWf = true := by
  rcases readInput_cases m q with ⟨_, _, _, _, _, _, h⟩ | ⟨_, _, _, _, h⟩ | ⟨_, _, h⟩ |
    ⟨hlines, hended, h⟩ <;> rw [h]
  case inr.inr.inr => exact State.waitWf_block q hlines hended
  all_goals exact State.waitWf_of_idle rfl

/-! ## The invariant with the parameters named -/

/-- The invariant for parameters `c`, but for their ranges. -/
structure MeetsInvariant (c : Config) (m : State) : Prop where
  stores : StoresWf c m
  wait : m.waitWf = true

theorem wf_and_config_iff (c : Config) (m : State) :
    m.wf = true ∧ m.config = c ↔ c.valid = true ∧ MeetsInvariant c m := by
  rw [State.wf_iff]
  constructor
  · rintro ⟨⟨hvalid, himem, hdmem, hwait⟩, rfl⟩
    exact ⟨hvalid, ⟨rfl, himem, hdmem⟩, hwait⟩
  · rintro ⟨hvalid, ⟨rfl, himem, hdmem⟩, hwait⟩
    exact ⟨⟨hvalid, himem, hdmem, hwait⟩, rfl⟩

theorem MeetsInvariant.of_wf (h : m.wf = true) : MeetsInvariant m.config m :=
  ((wf_and_config_iff _ m).mp ⟨h, rfl⟩).2

theorem MeetsInvariant.wf (h : MeetsInvariant c m) (hvalid : c.valid = true) : m.wf = true :=
  ((wf_and_config_iff c m).mpr ⟨hvalid, h⟩).1

theorem StoresWf.meetsInvariant_of_idle (h : StoresWf c m) (hidle : m.waiting = none) :
    MeetsInvariant c m :=
  ⟨h, State.waitWf_of_idle hidle⟩

/-- A step that has returned waits for nothing. -/
theorem StoresWf.finish (h : StoresWf c m) (r : StepResult) : MeetsInvariant c (m.finish r) :=
  (h.congr rfl rfl rfl : StoresWf c (m.finish r)).meetsInvariant_of_idle rfl

/-! ## Every step keeps the invariant -/

theorem StoresWf.readInput (h : StoresWf c m) (q : InputRequest) :
    MeetsInvariant c (readInput q m) := by
  obtain ⟨hconfig, himem, hdmem, -⟩ := readInput_fields q m
  exact ⟨h.congr hconfig himem hdmem, readInput_waitWf q m⟩

/-- A meaning keeps the invariant when the instruction was fetched inside the store: `ST` checks its
address and tags the slot with its own. -/
theorem StoresWf.exec {i : Instr} (h : StoresWf c m) (hfetch : m.fetchAddress.toNat < c.ic)
    (hexec : exec i m = .next t) : MeetsInvariant c t := by
  rcases exec_cases hexec with ⟨_, _, rfl⟩ | ⟨_, _, _, _, rfl⟩ | ⟨r, d, s, _, hrange, rfl⟩ |
    ⟨_, _, rfl⟩ | ⟨q, _, _, rfl⟩
  case inl => exact h.finish _
  case inr.inl => exact (h.writeReg _ _).finish .ok
  case inr.inr.inr.inl => exact (h.emit _).finish .ok
  case inr.inr.inl =>
    have haddress : (m.effectiveAddress d s).toNat < c.dc :=
      h.config ▸ toNat_lt_of_toInt ((m.dataInRange_iff _).mp hrange)
    have hstored := h.setDataSlot (v := ⟨m.readReg r, .writer m.fetchAddress.toNat⟩) haddress
      (decide_eq_true hfetch)
    exact hstored.finish .ok
  case inr.inr.inr.inr => exact h.readInput q

/-- Every step that answers ends in the invariant, whatever it waited for. -/
theorem StoresWf.step (h : StoresWf c m) (hstep : step m = .next t) : MeetsInvariant c t := by
  rcases step_cases m hstep with ⟨q, _, rfl⟩ | ⟨_, _, rfl⟩ | ⟨_, _, _, rfl⟩ |
    ⟨i, _, hrange, _, _, hexec⟩
  case inl => exact h.readInput q
  case inr.inl => exact h.finish .instructionFault
  case inr.inr.inl => exact h.disarm.finish .halted
  case inr.inr.inr =>
    have hfetch : m.rearm.advance.fetchAddress.toNat < c.ic := by
      rw [State.fetchAddress_advance, State.pc_rearm, ← h.config]
      exact toNat_lt_of_toInt ((m.instrInRange_iff _).mp hrange)
    exact h.frame.exec hfetch hexec

/-! ## Every step answers (R87, R88) -/

theorem StoresWf.step_answers (h : StoresWf c m) : ∃ t, Machine.step m = .next t := by
  unfold Machine.step
  cases m.waiting with
  | some q => exact ⟨_, rfl⟩
  | none =>
    rcases beginCycle_cases m with ⟨_, hc⟩ | ⟨_, _, hc⟩ | ⟨_, _, hc⟩
    case inl | inr.inl => exact ⟨_, by rw [hc]⟩
    case inr.inr =>
      obtain ⟨i, hi⟩ : ∃ i, decode m.fetchWord = .ok i := h.instrSlot_decodes m.pc.toNat
      obtain ⟨t, ht⟩ := exec_answers i m.rearm.advance
      exact ⟨t, by simp only [hc, hi, ht]⟩

end

/-- Settles O46: a step needs only the stores, and leaves them and the wait well formed. -/
theorem stepKeepsTheInvariant : Obligations.StepKeepsTheInvariant :=
  fun m _ h hstep =>
    ((MeetsInvariant.of_wf h).stores.step hstep).wf (m.wf_iff.mp h).1

/-- Settles O47: every word the stores of the invariant give to a step decodes. -/
theorem wellFormedMachinesAnswer : Obligations.WellFormedMachinesAnswer :=
  fun _ h => (MeetsInvariant.of_wf h).stores.step_answers

section
variable {c : Config} {m t : State}

/-! ## A load keeps the invariant (R110, R118, R120 to R122) -/

/-- What the parser ensures of a line's effect: an instruction's address is below the capacity, and
words are tagged as static. -/
def LineEffect.InRange (ic : Nat) (e : LineEffect) : Prop :=
  match e with
  | .nothing => True
  | .data _ tag => isStatic tag = true
  | .instr address _ _ => address < ic

theorem parseString_inRange {ic : Nat} {bs : List Byte} {e : LineEffect}
    (h : parseString bs = .ok e) : e.InRange ic := by
  unfold parseString at h
  split at h
  · cases h
  · simp only at h
    split at h <;> cases h
    rfl

theorem parseDirective_inRange {ic : Nat} {bs : List Byte} {e : LineEffect}
    (h : parseDirective bs = .ok e) : e.InRange ic := by
  unfold parseDirective at h
  simp only at h
  split at h
  · split at h <;> cases h
    rfl
  · split at h
    · exact parseString_inRange h
    · cases h

theorem parseInstrLine_inRange {ic : Nat} {bs : List Byte} {e : LineEffect}
    (h : parseInstrLine ic bs = .ok e) : e.InRange ic := by
  unfold parseInstrLine at h
  simp only at h
  split at h
  · cases h
  · split at h
    · cases h
    · next hlt =>
      split at h <;> cases h
      exact Nat.lt_of_not_le hlt

theorem parseProgramLine_inRange {ic : Nat} {line : List Byte} {e : LineEffect}
    (h : parseProgramLine ic line = .ok e) : e.InRange ic := by
  unfold parseProgramLine at h
  split at h
  · cases h; trivial
  · split at h
    · cases h; trivial
    · split at h
      · exact parseDirective_inRange h
      · exact parseInstrLine_inRange h

theorem tagInRange_of_isStatic (ic : Nat) {tag : DataTag} (h : isStatic tag = true) :
    tagInRange ic tag = true := by
  cases tag with
  | writer a => cases h
  | _ => rfl

theorem StoresWf.placeWords (h : StoresWf c m) (words : List Word) {tag : DataTag} {next : Nat}
    (hfit : next + words.length ≤ c.dc) (htag : tagInRange c.ic tag = true) :
    StoresWf c (placeWords next words tag m) := by
  induction words generalizing next m with
  | nil => exact h
  | cons v vs ih =>
    rw [List.length_cons] at hfit
    exact ih (h.setDataSlot (v := ⟨v, tag⟩) (by omega) htag) (by omega)

theorem StoresWf.applyLine {e : LineEffect} {next next' : Nat} (h : StoresWf c m)
    (he : e.InRange c.ic) (happly : applyLine e next m = .ok (t, next')) : StoresWf c t := by
  rcases applyLine_cases happly with ⟨-, rfl, -⟩ | ⟨words, tag, rfl, hfit, rfl, -⟩ |
    ⟨address, i, comment, rfl, rfl, -⟩
  · exact h
  · exact h.placeWords words (h.config ▸ hfit) (tagInRange_of_isStatic c.ic he)
  · exact h.setInstrSlot he (wordDecodes_encode i)

theorem applyLine_waiting {e : LineEffect} {next next' : Nat}
    (happly : applyLine e next m = .ok (t, next')) : t.waiting = m.waiting := by
  rcases applyLine_cases happly with ⟨-, rfl, -⟩ | ⟨words, tag, -, -, rfl, -⟩ |
    ⟨_, _, _, -, rfl, -⟩
  · rfl
  · rw [placeWords_fields]
  · rfl

theorem StoresWf.fullReset (hconfig : m.config = c) : StoresWf c m.fullReset where
  config := hconfig
  imem := rfl
  dmem := rfl

/-- A load needs nothing of the state it starts from: it resets it. -/
theorem load_meetsInvariant (text : List Byte) (m : State) :
    MeetsInvariant m.config (load text m) := by
  refine loadLines_induction (P := fun _ s => StoresWf m.config s ∧ s.waiting = none)
    (fun _ s r hs => ?_) (fun line e next next' s s' hs hparse happly => ?_) _ _ _ _
    ⟨StoresWf.fullReset rfl, rfl⟩
  · obtain ⟨hstores, hidle⟩ := hs
    exact (hstores.congr rfl rfl rfl : StoresWf m.config (s.loaded r)).meetsInvariant_of_idle hidle
  · obtain ⟨hstores, hidle⟩ := hs
    have hrange := hstores.config ▸ parseProgramLine_inRange hparse
    exact ⟨hstores.applyLine hrange happly, (applyLine_waiting happly).trans hidle⟩

/-! ## Words that are no instruction (R88) -/

theorem step_refuses_invalid {e : Invalid} (hidle : m.waiting = none)
    (hrange : m.instrInRange m.pc = true) (hbreak : m.bp ≠ .armed m.pc)
    (hfetch : decode m.fetchWord = .error e) :
    step m = .refused (.invalidWord m.fetchWord) := by
  have hcycle : beginCycle m = .run m.fetchWord m.rearm.advance := by
    simp [beginCycle, hrange, State.breakpointFires, hbreak]
  simp only [step, hidle, hcycle, hfetch]

end

/-- Settles O5: the decoder's checks are those of the fields, a load puts encoded instructions into
a store of `HALT`s, and a step that fetches anything else has no meaning. -/
theorem invalidWordsAreRefused : Obligations.InvalidWordsAreRefused :=
  ⟨exists_decode_iff_wellFormed, decode_eq_error_opcode_iff,
    fun text m => (load_meetsInvariant text m).stores.instrSlot_decodes,
    fun m _ hidle hlow hhigh hbreak hfetch =>
      step_refuses_invalid hidle ((m.instrInRange_iff _).mpr ⟨hlow, hhigh⟩) hbreak hfetch⟩

section
variable {c : Config} {m t : State}

/-! ## A bulk run keeps the invariant (R333) -/

theorem runUntilHalt_succ_state (hstep : step m = .next t) (n : Nat) :
    (runUntilHalt (n + 1) m).state =
      if t.result = some .ok then (runUntilHalt n t).state else t := by
  split
  · next hok => rw [runUntilHalt_ok hstep hok]
  · next hok =>
    cases hresult : t.result with
    | none => rw [runUntilHalt_blocked hstep hresult]
    | some r => rw [runUntilHalt_stop hstep hresult fun hr => hok (hr ▸ hresult)]

theorem MeetsInvariant.runUntilHalt (h : MeetsInvariant c m) (n : Nat) :
    MeetsInvariant c (runUntilHalt n m).state := by
  induction n generalizing m with
  | zero => exact h
  | succ n ih =>
    obtain ⟨t, hstep⟩ := h.stores.step_answers
    have ht := h.stores.step hstep
    rw [runUntilHalt_succ_state hstep]
    split
    · exact ih ht
    · exact ht

/-- A run that makes a step ends in the invariant, whatever the first step waited for. -/
theorem StoresWf.runUntilHalt_succ (h : StoresWf c m) (n : Nat) :
    MeetsInvariant c (runUntilHalt (n + 1) m).state := by
  obtain ⟨t, hstep⟩ := h.step_answers
  have ht := h.step hstep
  rw [runUntilHalt_succ_state hstep]
  split
  · exact ht.runUntilHalt n
  · exact ht

/-- What the host is told of a run is not part of the invariant. -/
theorem MeetsInvariant.settleRun {o : RunOutcome} (h : MeetsInvariant c o.state) (calls : Nat) :
    MeetsInvariant c (settleRun calls o).1 := by
  unfold Machine.settleRun
  split
  · exact h
  · exact h
  · exact ⟨h.stores.congr rfl rfl rfl, h.wait⟩

theorem StoresWf.clearRun (h : StoresWf c m) : StoresWf c m.clearRun := h.congr rfl rfl rfl

theorem MeetsInvariant.hostRun (h : MeetsInvariant c m) (n : Nat) :
    MeetsInvariant c (hostRun n m).1 :=
  (MeetsInvariant.runUntilHalt ⟨h.stores.clearRun, h.wait⟩ n).settleRun 0

/-- The call that has not returned goes on with the input now at hand. -/
theorem StoresWf.goOn (h : StoresWf c m) : MeetsInvariant c (goOn m).1 := by
  unfold Machine.goOn
  split
  · next p _ => exact (h.clearRun.runUntilHalt_succ p.further).settleRun p.calls
  · exact (h.runUntilHalt_succ 0).settleRun 0

/-! ## Every host operation keeps the invariant (R327) -/

theorem StoresWf.softReset (h : StoresWf c m) : StoresWf c m.softReset where
  config := h.config
  imem := h.imem
  dmem := by
    obtain ⟨hwf, hall⟩ := m.dmemWf_iff.mp h.dmem
    exact (State.dmemWf_iff _).mpr
      ⟨Memory.wf_filter _ _ hwf, fun e he => hall e (List.mem_filter.mp he).1⟩

theorem StoresWf.hostSetData (h : StoresWf c m) {a : Nat} (ha : a < c.dc) (v : Word) :
    StoresWf c (m.hostSetData a v) :=
  h.setDataSlot ha (h.dataSlot_tagInRange a)

theorem hostAddress?_lt {capacity n : Nat} {a : Int} (h : hostAddress? capacity a = some n) :
    n < capacity := by
  unfold hostAddress? at h
  split at h
  · injection h with h
    omega
  · cases h

theorem hostGetReg_fst (i : Int) (m : State) : (hostGetReg i m).1 = m := by
  unfold hostGetReg
  split <;> rfl

theorem hostGetData_fst (a : Int) (m : State) : (hostGetData a m).1 = m := by
  unfold hostGetData
  split <;> rfl

theorem hostGetInstr_fst (a : Int) (m : State) : (hostGetInstr a m).1 = m := by
  unfold hostGetInstr
  split <;> rfl

theorem hostTrace_fst (a : Int) (m : State) : (hostTrace a m).1 = m := by
  unfold hostTrace
  split <;> rfl

theorem hostLoad_fst (source : Option (List Byte)) (m : State) :
    (hostLoad source m).1 = loadSource source m := by
  unfold hostLoad
  simp only
  split <;> rfl

theorem MeetsInvariant.loadSource (h : MeetsInvariant c m) (source : Option (List Byte)) :
    MeetsInvariant c (loadSource source m) := by
  cases source with
  | some text => exact h.stores.config ▸ load_meetsInvariant text m
  | none => exact ⟨h.stores.congr rfl rfl rfl, h.wait⟩

theorem MeetsInvariant.hostSetReg (h : MeetsInvariant c m) (i : Int) (v : Word) :
    MeetsInvariant c (hostSetReg i v m).1 := by
  unfold Machine.hostSetReg
  split
  · exact ⟨h.stores.writeReg _ v, h.wait⟩
  · exact h

theorem MeetsInvariant.hostSetData (h : MeetsInvariant c m) (a : Int) (v : Word) :
    MeetsInvariant c (hostSetData a v m).1 := by
  unfold Machine.hostSetData
  split
  · next n hn =>
    exact ⟨h.stores.hostSetData (h.stores.config ▸ hostAddress?_lt hn) v, h.wait⟩
  · exact h

/-- An operation on a machine that waits for nothing. -/
theorem MeetsInvariant.hostCallIdle (h : MeetsInvariant c m) (hidle : m.waiting = none)
    (op : HostOp) : MeetsInvariant c (hostCallIdle op m).1 := by
  cases op with
  | load source => exact hostLoad_fst source m ▸ h.loadSource source
  | step => exact h.hostRun 1
  | runUntilHalt n => exact h.hostRun n
  | getReg i => exact (hostGetReg_fst i m).symm ▸ h
  | getData a => exact (hostGetData_fst a m).symm ▸ h
  | getInstr a => exact (hostGetInstr_fst a m).symm ▸ h
  | trace a => exact (hostTrace_fst a m).symm ▸ h
  | usage | getCount => exact h
  | setReg i v => exact h.hostSetReg i v
  | setData a v => exact h.hostSetData a v
  | armBreakpoint a => exact ⟨h.stores.congr rfl rfl rfl, h.wait⟩
  | clearBreakpoint => exact ⟨h.stores.congr rfl rfl rfl, h.wait⟩
  | softReset => exact ⟨h.stores.softReset, h.wait⟩
  | fullReset => exact StoresWf.meetsInvariant_of_idle (StoresWf.fullReset h.stores.config) rfl
  | supplyLine line =>
    simp only [Machine.hostCallIdle, hostSupplyLine]
    split
    · exact h
    · exact ⟨h.stores.congr rfl rfl rfl, State.waitWf_of_idle hidle⟩
  | endInput => exact ⟨h.stores.congr rfl rfl rfl, State.waitWf_of_idle hidle⟩

/-- An operation on a machine whose step is blocked: the call goes on, or nothing changes. -/
theorem MeetsInvariant.hostCallBlocked (h : MeetsInvariant c m) (op : HostOp) :
    MeetsInvariant c (hostCallBlocked op m).1 := by
  cases op with
  | supplyLine line =>
    simp only [Machine.hostCallBlocked]
    split
    · exact h
    · exact StoresWf.goOn (h.stores.congr rfl rfl rfl)
  | endInput => exact StoresWf.goOn (h.stores.congr rfl rfl rfl)
  | _ => exact h

/-- Every host operation keeps the invariant and the parameters. -/
theorem MeetsInvariant.hostCall (h : MeetsInvariant c m) (op : HostOp) :
    MeetsInvariant c (hostCall op m).1 := by
  unfold Machine.hostCall
  split
  · next hidle => exact h.hostCallIdle hidle op
  · exact h.hostCallBlocked op

theorem powerOn_meetsInvariant (c : Config) : MeetsInvariant c (State.powerOn c) :=
  ⟨⟨rfl, rfl, rfl⟩, rfl⟩

theorem Reachable.meetsInvariant (h : Reachable c m) : MeetsInvariant c m := by
  induction h with
  | powerOn => exact powerOn_meetsInvariant c
  | call op m _ ih => exact ih.hostCall op

end

/-- Settles O49: whatever the host can reach meets the invariant, and such a machine answers. -/
theorem reachableMachinesNeverRefuse : Obligations.ReachableMachinesNeverRefuse := by
  intro c m hvalid hreachable
  have h := hreachable.meetsInvariant
  exact ⟨h.wf hvalid, h.stores.config, h.stores.step_answers⟩

end Sys2Proof.Machine

/-! # Proofs of the statements about the loader (35_loader.md) -/

namespace Sys2Proof.Machine

/-! ## Runs of bytes of one class -/

/-- The text does not go on with a byte of the class `p`, so a run of that class ends before it. -/
def Stops (p : Byte → Bool) (text : List Byte) : Prop := ∀ c ∈ text.head?, p c = false

section
variable {p q : Byte → Bool} {run rest : List Byte}

@[simp] theorem stops_nil : Stops p [] := by simp [Stops]

@[simp] theorem stops_cons (c : Byte) : Stops p (c :: rest) ↔ p c = false := by simp [Stops]

/-- A text stops a class when its first part does, or is empty and the second part does. -/
theorem Stops.append (hrun : Stops p run) (hrest : run = [] → Stops p rest) :
    Stops p (run ++ rest) := by
  cases run with
  | nil => exact hrest rfl
  | cons c cs => exact hrun

/-- A run of one class stops every class disjoint from it. -/
theorem stops_of_all (hrun : run.all q = true) (hdisjoint : ∀ c, q c = true → p c = false) :
    Stops p run := by
  cases run with
  | nil => exact stops_nil
  | cons c cs => exact (stops_cons c).mpr (hdisjoint c (by simp_all))

theorem takeWhile_run (hrun : run.all p = true) (hrest : Stops p rest) :
    (run ++ rest).takeWhile p = run := by
  rw [List.takeWhile_append_of_pos (List.all_eq_true.mp hrun)]
  cases rest with
  | nil => simp
  | cons c cs => simp [(stops_cons c).mp hrest]

theorem dropWhile_run (hrun : run.all p = true) (hrest : Stops p rest) :
    (run ++ rest).dropWhile p = rest := by
  rw [List.dropWhile_append_of_pos (List.all_eq_true.mp hrun)]
  cases rest with
  | nil => rfl
  | cons c cs => simp [(stops_cons c).mp hrest]

end

/-! The byte classes of rule R15 are disjoint. -/

theorem isBlank_not_letter : ∀ c : Byte, isBlank c = true → isLetter c = false := by decide

theorem isSign_not_letter : ∀ c : Byte, isSign c = true → isLetter c = false := by decide

theorem isDigit_not_letter : ∀ c : Byte, isDigit c = true → isLetter c = false := by decide

theorem isSign_not_blank : ∀ c : Byte, isSign c = true → isBlank c = false := by decide

theorem isDigit_not_blank : ∀ c : Byte, isDigit c = true → isBlank c = false := by decide

theorem isDigit_not_sign : ∀ c : Byte, isDigit c = true → isSign c = false := by decide

theorem isLetter_not_blank : ∀ c : Byte, isLetter c = true → isBlank c = false := by decide

theorem skipBlanks_run {blanks : List Byte} (hblanks : blanks.all isBlank = true)
    (rest : List Byte) : skipBlanks (blanks ++ rest) = skipBlanks rest :=
  List.dropWhile_append_of_pos (List.all_eq_true.mp hblanks)

/-- Text that does not begin with a blank is not cut. -/
theorem skipBlanks_of_stops {rest : List Byte} (hrest : Stops isBlank rest) :
    skipBlanks rest = rest :=
  dropWhile_run (run := []) rfl hrest

@[simp] theorem skipBlanks_space (rest : List Byte) : skipBlanks (0x20 :: rest) = skipBlanks rest :=
  skipBlanks_run (blanks := [0x20]) (by decide) rest

/-! ## Signed literals (R115) -/

section
variable {signs digits rest : List Byte}

/-- A sign run and digits are a literal, read when its value is in `int32`. -/
theorem parseSint_literal (hsigns : signs.all isSign = true) (hne : digits ≠ [])
    (hdigits : digits.all isDigit = true) (hrest : Stops isDigit rest) :
    parseSint (signs ++ (digits ++ rest)) =
      if inInt32 (literalValue signs digits) = true
        then some (wrap32 (literalValue signs digits), rest) else none := by
  have hstop : Stops isSign (digits ++ rest) :=
    (stops_of_all hdigits isDigit_not_sign).append fun h => absurd h hne
  simp only [parseSint, takeWhile_run hsigns hstop, dropWhile_run hsigns hstop,
    takeWhile_run hdigits hrest, dropWhile_run hdigits hrest]
  cases inInt32 (literalValue signs digits) <;> simp [hne]

/-- Without a digit after the sign run there is no literal. -/
theorem parseSint_no_digit (hsigns : signs.all isSign = true) (hsign : Stops isSign rest)
    (hdigit : Stops isDigit rest) : parseSint (signs ++ rest) = none := by
  have hdigits : rest.takeWhile isDigit = [] := takeWhile_run (run := []) rfl hdigit
  simp [parseSint, dropWhile_run hsigns hsign, hdigits]

end

/-! ## Lines (R111) -/

theorem splitFrom_lineFeed (reversed rest : List Byte) :
    splitFrom reversed (0x0A :: rest) = closeLine reversed :: splitFrom [] rest := rfl

theorem splitFrom_other {b : Byte} (hb : b ≠ 0x0A) (reversed rest : List Byte) :
    splitFrom reversed (b :: rest) = splitFrom (b :: reversed) rest := by
  rw [splitFrom, if_neg hb]

/-- Bytes other than line feeds are added to the line read so far. -/
theorem splitFrom_append {line : List Byte} (hline : (0x0A : Byte) ∉ line)
    (reversed rest : List Byte) :
    splitFrom reversed (line ++ rest) = splitFrom (line.reverse ++ reversed) rest := by
  induction line generalizing reversed with
  | nil => rfl
  | cons b bs ih =>
    obtain ⟨hb, hbs⟩ := List.ne_and_not_mem_of_not_mem_cons hline
    rw [List.cons_append, splitFrom_other hb.symm, ih hbs, List.reverse_cons, List.append_assoc,
      List.singleton_append]

/-- What has been read when the text ends is the last line. -/
theorem splitFrom_end {reversed : List Byte} (hne : reversed ≠ []) :
    splitFrom reversed [] = [closeLine reversed] := by
  rw [splitFrom, if_neg hne]

theorem closeLine_reverse {line : List Byte} (h : line.getLast? ≠ some 0x0D) :
    closeLine line.reverse = line := by
  rw [← List.head?_reverse] at h
  cases hr : line.reverse with
  | nil => simpa [closeLine] using hr.symm
  | cons b bs =>
    have hb : b ≠ 0x0D := by simpa [hr] using h
    rw [closeLine, if_neg hb, ← hr, List.reverse_reverse]

/-- A line that does not end in a carriage return, with its line feed, at the front of a text. -/
theorem splitLines_lineFeed {line : List Byte} (hline : (0x0A : Byte) ∉ line)
    (hlast : line.getLast? ≠ some 0x0D) (rest : List Byte) :
    splitLines (line ++ 0x0A :: rest) = line :: splitLines rest := by
  rw [splitLines, splitFrom_append hline, splitFrom_lineFeed, List.append_nil,
    closeLine_reverse hlast, splitLines]

/-- A line with carriage return and line feed at the front of a text. -/
theorem splitLines_returnLineFeed {line : List Byte} (hline : (0x0A : Byte) ∉ line)
    (rest : List Byte) :
    splitLines (line ++ 0x0D :: 0x0A :: rest) = line :: splitLines rest := by
  have hclose : closeLine (0x0D :: line.reverse) = line := by simp [closeLine]
  rw [splitLines, splitFrom_append hline, splitFrom_other (by decide), splitFrom_lineFeed,
    List.append_nil, hclose, splitLines]

/-- A line without a terminator is a text of one line. -/
theorem splitLines_single {line : List Byte} (hne : line ≠ []) (hline : (0x0A : Byte) ∉ line)
    (hlast : line.getLast? ≠ some 0x0D) : splitLines line = [line] := by
  have h := splitFrom_append hline [] []
  rw [List.append_nil, List.append_nil, splitFrom_end (by simpa using hne),
    closeLine_reverse hlast] at h
  exact h

/-- Lines that each end in a line feed are split off one by one before the rest of a text. -/
theorem splitLines_lineFeeds {lines : List (List Byte)}
    (h : ∀ l ∈ lines, (0x0A : Byte) ∉ l ∧ l.getLast? ≠ some 0x0D) (rest : List Byte) :
    splitLines ((lines.flatMap fun l => l ++ [0x0A]) ++ rest) = lines ++ splitLines rest := by
  induction lines with
  | nil => rfl
  | cons l ls ih =>
    obtain ⟨⟨hline, hlast⟩, hls⟩ := List.forall_mem_cons.mp h
    rw [List.flatMap_cons, List.append_assoc, List.append_assoc, List.singleton_append,
      splitLines_lineFeed hline hlast, ih hls, List.cons_append]

theorem splitLines_returnLineFeeds {lines : List (List Byte)}
    (h : ∀ l ∈ lines, (0x0A : Byte) ∉ l) :
    splitLines (lines.flatMap fun l => l ++ [0x0D, 0x0A]) = lines := by
  induction lines with
  | nil => rfl
  | cons l ls ih =>
    obtain ⟨hline, hls⟩ := List.forall_mem_cons.mp h
    rw [List.flatMap_cons, List.append_assoc, List.cons_append, List.singleton_append,
      splitLines_returnLineFeed hline, ih hls]

/-- Settles O50: a terminator closes the line read so far, and the end of the text the last one. -/
theorem textSplitsAtLineFeeds : Obligations.TextSplitsAtLineFeeds := by
  intro lines h
  refine ⟨?_, splitLines_returnLineFeeds fun l hl => (h l hl).1, fun l hne hline hlast => ?_⟩
  · have hall := splitLines_lineFeeds h []
    rwa [List.append_nil, show splitLines [] = [] from rfl, List.append_nil] at hall
  · rw [splitLines_lineFeeds h, splitLines_single hne hline hlast]

/-! ## Mnemonics (R127) -/

/-- The first four letters of a token are those of every name it matches, long or short. -/
theorem take_four_of_nameMatches {name token : List Byte} (h : nameMatches name token = true) :
    token.take 4 = name.take 4 := by
  unfold nameMatches at h
  split at h
  · exact (of_decide_eq_true h).2
  · rw [of_decide_eq_true h]

theorem nameMatches_self (name : List Byte) : nameMatches name name = true := by
  unfold nameMatches
  split
  · next h => simp [h]
  · simp

/-- No two table names share their first four letters. -/
theorem Opcode.eq_of_take_four_name {op op' : Opcode}
    (h : (ascii op.name).take 4 = (ascii op'.name).take 4) : op = op' := by
  have hall : ∀ op ∈ Opcode.all, ∀ op' ∈ Opcode.all,
      (ascii op.name).take 4 = (ascii op'.name).take 4 → op = op' := by decide
  exact hall op op.mem_all op' op'.mem_all h

theorem opcode_eq_of_nameMatches {token : List Byte} {op op' : Opcode}
    (h : nameMatches (ascii op.name) token = true)
    (h' : nameMatches (ascii op'.name) token = true) : op = op' :=
  Opcode.eq_of_take_four_name
    ((take_four_of_nameMatches h).symm.trans (take_four_of_nameMatches h'))

theorem nameMatches_of_matchMnemonic {token : List Byte} {op : Opcode}
    (h : matchMnemonic token = some op) : nameMatches (ascii op.name) token = true := by
  unfold matchMnemonic at h
  simpa using List.find?_some h

theorem matchMnemonic_eq_some {token : List Byte} {op : Opcode}
    (h : nameMatches (ascii op.name) token = true) : matchMnemonic token = some op := by
  have hsome : (matchMnemonic token).isSome = true := List.find?_isSome.mpr ⟨op, op.mem_all, h⟩
  obtain ⟨op', hop'⟩ := Option.isSome_iff_exists.mp hsome
  rw [hop', opcode_eq_of_nameMatches h (nameMatches_of_matchMnemonic hop')]

/-- Settles O51: a token's first four letters select its opcode. -/
theorem mnemonicsSelectOneOpcode : Obligations.MnemonicsSelectOneOpcode :=
  ⟨fun _ => matchMnemonic_eq_some (nameMatches_self _), fun _ _ _ => opcode_eq_of_nameMatches⟩

/-! ## Directive lines (R114 to R117) -/

section
variable {blanks rest : List Byte}

theorem parseProgramLine_directive (ic : Nat) (hblanks : blanks.all isBlank = true) :
    parseProgramLine ic (blanks ++ 0x2E :: rest) = parseDirective rest := by
  have hskip : skipBlanks (blanks ++ 0x2E :: rest) = 0x2E :: rest :=
    (skipBlanks_run hblanks _).trans (skipBlanks_of_stops ((stops_cons _).mpr (by decide)))
  rw [parseProgramLine, hskip]
  rfl

theorem parseDirective_data {v : Word} {more : List Byte} (hrest : Stops isLetter rest)
    (hliteral : parseSint (skipBlanks rest) = some (v, more)) :
    parseDirective (ascii "DATA" ++ rest) = .ok (.data [v] .staticNumeric) := by
  have hname : (ascii "DATA").all isLetter = true := by decide
  simp only [parseDirective, takeWhile_run hname hrest, dropWhile_run hname hrest, if_true,
    hliteral]

theorem parseDirective_data_none (hrest : Stops isLetter rest)
    (hliteral : parseSint (skipBlanks rest) = none) :
    parseDirective (ascii "DATA" ++ rest) = .error ⟨none, .dataLiteral⟩ := by
  have hname : (ascii "DATA").all isLetter = true := by decide
  simp only [parseDirective, takeWhile_run hname hrest, dropWhile_run hname hrest, if_true,
    hliteral]

theorem parseDirective_sdata (hrest : Stops isLetter rest) :
    parseDirective (ascii "SDATA" ++ rest) = parseString rest := by
  have hname : (ascii "SDATA").all isLetter = true := by decide
  have hne : ascii "SDATA" ≠ ascii "DATA" := by decide
  simp only [parseDirective, takeWhile_run hname hrest, dropWhile_run hname hrest, if_neg hne,
    if_true]

theorem parseDirective_unknown {name : List Byte} (hname : name.all isLetter = true)
    (hrest : Stops isLetter rest) (hdata : name ≠ ascii "DATA") (hsdata : name ≠ ascii "SDATA") :
    parseDirective (name ++ rest) = .error ⟨none, .directive⟩ := by
  simp only [parseDirective, takeWhile_run hname hrest, if_neg hdata, if_neg hsdata]

theorem all_ne_quote_of_not_mem {chars : List Byte} (hchars : (0x22 : Byte) ∉ chars) :
    chars.all (fun b => b != 0x22) = true :=
  List.all_eq_true.mpr fun _ hb => bne_iff_ne.mpr (ne_of_mem_of_not_mem hb hchars)

theorem skipBlanks_quote (hblanks : blanks.all isBlank = true) (body : List Byte) :
    skipBlanks (blanks ++ 0x22 :: body) = 0x22 :: body :=
  (skipBlanks_run hblanks _).trans (skipBlanks_of_stops ((stops_cons _).mpr (by decide)))

/-- The string is what stands between two quotes. -/
theorem parseString_quoted {chars : List Byte} (hblanks : blanks.all isBlank = true)
    (hchars : (0x22 : Byte) ∉ chars) :
    parseString (blanks ++ 0x22 :: (chars ++ 0x22 :: rest)) =
      if chars.all isStringByte = true then
        .ok (.data (chars.map fun b => BitVec.ofNat 32 b.toNat) .staticChar)
      else .error ⟨none, .quoting⟩ := by
  have hrun := all_ne_quote_of_not_mem hchars
  have hstop : Stops (fun b => b != 0x22) (0x22 :: rest) := (stops_cons _).mpr (by decide)
  rw [parseString, skipBlanks_quote hblanks]
  simp only [takeWhile_run hrun hstop, dropWhile_run hrun hstop, ne_eq, reduceCtorEq,
    not_false_eq_true, true_and, BitVec.ofNat_toNat]

/-- Without a second quote there is no string. -/
theorem parseString_unclosed {body : List Byte} (hblanks : blanks.all isBlank = true)
    (hbody : (0x22 : Byte) ∉ body) :
    parseString (blanks ++ 0x22 :: body) = .error ⟨none, .quoting⟩ := by
  have hdrop : body.dropWhile (fun b => b != 0x22) = [] :=
    List.dropWhile_eq_nil_iff.mpr (List.all_eq_true.mp (all_ne_quote_of_not_mem hbody))
  rw [parseString, skipBlanks_quote hblanks]
  simp only [hdrop, ne_eq, not_true_eq_false, false_and, and_false, if_false]

/-- Without a quote after the blanks there is no string. -/
theorem parseString_unopened (hblanks : blanks.all isBlank = true) (hblank : Stops isBlank rest)
    (hquote : ∀ c ∈ rest.head?, c ≠ 0x22) :
    parseString (blanks ++ rest) = .error ⟨none, .quoting⟩ := by
  rw [parseString, skipBlanks_run hblanks, skipBlanks_of_stops hblank]
  cases rest with
  | nil => rfl
  | cons c body =>
    have hc : c ≠ 0x22 := hquote c rfl
    simp only [hc, false_and, if_false]

/-! Whole directive lines: blanks, the directive's name, blanks and its operand. -/

theorem ascii_data : ascii ".DATA" = 0x2E :: ascii "DATA" := by decide

theorem ascii_sdata : ascii ".SDATA" = 0x2E :: ascii "SDATA" := by decide

theorem ascii_quote : ascii "\"" = [0x22] := by decide

variable {gap : List Byte}

theorem parseProgramLine_data_literal (ic : Nat) {signs digits : List Byte}
    (hblanks : blanks.all isBlank = true) (hgap : gap.all isBlank = true)
    (hsigns : signs.all isSign = true) (hne : digits ≠ []) (hdigits : digits.all isDigit = true)
    (hrest : Stops isDigit rest) :
    parseProgramLine ic (blanks ++ ascii ".DATA" ++ gap ++ signs ++ digits ++ rest) =
      if inInt32 (literalValue signs digits) = true then
        .ok (.data [wrap32 (literalValue signs digits)] .staticNumeric)
      else .error ⟨none, .dataLiteral⟩ := by
  have hblank : Stops isBlank (signs ++ (digits ++ rest)) :=
    (stops_of_all hsigns isSign_not_blank).append fun _ =>
      (stops_of_all hdigits isDigit_not_blank).append fun h => absurd h hne
  have hletter : Stops isLetter (gap ++ (signs ++ (digits ++ rest))) :=
    (stops_of_all hgap isBlank_not_letter).append fun _ =>
      (stops_of_all hsigns isSign_not_letter).append fun _ =>
        (stops_of_all hdigits isDigit_not_letter).append fun h => absurd h hne
  have hliteral := parseSint_literal hsigns hne hdigits hrest
  rw [← skipBlanks_of_stops hblank, ← skipBlanks_run hgap] at hliteral
  simp only [ascii_data, List.append_assoc, List.cons_append, parseProgramLine_directive ic hblanks]
  split
  · next hrange => exact parseDirective_data hletter (hliteral.trans (if_pos hrange))
  · next hrange => exact parseDirective_data_none hletter (hliteral.trans (if_neg hrange))

theorem parseProgramLine_data_no_digit (ic : Nat) {signs : List Byte}
    (hblanks : blanks.all isBlank = true) (hgap : gap.all isBlank = true)
    (hsigns : signs.all isSign = true) (hdigit : Stops isDigit rest) (hsign : Stops isSign rest)
    (hblank : signs = [] → Stops isBlank rest)
    (hletter : gap = [] → signs = [] → Stops isLetter rest) :
    parseProgramLine ic (blanks ++ ascii ".DATA" ++ gap ++ signs ++ rest)
      = .error ⟨none, .dataLiteral⟩ := by
  have hoperand : Stops isBlank (signs ++ rest) :=
    (stops_of_all hsigns isSign_not_blank).append hblank
  have hname : Stops isLetter (gap ++ (signs ++ rest)) :=
    (stops_of_all hgap isBlank_not_letter).append fun hnogap =>
      (stops_of_all hsigns isSign_not_letter).append (hletter hnogap)
  have hnone := parseSint_no_digit hsigns hsign hdigit
  rw [← skipBlanks_of_stops hoperand, ← skipBlanks_run hgap] at hnone
  simp only [ascii_data, List.append_assoc, List.cons_append, parseProgramLine_directive ic hblanks]
  exact parseDirective_data_none hname hnone

theorem stops_isLetter_quote (hgap : gap.all isBlank = true) (body : List Byte) :
    Stops isLetter (gap ++ 0x22 :: body) :=
  (stops_of_all hgap isBlank_not_letter).append fun _ => (stops_cons _).mpr (by decide)

theorem parseProgramLine_sdata_quoted (ic : Nat) {chars : List Byte}
    (hblanks : blanks.all isBlank = true) (hgap : gap.all isBlank = true)
    (hchars : (0x22 : Byte) ∉ chars) :
    parseProgramLine ic
        (blanks ++ ascii ".SDATA" ++ gap ++ ascii "\"" ++ chars ++ ascii "\"" ++ rest) =
      if chars.all isStringByte = true then
        .ok (.data (chars.map fun b => BitVec.ofNat 32 b.toNat) .staticChar)
      else .error ⟨none, .quoting⟩ := by
  simp only [ascii_sdata, ascii_quote, List.append_assoc, List.cons_append, List.nil_append,
    parseProgramLine_directive ic hblanks]
  rw [parseDirective_sdata (stops_isLetter_quote hgap _), parseString_quoted hgap hchars]

theorem parseProgramLine_sdata_unclosed (ic : Nat) {body : List Byte}
    (hblanks : blanks.all isBlank = true) (hgap : gap.all isBlank = true)
    (hbody : (0x22 : Byte) ∉ body) :
    parseProgramLine ic (blanks ++ ascii ".SDATA" ++ gap ++ ascii "\"" ++ body)
      = .error ⟨none, .quoting⟩ := by
  simp only [ascii_sdata, ascii_quote, List.append_assoc, List.cons_append, List.nil_append,
    parseProgramLine_directive ic hblanks]
  rw [parseDirective_sdata (stops_isLetter_quote hgap _), parseString_unclosed hgap hbody]

theorem parseProgramLine_sdata_unopened (ic : Nat) (hblanks : blanks.all isBlank = true)
    (hgap : gap.all isBlank = true) (hquote : ∀ c ∈ rest.head?, c ≠ 0x22)
    (hblank : Stops isBlank rest) (hletter : gap = [] → Stops isLetter rest) :
    parseProgramLine ic (blanks ++ ascii ".SDATA" ++ gap ++ rest) = .error ⟨none, .quoting⟩ := by
  have hname : Stops isLetter (gap ++ rest) :=
    (stops_of_all hgap isBlank_not_letter).append hletter
  simp only [ascii_sdata, List.append_assoc, List.cons_append,
    parseProgramLine_directive ic hblanks]
  rw [parseDirective_sdata hname, parseString_unopened hgap hblank hquote]

theorem parseProgramLine_unknown (ic : Nat) {name : List Byte} (hblanks : blanks.all isBlank = true)
    (hname : name.all isLetter = true) (hrest : Stops isLetter rest) (hdata : name ≠ ascii "DATA")
    (hsdata : name ≠ ascii "SDATA") :
    parseProgramLine ic (blanks ++ ascii "." ++ name ++ rest) = .error ⟨none, .directive⟩ := by
  rw [show ascii "." = [0x2E] by decide, List.append_assoc, List.append_assoc,
    List.singleton_append, parseProgramLine_directive ic hblanks,
    parseDirective_unknown hname hrest hdata hsdata]

end

/-! ## Words placed in the data store (R120 to R122) -/

/-- `t` is `m` with `slots` put into the data slots from `next` on, as far as parameters and data
store go. -/
structure Places (next : Nat) (slots : List DataSlot) (m t : State) : Prop where
  config : t.config = m.config
  placed : ∀ (k : Nat) (h : k < slots.length), t.dataSlot (next + k) = slots[k]
  kept : ∀ a, a < next ∨ next + slots.length ≤ a → t.dataSlot a = m.dataSlot a

section
variable {next : Nat} {m t u : State}

theorem Places.nil (hconfig : t.config = m.config) (hdmem : t.dmem = m.dmem) :
    Places next [] m t where
  config := hconfig
  placed k h := absurd h (Nat.not_lt_zero k)
  kept a _ := by rw [State.dataSlot, hdmem, hconfig]; rfl

theorem Places.append {slots more : List DataSlot} (h : Places next slots m t)
    (hmore : Places (next + slots.length) more t u) : Places next (slots ++ more) m u where
  config := hmore.config.trans h.config
  placed k hk := by
    rw [List.length_append] at hk
    by_cases hlt : k < slots.length
    · rw [hmore.kept _ (.inl (by omega)), h.placed k hlt, List.getElem_append_left hlt]
    · have hat := hmore.placed (k - slots.length) (by omega)
      rw [List.getElem_append_right (by omega), ← hat]
      congr 1
      omega
  kept a ha := by
    rw [List.length_append] at ha
    rw [hmore.kept a (by omega), h.kept a (by omega)]

theorem Places.setDataSlot (next : Nat) (v : DataSlot) (m : State) :
    Places next [v] m (m.setDataSlot next v) where
  config := rfl
  placed k hk := by
    obtain rfl : k = 0 := Nat.lt_one_iff.mp hk
    exact m.dataSlot_setDataSlot_same next v
  kept a ha := by
    rw [List.length_singleton] at ha
    exact m.dataSlot_setDataSlot_other v (by omega)

theorem Places.placeWords (words : List Word) (tag : DataTag) (next : Nat) (m : State) :
    Places next (words.map fun v => ⟨v, tag⟩) m (placeWords next words tag m) := by
  induction words generalizing next m with
  | nil => exact .nil rfl rfl
  | cons v vs ih => exact (Places.setDataSlot next ⟨v, tag⟩ m).append (ih (next + 1) _)

/-- A line whose words fit places them and moves the allocation pointer past them. -/
theorem applyLine_fits {e : LineEffect} (hfit : next + (placedWords e).length ≤ m.config.dc) :
    ∃ t, applyLine e next m = .ok (t, next + (placedWords e).length) ∧
      Places next (placedWords e) m t := by
  cases e with
  | nothing => exact ⟨m, rfl, .nil rfl rfl⟩
  | data words tag =>
    rw [placedWords, List.length_map] at hfit
    exact ⟨_, by rw [applyLine, if_pos hfit, placedWords, List.length_map],
      .placeWords words tag next m⟩
  | instr address i comment => exact ⟨_, rfl, .nil rfl rfl⟩

/-- A line whose words do not fit fails; a line that places none fits wherever the pointer can be. -/
theorem applyLine_full {e : LineEffect} (hnext : next ≤ m.config.dc)
    (hfull : m.config.dc < next + (placedWords e).length) :
    applyLine e next m = .error .dataFull := by
  cases e with
  | nothing => exact absurd hfull (Nat.not_lt.mpr hnext)
  | data words tag =>
    rw [placedWords, List.length_map] at hfull
    rw [applyLine, if_neg (Nat.not_le.mpr hfull)]
  | instr address i comment => exact absurd hfull (Nat.not_lt.mpr hnext)

end

/-- Settles O52: a directive's name ends at the first byte that is no letter, its operand decides
what is read, and `applyLine` places the words or none. -/
theorem directivesPlaceTheirWords : Obligations.DirectivesPlaceTheirWords := by
  refine ⟨?literal, ?noDigit, ?quoted, ?unclosed, ?unopened, ?unknown, ?placed⟩
  case literal =>
    intro ic _ _ signs digits _ hblanks hgap hsigns hne hdigits hrest
    exact ⟨_, wrap32_toInt _,
      parseProgramLine_data_literal ic hblanks hgap hsigns hne hdigits hrest⟩
  case noDigit =>
    intro ic _ _ _ _ hblanks hgap hsigns hrest
    exact parseProgramLine_data_no_digit ic hblanks hgap hsigns (fun c hc => (hrest c hc).1)
      (fun c hc => (hrest c hc).2.1) (fun hs c hc => ((hrest c hc).2.2 hs).1)
      fun hg hs c hc => ((hrest c hc).2.2 hs).2 hg
  case quoted => exact fun ic _ _ _ _ => parseProgramLine_sdata_quoted ic
  case unclosed => exact fun ic _ _ _ => parseProgramLine_sdata_unclosed ic
  case unopened =>
    intro ic _ _ _ hblanks hgap hrest
    exact parseProgramLine_sdata_unopened ic hblanks hgap (fun c hc => (hrest c hc).1)
      (fun c hc => (hrest c hc).2.1) fun hg c hc => (hrest c hc).2.2 hg
  case unknown => exact fun ic _ _ _ => parseProgramLine_unknown ic
  case placed =>
    intro words tag next m hnext
    have hlength : (placedWords (.data words tag)).length = words.length := List.length_map ..
    refine ⟨fun hfull => applyLine_full hnext (hlength ▸ hfull), fun hfit => ?_⟩
    obtain ⟨t, happly, hplaces⟩ := applyLine_fits (hlength.symm ▸ hfit)
    refine ⟨t, hlength ▸ happly, fun k hk => ?_, fun a ha => hplaces.kept a (hlength.symm ▸ ha)⟩
    rw [hplaces.placed k (hlength.symm ▸ hk)]
    exact List.getElem_map ..

/-! ## The lines of a load one after the other (R110, R120, R131) -/

section
variable {m : State}

/-- Lines that load without error leave a state from which any lines after them go on. -/
theorem loadLines_append {before : List (List Byte)} {n next : Nat}
    (h : (loadLines before n next m).loadResult = some .ok) :
    ∃ next' t, loadLines before n next m = t.loaded .ok ∧ ∀ rest,
      loadLines (before ++ rest) n next m = loadLines rest (n + before.length) next' t := by
  induction before generalizing n next m with
  | nil => exact ⟨next, m, rfl, fun _ => rfl⟩
  | cons line lines ih =>
    cases hparse : parseProgramLine m.config.ic line with
    | error e => cases loadLines_parse_error hparse lines n next ▸ h
    | ok e =>
      cases happly : applyLine e next m with
      | error k => cases loadLines_apply_error hparse happly lines n ▸ h
      | ok r =>
        have hgoesOn := loadLines_ok hparse happly
        rw [hgoesOn] at h
        obtain ⟨next', t, hdone, hrest⟩ := ih h
        refine ⟨next', t, (hgoesOn _ n).trans hdone, fun rest => ?_⟩
        rw [List.cons_append, hgoesOn, hrest, List.length_cons, Nat.add_right_comm, Nat.add_assoc]

/-- A load that fails at its first line names that line, and does nothing else, whatever lines come
after it. -/
theorem loadLines_first_fails {line : List Byte} {n next : Nat} {e : LoadError}
    (h : (loadLines [line] n next m).loadResult = some (.error e)) :
    e.line = some n ∧ ∀ after, loadLines (line :: after) n next m = m.loaded (.error e) := by
  cases hparse : parseProgramLine m.config.ic line with
  | error err =>
    have hfails := loadLines_parse_error hparse
    rw [hfails, State.loaded_loadResult] at h
    cases h
    exact ⟨rfl, fun after => hfails after n next⟩
  | ok effect =>
    cases happly : applyLine effect next m with
    | error k =>
      have hfails := loadLines_apply_error hparse happly
      rw [hfails, State.loaded_loadResult] at h
      cases h
      exact ⟨rfl, fun after => hfails after n⟩
    | ok r =>
      rw [loadLines_ok hparse happly, loadLines_nil, State.loaded_loadResult] at h
      cases h

/-- The words of lines that all parse fill the data store from `next` on when they fit. -/
theorem loadLines_fits {lines : List (List Byte)} {effects : List LineEffect} {n next : Nat}
    (hparse : lines.map (parseProgramLine m.config.ic) = effects.map .ok)
    (hfit : next + (effects.flatMap placedWords).length ≤ m.config.dc) :
    ∃ t, loadLines lines n next m = t.loaded .ok ∧ Places next (effects.flatMap placedWords) m t := by
  induction effects generalizing lines n next m with
  | nil =>
    obtain rfl : lines = [] := List.map_eq_nil_iff.mp hparse
    exact ⟨m, rfl, .nil rfl rfl⟩
  | cons e es ih =>
    obtain ⟨line, rest, rfl, hline, hrest⟩ := List.map_eq_cons_iff.mp hparse
    rw [List.flatMap_cons, List.length_append] at hfit
    obtain ⟨t, happly, hplaces⟩ := applyLine_fits (e := e) (next := next) (m := m) (by omega)
    obtain ⟨u, hload, hmore⟩ := ih (n := n + 1) (m := t)
      (next := next + (placedWords e).length) (by rw [hplaces.config]; exact hrest)
      (by rw [hplaces.config]; omega)
    exact ⟨u, (loadLines_ok hline happly rest n).trans hload, hplaces.append hmore⟩

/-- When the words of lines that all parse do not fit, the load fails at one of them. -/
theorem loadLines_full {lines : List (List Byte)} {effects : List LineEffect} {n next : Nat}
    (hparse : lines.map (parseProgramLine m.config.ic) = effects.map .ok)
    (hnext : next ≤ m.config.dc)
    (hfull : m.config.dc < next + (effects.flatMap placedWords).length) :
    ∃ line, (loadLines lines n next m).loadResult = some (.error ⟨some line, none, .dataFull⟩) := by
  induction effects generalizing lines n next m with
  | nil => exact absurd hfull (Nat.not_lt.mpr hnext)
  | cons e es ih =>
    obtain ⟨line, rest, rfl, hline, hrest⟩ := List.map_eq_cons_iff.mp hparse
    rw [List.flatMap_cons, List.length_append] at hfull
    by_cases hfit : next + (placedWords e).length ≤ m.config.dc
    · obtain ⟨t, happly, hplaces⟩ := applyLine_fits hfit
      rw [loadLines_ok hline happly]
      exact ih (by rw [hplaces.config]; exact hrest) (by rw [hplaces.config]; exact hfit)
        (by rw [hplaces.config]; omega)
    · rw [loadLines_apply_error hline (applyLine_full hnext (Nat.not_le.mp hfit))]
      exact ⟨n, rfl⟩

end

/-- Settles O53: the allocation pointer starts at slot 1, and every line that fits moves it past its
words. -/
theorem directivesFillTheStoreFromSlotOne : Obligations.DirectivesFillTheStoreFromSlotOne := by
  intro text m effects hvalid hparse
  obtain ⟨-, hdc, -⟩ := (Config.valid_iff _).mp hvalid
  refine ⟨fun hfit => ?_, fun hfull =>
    loadLines_full (m := m.fullReset) hparse hdc (by rw [State.fullReset_config]; omega)⟩
  obtain ⟨t, hload, hplaces⟩ := loadLines_fits (m := m.fullReset) (n := 1) (next := 1) hparse
    (by rw [State.fullReset_config]; omega)
  rw [load, hload]
  exact ⟨rfl, hplaces.placed, fun a ha => hplaces.kept a (by omega)⟩

/-! ## What a load leaves (R131, R132) -/

/-- Applying a line changes the two stores only. -/
theorem applyLine_fields {e : LineEffect} {next next' : Nat} {m t : State}
    (happly : applyLine e next m = .ok (t, next')) :
    t = { m with imem := t.imem, dmem := t.dmem } := by
  rcases applyLine_cases happly with ⟨-, rfl, -⟩ | ⟨words, tag, -, -, rfl, -⟩ |
    ⟨_, _, _, -, rfl, -⟩
  · rfl
  · rw [placeWords_fields]
  · rfl

/-- `t` is the full-reset state of `m` but for what its two stores hold. -/
def ResetButStores (m t : State) : Prop :=
  t = { m.fullReset with imem := t.imem, dmem := t.dmem }

/-- A load changes the two stores of the full-reset state and records its result. -/
theorem load_resetButStores (text : List Byte) (m : State) :
    ∃ t r, ResetButStores m t ∧ load text m = t.loaded r := by
  refine loadLines_induction (P := fun _ => ResetButStores m)
    (Q := fun u => ∃ t r, ResetButStores m t ∧ u = t.loaded r)
    (fun _ t r ht => ⟨t, r, ht, rfl⟩) (fun _ _ _ _ s t hs _ happly => ?_) _ _ _ m.fullReset rfl
  rw [ResetButStores, applyLine_fields happly, hs]

/-- Settles O54: everything but the stores and the load's result is as after the full reset. -/
theorem loadLeavesTheMachineReset : Obligations.LoadLeavesTheMachineReset := by
  intro text m
  obtain ⟨t, r, ht, hload⟩ := load_resetButStores text m
  rw [hload, ht]
  exact ⟨m.readReg_fullReset, rfl, rfl, rfl, rfl, rfl, rfl, ⟨rfl, rfl, rfl⟩, rfl⟩

/-- Settles O55: the lines before the failing one reach a state from which that line fails. -/
theorem failingLineHasNoEffect : Obligations.FailingLineHasNoEffect := by
  intro before line after text m e hsplit hbefore hfails
  obtain ⟨next, t, hdone, hgoesOn⟩ := loadLines_append hbefore
  rw [hgoesOn] at hfails
  obtain ⟨hline, hload⟩ := loadLines_first_fails hfails
  refine ⟨by rw [hline, Nat.add_comm], ?_⟩
  rw [load, hsplit, hgoesOn, hload, hdone]
  rfl

/-! ## Decimal numbers (R91, R115, R193) -/

theorem isDigit_digitByte (n : Nat) : isDigit (digitByte n) = true := by
  have hlt : n % 10 < 10 := Nat.mod_lt _ (by decide)
  simp only [isDigit, digitByte, BitVec.toNat_ofNat, decide_eq_true_eq]
  omega

theorem digitByte_value (n : Nat) : (digitByte n).toNat - 0x30 = n % 10 := by
  have hlt : n % 10 < 10 := Nat.mod_lt _ (by decide)
  simp only [digitByte, BitVec.toNat_ofNat]
  omega

theorem decimalDigits_all_isDigit (fuel n : Nat) : (decimalDigits fuel n).all isDigit = true := by
  induction fuel generalizing n with
  | zero => rfl
  | succ f ih =>
    rw [decimalDigits]
    split <;> simp [isDigit_digitByte, ih]

theorem digitsValue_append_digit (digits : List Byte) (b : Byte) :
    digitsValue (digits ++ [b]) = 10 * digitsValue digits + (b.toNat - 0x30) := by
  simp [digitsValue]

/-- Enough fuel for every digit: the digits have the number's value. -/
theorem digitsValue_decimalDigits {fuel n : Nat} (h : n < 10 ^ fuel) :
    digitsValue (decimalDigits fuel n) = n := by
  induction fuel generalizing n with
  | zero => exact (Nat.lt_one_iff.mp h).symm
  | succ f ih =>
    have hdigit : digitsValue [digitByte n] = n % 10 :=
      (digitsValue_append_digit [] _).trans ((Nat.zero_add _).trans (digitByte_value n))
    rw [decimalDigits]
    split
    · next hsmall => rw [hdigit, Nat.mod_eq_of_lt hsmall]
    · rw [digitsValue_append_digit, ih (by omega), digitByte_value]
      omega

theorem decimalNat_ne_nil (n : Nat) : decimalNat n ≠ [] := by
  rw [decimalNat, decimalDigits]
  split <;> simp

theorem decimalNat_all_isDigit (n : Nat) : (decimalNat n).all isDigit = true :=
  decimalDigits_all_isDigit 10 n

theorem digitsValue_decimalNat {n : Nat} (h : n < 10 ^ 10) : digitsValue (decimalNat n) = n :=
  digitsValue_decimalDigits h

/-- The sign a word is spelled with. -/
def signOf (v : Word) : List Byte := if v.toInt < 0 then [minusByte] else []

theorem decimal_eq (v : Word) : decimal v = signOf v ++ decimalNat v.toInt.natAbs := by
  unfold decimal signOf
  split <;> rfl

theorem signOf_all_isSign (v : Word) : (signOf v).all isSign = true := by
  unfold signOf
  split <;> rfl

theorem toInt_bounds (v : Word) : -2147483648 ≤ v.toInt ∧ v.toInt ≤ 2147483647 := by
  have hlow := BitVec.le_toInt v
  have hhigh := BitVec.toInt_lt (x := v)
  omega

theorem literalValue_decimal (v : Word) :
    literalValue (signOf v) (decimalNat v.toInt.natAbs) = v.toInt := by
  have hbounds := toInt_bounds v
  rw [literalValue, digitsValue_decimalNat (by omega), signOf]
  split
  · rw [show [minusByte].count minusByte = 1 from rfl]
    omega
  · rw [List.count_nil]
    omega

/-- A spelled word is read back. -/
theorem parseSint_decimal (v : Word) {rest : List Byte} (hrest : Stops isDigit rest) :
    parseSint (decimal v ++ rest) = some (v, rest) := by
  have hrange : inInt32 v.toInt = true := decide_eq_true (toInt_bounds v)
  rw [decimal_eq, List.append_assoc, parseSint_literal (signOf_all_isSign v) (decimalNat_ne_nil _)
    (decimalNat_all_isDigit _) hrest, literalValue_decimal, if_pos hrange, wrap32_self]

theorem stops_isBlank_decimal (v : Word) (rest : List Byte) : Stops isBlank (decimal v ++ rest) := by
  rw [decimal_eq, List.append_assoc]
  exact (stops_of_all (signOf_all_isSign v) isSign_not_blank).append fun _ =>
    (stops_of_all (decimalNat_all_isDigit _) isDigit_not_blank).append fun h =>
      absurd h (decimalNat_ne_nil _)

/-! ## The parts of a spelled line read back (R118, R119, R123, R125) -/

section
variable {rest : List Byte}

theorem stops_isBlank_decimalNat (n : Nat) (rest : List Byte) :
    Stops isBlank (decimalNat n ++ rest) :=
  (stops_of_all (decimalNat_all_isDigit n) isDigit_not_blank).append fun h =>
    absurd h (decimalNat_ne_nil n)

@[simp] theorem except_ok_bind {ε α β : Type} (a : α) (f : α → Except ε β) :
    (Except.ok a >>= f) = f a := rfl

theorem parseMark_mark {mark : Byte} (hmark : isBlank mark = false) (kind : LoadErrorKind)
    (rest : List Byte) : parseMark mark kind (mark :: rest) = .ok rest := by
  rw [parseMark, skipBlanks_of_stops ((stops_cons _).mpr hmark)]
  exact if_pos rfl

theorem parseReg_spellReg (r : Reg) (hrest : Stops isDigit rest) :
    parseReg (spellReg r ++ rest) = .ok (r, rest) := by
  have hdigits := decimalNat_all_isDigit r.val
  have hvalue : digitsValue (decimalNat r.val) = r.val := digitsValue_decimalNat (by omega)
  rw [spellReg, parseReg, skipBlanks_of_stops (stops_isBlank_decimalNat _ _)]
  simp only [takeWhile_run hdigits hrest, dropWhile_run hdigits hrest, decimalNat_ne_nil, if_false,
    hvalue, regOfNat?_lt r.isLt]

theorem parseDisplacement_decimal (d : Word) (hrest : Stops isDigit rest) :
    parseDisplacement (decimal d ++ rest) = .ok (d, rest) := by
  rw [parseDisplacement, skipBlanks_of_stops (stops_isBlank_decimal d rest),
    parseSint_decimal d hrest]

theorem parseBase_parentheses (s : Reg) (rest : List Byte) :
    parseBase (0x28 :: (spellReg s ++ 0x29 :: rest)) = .ok (s, rest) := by
  have hstop : Stops isDigit (0x29 :: rest) := (stops_cons _).mpr (by decide)
  have hmark := parseMark_mark (mark := 0x29) (by decide) .separator rest
  rw [parseBase, skipBlanks_of_stops ((stops_cons _).mpr (by decide))]
  simp only [if_true, except_ok_bind, parseReg_spellReg s hstop, hmark]
  rfl

theorem parseRrOperands_spelled (r s t : Reg) (hrest : Stops isDigit rest) :
    parseRrOperands (spellReg r ++ 0x2C :: (spellReg s ++ 0x2C :: (spellReg t ++ rest)))
      = .ok (r, wordOfReg s, t, rest) := by
  have hstop (text : List Byte) : Stops isDigit (0x2C :: text) := (stops_cons _).mpr (by decide)
  have hmark (text : List Byte) := parseMark_mark (mark := 0x2C) (by decide) .separator text
  simp only [parseRrOperands, except_ok_bind, parseReg_spellReg _ (hstop _), hmark,
    parseReg_spellReg t hrest]
  rfl

theorem parseRmOperands_spelled (r : Reg) (d : Word) (s : Reg) (rest : List Byte) :
    parseRmOperands (spellReg r ++ 0x2C :: (decimal d ++ 0x28 :: (spellReg s ++ 0x29 :: rest)))
      = .ok (r, d, s, rest) := by
  have hcomma (text : List Byte) : Stops isDigit (0x2C :: text) := (stops_cons _).mpr (by decide)
  have hparen (text : List Byte) : Stops isDigit (0x28 :: text) := (stops_cons _).mpr (by decide)
  have hmark (text : List Byte) := parseMark_mark (mark := 0x2C) (by decide) .separator text
  simp only [parseRmOperands, except_ok_bind, parseReg_spellReg _ (hcomma _), hmark,
    parseDisplacement_decimal d (hparen _), parseBase_parentheses]
  rfl

theorem ascii_comma : ascii "," = [0x2C] := by decide

theorem spellOperands_rr {i : Instr} (hcls : i.opcode.cls = .rr) (rest : List Byte) :
    spellOperands i ++ rest = spellReg i.operand1 ++ 0x2C ::
      (spellReg (regOfWord i.operand2) ++ 0x2C :: (spellReg i.operand3 ++ rest)) := by
  rw [spellOperands, hcls]
  simp only [ascii_comma, List.append_assoc, List.cons_append, List.nil_append]

theorem spellOperands_memory {i : Instr} (hcls : i.opcode.cls ≠ .rr) (rest : List Byte) :
    spellOperands i ++ rest = spellReg i.operand1 ++ 0x2C ::
      (decimal i.operand2 ++ 0x28 :: (spellReg i.operand3 ++ 0x29 :: rest)) := by
  have hopen : ascii "(" = [0x28] := by decide
  have hclose : ascii ")" = [0x29] := by decide
  unfold spellOperands
  split
  · contradiction
  all_goals
    simp only [ascii_comma, hopen, hclose, List.append_assoc, List.cons_append, List.nil_append]

/-- The operands of every instruction are read back; a comment that began with a digit would run
into the last register of class RR. -/
theorem parseOperands_spelled (i : Instr) (hrest : Stops isDigit rest) :
    parseOperands i.opcode.cls (spellOperands i ++ rest)
      = .ok (i.operand1, i.operand2, i.operand3, rest) := by
  by_cases hcls : i.opcode.cls = .rr
  · have hoperand2 : wordOfReg (regOfWord i.operand2) = i.operand2 :=
      wordOfReg_regOfWord ((operand2InRange_iff _ _).mp (operand2InRange_operand2 i) hcls)
    rw [spellOperands_rr hcls, hcls, parseOperands, parseRrOperands_spelled _ _ _ hrest, hoperand2]
  · rw [spellOperands_memory hcls, ← parseRmOperands_spelled]
    cases hc : i.opcode.cls with
    | rr => exact absurd hc hcls
    | rm | ra => rfl

/-- Operand parsing skips the space before the first register. -/
theorem parseOperands_space (cls : OpClass) (text : List Byte) :
    parseOperands cls (0x20 :: text) = parseOperands cls text := by
  have hreg : parseReg (0x20 :: text) = parseReg text := by rw [parseReg, skipBlanks_space]; rfl
  cases cls <;> simp only [parseOperands, parseRrOperands, parseRmOperands, hreg]

theorem opcodeName_isLetter (op : Opcode) : (ascii op.name).all isLetter = true := by
  cases op <;> decide

theorem opcodeName_ne_nil (op : Opcode) : ascii op.name ≠ [] := by
  cases op <;> decide

/-- What follows a spelled address reads back as the instruction and its comment. -/
theorem parseAfterAddress_spelled (i : Instr) (hrest : Stops isDigit rest) :
    parseAfterAddress (0x3A :: 0x20 :: (ascii i.opcode.name ++ 0x20 :: (spellOperands i ++ rest)))
      = .ok (i, rest) := by
  have hname := opcodeName_isLetter i.opcode
  have hspace (text : List Byte) : Stops isLetter (0x20 :: text) := (stops_cons _).mpr (by decide)
  have hblank (text : List Byte) : Stops isBlank (ascii i.opcode.name ++ text) :=
    (stops_of_all hname isLetter_not_blank).append fun h => absurd h (opcodeName_ne_nil _)
  have hmark (text : List Byte) := parseMark_mark (mark := 0x3A) (by decide) .colon text
  have hopcode : matchMnemonic (ascii i.opcode.name) = some i.opcode :=
    matchMnemonic_eq_some (nameMatches_self _)
  have hoperands := (parseOperands_space i.opcode.cls _).trans (parseOperands_spelled i hrest)
  rw [parseAfterAddress, hmark]
  simp only [except_ok_bind, skipBlanks_space, skipBlanks_of_stops (hblank _),
    takeWhile_run hname (hspace _), dropWhile_run hname (hspace _), hopcode, hoperands,
    Instr.ofOperands_operands]
  rfl

end

/-! ## A spelled line (R91, R118, R129) -/

/-- A line that begins with a digit is an instruction line. -/
theorem parseProgramLine_digits (ic : Nat) {digits rest : List Byte} (hne : digits ≠ [])
    (hdigits : digits.all isDigit = true) :
    parseProgramLine ic (digits ++ rest) = parseInstrLine ic (digits ++ rest) := by
  obtain ⟨c, cs, rfl⟩ := List.exists_cons_of_ne_nil hne
  have hc : isDigit c = true := List.all_eq_true.mp hdigits c List.mem_cons_self
  have hstar : c ≠ 0x2A := by rintro rfl; exact absurd hc (by decide)
  have hdot : c ≠ 0x2E := by rintro rfl; exact absurd hc (by decide)
  have hblank : Stops isBlank (c :: (cs ++ rest)) := (stops_cons c).mpr (isDigit_not_blank c hc)
  rw [List.cons_append, parseProgramLine, skipBlanks_of_stops hblank]
  simp only [hstar, hdot, if_false]

theorem spellLine_eq (address : Nat) (i : Instr) (comment : List Byte) :
    spellLine address i comment = decimalNat address ++ 0x3A :: 0x20 ::
      (ascii i.opcode.name ++ 0x20 :: (spellOperands i ++ comment)) := by
  have hcolon : ascii ": " = [0x3A, 0x20] := by decide
  have hspace : ascii " " = [0x20] := by decide
  simp only [spellLine, hcolon, hspace, List.append_assoc, List.cons_append, List.nil_append]

/-- The line of an instruction parses as that instruction at its address, with its comment. -/
theorem parseProgramLine_spellLine {ic address : Nat} (i : Instr) {comment : List Byte}
    (haddress : address < ic) (hsmall : address < 10 ^ 10) (hcomment : Stops isDigit comment) :
    parseProgramLine ic (spellLine address i comment) = .ok (.instr address i comment) := by
  have hdigits := decimalNat_all_isDigit address
  have hcolon (text : List Byte) : Stops isDigit (0x3A :: text) := (stops_cons _).mpr (by decide)
  rw [spellLine_eq, parseProgramLine_digits ic (decimalNat_ne_nil address) hdigits, parseInstrLine]
  simp only [takeWhile_run hdigits (hcolon _), dropWhile_run hdigits (hcolon _),
    decimalNat_ne_nil, if_false, digitsValue_decimalNat hsmall, Nat.not_le.mpr haddress,
    parseAfterAddress_spelled i hcomment]

/-- A byte that is no control character, so ends no line and is not cut off one. -/
def isGraphic (b : Byte) : Bool := decide (0x20 ≤ b.toNat)

theorem all_isGraphic_of_all {p : Byte → Bool} {run : List Byte} (hrun : run.all p = true)
    (hp : ∀ c, p c = true → isGraphic c = true) : run.all isGraphic = true :=
  List.all_eq_true.mpr fun c hc => hp c (List.all_eq_true.mp hrun c hc)

theorem decimalNat_isGraphic (n : Nat) : (decimalNat n).all isGraphic = true :=
  all_isGraphic_of_all (decimalNat_all_isDigit n) (by decide)

theorem decimal_isGraphic (v : Word) : (decimal v).all isGraphic = true := by
  rw [decimal_eq, List.all_append, decimalNat_isGraphic,
    all_isGraphic_of_all (signOf_all_isSign v) (by decide)]
  rfl

theorem opcodeName_isGraphic (op : Opcode) : (ascii op.name).all isGraphic = true :=
  all_isGraphic_of_all (opcodeName_isLetter op) (by decide)

theorem spellOperands_isGraphic (i : Instr) : (spellOperands i).all isGraphic = true := by
  have hmarks : (ascii ",").all isGraphic = true ∧ (ascii "(").all isGraphic = true ∧
      (ascii ")").all isGraphic = true := by decide
  unfold spellOperands
  split <;> simp only [spellReg, List.all_append, decimalNat_isGraphic, decimal_isGraphic, hmarks,
    Bool.and_self]

/-- A spelled line without its comment. -/
theorem spellLine_nil_isGraphic (address : Nat) (i : Instr) :
    (spellLine address i []).all isGraphic = true := by
  have hmarks : (ascii ": ").all isGraphic = true ∧ (ascii " ").all isGraphic = true := by decide
  simp only [spellLine, List.all_append, decimalNat_isGraphic, opcodeName_isGraphic,
    spellOperands_isGraphic, hmarks, List.all_nil, Bool.and_self]

theorem spellLine_append (address : Nat) (i : Instr) (comment : List Byte) :
    spellLine address i comment = spellLine address i [] ++ comment := by
  simp only [spellLine, List.append_nil]

theorem spellLine_ne_nil (address : Nat) (i : Instr) (comment : List Byte) :
    spellLine address i comment ≠ [] := by
  rw [spellLine_eq]
  exact List.append_ne_nil_of_right_ne_nil _ (List.cons_ne_nil _ _)

/-- A spelled line is a text of one line when its comment holds no line end. -/
theorem splitLines_spellLine (address : Nat) (i : Instr) {comment : List Byte}
    (hfeed : (0x0A : Byte) ∉ comment) (hreturn : comment.getLast? ≠ some 0x0D) :
    splitLines (spellLine address i comment) = [spellLine address i comment] := by
  have hgraphic := List.all_eq_true.mp (spellLine_nil_isGraphic address i)
  refine splitLines_single (spellLine_ne_nil address i comment) ?_ ?_ <;> rw [spellLine_append]
  · intro hmem
    rcases List.mem_append.mp hmem with hspelled | hcomment
    · exact absurd (hgraphic _ hspelled) (by decide)
    · exact hfeed hcomment
  · rw [List.getLast?_append]
    cases hlast : comment.getLast? with
    | some b => rwa [hlast] at hreturn
    | none => exact fun h => absurd (hgraphic _ (List.mem_of_getLast? h)) (by decide)

/-- Settles O56: the text is one line, it parses as the instruction, and the slot it fills decodes. -/
theorem spelledInstructionLoadsBack : Obligations.SpelledInstructionLoadsBack := by
  intro address i comment m hvalid haddress hfeed hreturn hdigit
  obtain ⟨⟨-, hic⟩, -⟩ := (Config.valid_iff _).mp hvalid
  have hparse : parseProgramLine m.fullReset.config.ic (spellLine address i comment)
      = .ok (.instr address i comment) :=
    parseProgramLine_spellLine i haddress (by omega) hdigit
  have hload : load (spellLine address i comment) m
      = (m.fullReset.setInstrSlot address ⟨encode i, .assigned, comment⟩).loaded .ok := by
    rw [load, splitLines_spellLine address i hfeed hreturn, loadLines_ok hparse rfl, loadLines_nil]
  rw [hload, State.viewInstr, State.instrSlot_loaded, State.instrSlot_setInstrSlot_same,
    decode_encode]
  exact ⟨rfl, rfl⟩

end Sys2Proof.Machine

/-! # Proofs of the statements about the cycle (40_cycle.md) -/

namespace Sys2Proof.Machine

section
variable {m t : State}

/-! ## The checks before the fetch (R161, R162) -/

/-- The result of a step that was not blocked is all its end records. -/
theorem State.finish_of_idle (hidle : m.waiting = none) (r : StepResult) :
    m.finish r = { m with result := some r } := by
  rw [State.finish, ← hidle]

theorem step_fetch_outside (hidle : m.waiting = none) (hrange : m.instrInRange m.pc = false) :
    step m = .next (m.finish .instructionFault) := by
  have hcycle : beginCycle m = .stop (m.finish .instructionFault) := by simp [beginCycle, hrange]
  simp only [step, hidle, hcycle]

theorem step_breakpoint_fires (hidle : m.waiting = none) (hrange : m.instrInRange m.pc = true)
    (harmed : m.bp = .armed m.pc) : step m = .next (m.disarm.finish .halted) := by
  have hcycle : beginCycle m = .stop (m.disarm.finish .halted) := by
    simp [beginCycle, hrange, State.breakpointFires, harmed]
  simp only [step, hidle, hcycle]

theorem State.instrInRange_eq_false {a : Word}
    (h : ¬ (0 ≤ a.toInt ∧ a.toInt < (m.config.ic : Int))) : m.instrInRange a = false :=
  Bool.eq_false_iff.mpr (mt (m.instrInRange_iff a).mp h)

/-! ## Re-arming (R162) -/

theorem State.rearm_of_pending_elsewhere {a : Word} (hpending : m.bp = .pending a) (ha : a ≠ m.pc) :
    m.rearm = { m with bp := .armed a } := by
  simp only [State.rearm, hpending, if_neg ha]

theorem State.rearm_of_not_elsewhere (h : ∀ a, m.bp = .pending a → a = m.pc) : m.rearm = m := by
  rcases m.rearm_eq with heq | ⟨a, hpending, ha, -⟩
  · exact heq
  · exact absurd (h a hpending) ha

theorem State.breakpointAddress_rearm (m : State) :
    breakpointAddress m.rearm.bp = breakpointAddress m.bp := by
  rcases m.rearm_eq with heq | ⟨a, hpending, -, heq⟩
  · rw [heq]
  · rw [heq, hpending]; rfl

/-- No step sets or clears the breakpoint or moves it (R32). -/
theorem step_breakpointAddress (h : step m = .next t) :
    breakpointAddress t.bp = breakpointAddress m.bp := by
  rcases step_cases m h with ⟨q, -, rfl⟩ | ⟨-, -, rfl⟩ | ⟨-, -, harmed, rfl⟩ | ⟨i, -, -, -, -, hexec⟩
  · obtain ⟨-, -, -, hbp, -⟩ := readInput_fields q m
    rw [hbp]
  · rfl
  · rw [harmed]; rfl
  · obtain ⟨-, -, hbp, -⟩ := exec_fields hexec
    rw [hbp, State.advance_bp, State.breakpointAddress_rearm]

/-! ## The state in which an instruction executes (R163) -/

theorem State.pc_frame (m : State) : m.rearm.advance.pc = m.pc + 1 := by simp

theorem State.fetchAddress_frame (m : State) : m.rearm.advance.fetchAddress = m.pc := by
  rw [State.fetchAddress_advance, State.pc_rearm]

theorem State.dataInRange_frame (m : State) (ea : Word) :
    m.rearm.advance.dataInRange ea = m.dataInRange ea := by
  simp [State.dataInRange]

theorem State.effectiveAddress_frame (m : State) (d : Word) (s : Reg) :
    m.rearm.advance.effectiveAddress d s = d + operandValue m s := by
  rw [State.effectiveAddress_eq, State.readReg_frame]

/-- The registers, the counter and both stores after the frame. -/
theorem State.frame_fields (m : State) :
    m.rearm.advance.pc = m.pc + 1 ∧
    (∀ q, q ≠ m.config.pcIndex → m.rearm.advance.readReg q = m.readReg q) ∧
    m.rearm.advance.icount = m.icount + 1 ∧
    (∀ a, m.rearm.advance.instrSlot a = m.instrSlot a) ∧
    (∀ a, m.rearm.advance.dataSlot a = m.dataSlot a) :=
  ⟨m.pc_frame, fun _ => m.readReg_frame_other, by simp, by simp, by simp⟩

end

/-- Settles O8: the frame changes the program counter, the counter and a breakpoint pending
elsewhere. -/
theorem stepRunsTheDecodedInstruction : Obligations.StepRunsTheDecodedInstruction := by
  intro m i hruns
  obtain ⟨hpc, hregs, hicount, hinstrs, hdata⟩ := m.frame_fields
  refine ⟨hruns.step_eq_exec, hpc, hregs, hicount, hinstrs, hdata, ?_, sameConsole_frame m,
    by simp, by simpa using hruns.idle, by simp, by simp, by simp⟩
  rw [State.advance_bp]
  cases hbp : m.bp with
  | none | armed a => rw [State.rearm_of_not_elsewhere (by simp [hbp]), hbp]
  | pending a =>
    by_cases ha : a = m.pc
    · rw [State.rearm_of_not_elsewhere (by simp [hbp, ha]), hbp]
      exact (if_pos ha).symm
    · rw [State.rearm_of_pending_elsewhere hbp ha]
      exact (if_neg ha).symm

/-- Settles O9: the fetch check ends the step before anything is written. -/
theorem fetchOutsideTheStoreChangesNothing : Obligations.FetchOutsideTheStoreChangesNothing := by
  intro m hidle hrange
  rw [step_fetch_outside hidle (State.instrInRange_eq_false hrange), State.finish_of_idle hidle]

/-- Settles O10: the breakpoint check disarms, the frame re-arms, and nothing else writes the
breakpoint. -/
theorem breakpointFiresOncePerArrival : Obligations.BreakpointFiresOncePerArrival := by
  refine ⟨fun m hidle hlow hhigh harmed => ?fires, fun m i hruns => ?rearms,
    fun m t hidle hrange hstep => ?outside, fun _ _ => step_breakpointAddress⟩
  case fires =>
    rw [step_breakpoint_fires hidle ((m.instrInRange_iff _).mpr ⟨hlow, hhigh⟩) harmed,
      State.finish_of_idle (m := m.disarm) hidle, State.disarm]
  case rearms =>
    refine ⟨_, hruns.step_eq_exec, fun a hpending ha => ?_, fun h => ?_⟩ <;> rw [State.advance_bp]
    · rw [State.rearm_of_pending_elsewhere hpending ha]
    · rw [State.rearm_of_not_elsewhere h]
  case outside =>
    rw [step_fetch_outside hidle (State.instrInRange_eq_false hrange)] at hstep
    cases hstep
    exact ⟨rfl, rfl⟩

/-- Settles O14: the slot decodes to `HALT`, which ends the step in the state after the frame. -/
theorem unassignedSlotHalts : Obligations.UnassignedSlotHalts := by
  intro m hidle hlow hhigh hbreak hslot
  have hdecoded : decode m.fetchWord = .ok (.halt 0 0 0) := by
    rw [State.fetchWord, hslot, decode_encode]
  have hruns : Runs m (.halt 0 0 0) := ⟨hidle, ⟨hlow, hhigh⟩, hbreak, hdecoded⟩
  exact ⟨m.rearm.advance.finish .halted, hruns.step_eq_exec, State.finish_returned _ _, by simp,
    by simp⟩

/-! ## Faults of an instruction (R171) -/

/-- The results with which an instruction reports a fault of its own (R321). -/
def StepResult.isFault (r : StepResult) : Bool :=
  match r with
  | .dataFault | .divideByZero | .inputError => true
  | .ok | .halted | .instructionFault => false

/-- An input operation that fails delivers nothing. -/
theorem readInput_fault {q : InputRequest} {m : State} {r : StepResult}
    (hresult : (readInput q m).result = some r) (hfault : r.isFault = true) :
    ∀ x, (readInput q m).readReg x = m.readReg x := by
  rcases readInput_cases m q with ⟨_, _, _, haltFlag, _, _, h⟩ | ⟨_, _, _, _, h⟩ | ⟨_, _, h⟩ |
    ⟨_, _, h⟩ <;> rw [h] at hresult ⊢
  case inl => cases hresult; cases haltFlag <;> cases hfault
  case inr.inl | inr.inr.inl | inr.inr.inr => exact fun _ => rfl

/-- A meaning that returns a fault writes no register, no slot and no output. -/
theorem exec_fault {i : Instr} {m t : State} {r : StepResult} (h : exec i m = .next t)
    (hresult : t.result = some r) (hfault : r.isFault = true) :
    Unchanged [] [] m t ∧ t.output = m.output := by
  rcases exec_cases h with ⟨r', _, rfl⟩ | ⟨_, _, _, _, rfl⟩ | ⟨_, _, _, _, _, rfl⟩ | ⟨_, _, rfl⟩ |
    ⟨q, _, _, rfl⟩
  case inl => exact ⟨unchanged_finish m r', rfl⟩
  case inr.inl | inr.inr.inl | inr.inr.inr.inl => cases hresult; cases hfault
  case inr.inr.inr.inr =>
    obtain ⟨hconfig, himem, hdmem, hbp, hicount, -, houtput, hload, hrun⟩ := readInput_fields q m
    exact ⟨{
      config := hconfig
      regs := fun x _ => readInput_fault hresult hfault x
      instrs := fun a => by rw [State.instrSlot, himem, State.instrSlot]
      data := fun a _ => by rw [State.dataSlot, hdmem, hconfig, State.dataSlot]
      bp := hbp
      icount := hicount
      pendingRun := hrun
      loadResult := hload }, houtput⟩

/-- Settles O40: the meaning of a faulting instruction leaves the state after the frame alone. -/
theorem faultingStepMakesNoOtherWrites : Obligations.FaultingStepMakesNoOtherWrites := by
  intro m t i hruns hstep hresult
  rw [hruns.step_eq_exec] at hstep
  obtain ⟨r, hr, hfault⟩ : ∃ r, t.result = some r ∧ r.isFault = true := by
    rcases hresult with h | h | h <;> exact ⟨_, h, rfl⟩
  obtain ⟨hkept, houtput⟩ := exec_fault hstep hr hfault
  obtain ⟨hpc, hregs, hicount, hinstrs, hdata⟩ := m.frame_fields
  have hreg (q : Reg) : t.readReg q = m.rearm.advance.readReg q := hkept.regs q List.not_mem_nil
  refine ⟨?_, fun q hq => (hreg q).trans (hregs q hq), hkept.icount.trans hicount,
    fun a => (hkept.instrs a).trans (hinstrs a),
    fun a => (hkept.data a List.not_mem_nil).trans (hdata a), hkept.bp, by simpa using houtput,
    by simpa using hkept.config, by simpa using hkept.pendingRun, by simpa using hkept.loadResult⟩
  rw [State.pc, hreg, hkept.config, ← State.pc, hpc]

/-! ## What the instructions that read registers do, in the terms of the rules (R230 to R234, R260
to R262, R290 to R296) -/

section
variable {m : State} {r s t : Reg} {d : Word}

theorem word_eq_zero_iff (v : Word) : v = 0 ↔ v.toInt = 0 := by
  rw [← BitVec.toInt_inj]; rfl

/-- The byte `OUTC` emits (R195). -/
theorem mod256_toNat (v : Word) : ((mod256 v).toNat : Int) = v.toInt % 256 := by
  rw [mod256, BitVec.toNat_ofInt]
  omega

/-- The token `OUTB` emits (R194). -/
theorem boolToken_eq (v : Word) :
    (if v = 0 then ascii "F" else ascii "T") = [if v.toInt = 0 then 0x46 else 0x54] := by
  have hascii : ascii "F" = [0x46] ∧ ascii "T" = [0x54] := by decide
  obtain ⟨hfalse, htrue⟩ := hascii
  by_cases h : v = 0
  · rw [if_pos h, if_pos ((word_eq_zero_iff v).mp h), hfalse]
  · rw [if_neg h, if_neg (mt (word_eq_zero_iff v).mpr h), htrue]

theorem exec_wrappingForm {form : (Reg → Reg → Reg → Instr) × (Int → Int → Int)}
    (h : form ∈ wrappingForms) (r s t : Reg) (m : State) :
    exec (form.1 r s t) m = arith form.2 r s t m := by
  simp only [wrappingForms, List.mem_cons, List.not_mem_nil, or_false] at h
  rcases h with rfl | rfl | rfl <;> rfl

theorem exec_div_zero (h : (m.readReg t).toInt = 0) :
    exec (.div r s t) m = .next (m.finish .divideByZero) :=
  if_pos ((word_eq_zero_iff _).mpr h)

theorem exec_div_nonzero (h : (m.readReg t).toInt ≠ 0) :
    exec (.div r s t) m = arith Int.tdiv r s t m :=
  if_neg (mt (word_eq_zero_iff _).mp h)

theorem jumpIf_eq (c : Cond) (r : Reg) (d : Word) (s : Reg) (m : State) :
    jumpIf c r d s m = .next
      ((if condHolds c (m.readReg r) then m.writePc (d + m.readReg s) else m).finish .ok) := by
  rw [jumpIf, raise_eq, State.effectiveAddress_eq]

theorem exec_jumpForm {form : (Reg → Word → Reg → Instr) × (Int → Bool)} (h : form ∈ jumpForms)
    (r : Reg) (d : Word) (s : Reg) (m : State) :
    exec (form.1 r d s) m = .next
      ((if form.2 (m.readReg r).toInt then m.writePc (d + m.readReg s) else m).finish .ok) := by
  simp only [jumpForms, List.mem_cons, List.not_mem_nil, or_false] at h
  rcases h with rfl | rfl | rfl | rfl | rfl | rfl <;> exact jumpIf_eq _ r d s m

/-! ## The steps of the same instructions: their registers are read after the advance (R169) -/

/-- Arithmetic after the frame works on the operand values. -/
theorem arith_frame (op : Int → Int → Int) (r s t : Reg) (m : State) :
    arith op r s t m.rearm.advance = .next ((m.rearm.advance.writeReg r
      (wrap32 (op (operandValue m s).toInt (operandValue m t).toInt))).finish .ok) := by
  rw [arith_eq, State.readReg_frame, State.readReg_frame]

theorem Runs.step_wrappingForm {form : (Reg → Reg → Reg → Instr) × (Int → Int → Int)}
    (h : Runs m (form.1 r s t)) (hform : form ∈ wrappingForms) :
    step m = .next ((m.rearm.advance.writeReg r
      (wrap32 (form.2 (operandValue m s).toInt (operandValue m t).toInt))).finish .ok) := by
  rw [h.step_eq_exec, exec_wrappingForm hform, arith_frame]

theorem Runs.step_div_zero (h : Runs m (.div r s t)) (hzero : (operandValue m t).toInt = 0) :
    step m = .next (m.rearm.advance.finish .divideByZero) := by
  rw [← State.readReg_frame] at hzero
  rw [h.step_eq_exec, exec_div_zero hzero]

theorem Runs.step_div_nonzero (h : Runs m (.div r s t)) (hne : (operandValue m t).toInt ≠ 0) :
    step m = .next ((m.rearm.advance.writeReg r
      (wrap32 (Int.tdiv (operandValue m s).toInt (operandValue m t).toInt))).finish .ok) := by
  rw [← State.readReg_frame] at hne
  rw [h.step_eq_exec, exec_div_nonzero hne, arith_frame]

/-- A checked access after the frame does what its effect does, or faults; the capacity it is
checked against is that before the step (R166). -/
theorem withDataCheck_frame {ea : Word} {effect : State} {P : State → Prop} (m : State)
    (heffect : P (effect.finish .ok)) :
    ∃ m', withDataCheck ea effect m.rearm.advance = .next m' ∧
      if m.dataInRange ea = true then Returned m' .ok ∧ P m' else Returned m' .dataFault := by
  rw [← State.dataInRange_frame]
  cases hrange : m.rearm.advance.dataInRange ea with
  | true => exact ⟨_, withDataCheck_in _ hrange, State.finish_returned _ _, heffect⟩
  | false => exact ⟨_, withDataCheck_out _ hrange, State.finish_returned _ _⟩

theorem Runs.step_ld (h : Runs m (.ld r d s)) :
    step m = withDataCheck (d + operandValue m s)
      (m.rearm.advance.writeReg r (m.dataSlot (d + operandValue m s).toNat).word)
      m.rearm.advance := by
  rw [h.step_eq_exec, exec, execLd, State.effectiveAddress_frame, State.memRead,
    State.dataSlot_advance, State.dataSlot_rearm]

theorem Runs.step_st (h : Runs m (.st r d s)) :
    step m = withDataCheck (d + operandValue m s)
      (m.rearm.advance.memWrite (d + operandValue m s) (operandValue m r) (.writer m.pc.toNat))
      m.rearm.advance := by
  rw [h.step_eq_exec, exec, execSt, State.effectiveAddress_frame, State.readReg_frame,
    State.fetchAddress_frame]

theorem Runs.step_lda (h : Runs m (.lda r d s)) :
    step m = .next ((m.rearm.advance.writeReg r (d + operandValue m s)).finish .ok) := by
  rw [h.step_eq_exec, exec, execLda, State.effectiveAddress_frame, raise_eq]

theorem Runs.step_out (h : Runs m (.out r s t)) :
    step m = .next ((m.rearm.advance.emit (decimal (operandValue m r))).finish .ok) := by
  rw [h.step_eq_exec, exec, execOut, State.readReg_frame, raise_eq]

theorem Runs.step_outb (h : Runs m (.outb r s t)) :
    step m = .next ((m.rearm.advance.emit
      [if (operandValue m r).toInt = 0 then 0x46 else 0x54]).finish .ok) := by
  rw [h.step_eq_exec, exec, execOutb, State.readReg_frame, boolToken_eq, raise_eq]

theorem Runs.step_outc (h : Runs m (.outc r s t)) :
    step m = .next ((m.rearm.advance.emit [mod256 (operandValue m r)]).finish .ok) := by
  rw [h.step_eq_exec, exec, execOutc, State.readReg_frame, raise_eq]

theorem Runs.step_jumpForm {form : (Reg → Word → Reg → Instr) × (Int → Bool)}
    (h : Runs m (form.1 r d s)) (hform : form ∈ jumpForms) :
    step m = .next ((if form.2 (operandValue m r).toInt
      then m.rearm.advance.writePc (d + operandValue m s) else m.rearm.advance).finish .ok) := by
  rw [h.step_eq_exec, exec_jumpForm hform, State.readReg_frame, State.readReg_frame]

end

/-- Settles O11: the steps above, each read off in the place its instruction writes. -/
theorem operandsSeeTheAdvancedPc : Obligations.OperandsSeeTheAdvancedPc := by
  refine ⟨fun _ _ => rfl, fun form hform m r s t h => ?wrapping, fun m r s t h => ?div,
    fun m r d s h => ?ld, fun m r d s h => ?st, fun m r d s h => ?lda, fun m r s t h => ?out,
    fun m r s t h => ?outb, fun m r s t h => ?outc, fun form hform m r d s h => ?jump⟩
  case wrapping =>
    exact ⟨_, h.step_wrappingForm hform, State.finish_returned _ _, by simp [wrap32_toInt]⟩
  case div =>
    by_cases hzero : (operandValue m t).toInt = 0
    · exact ⟨_, h.step_div_zero hzero, by rw [if_pos hzero]; exact State.finish_returned _ _⟩
    · refine ⟨_, h.step_div_nonzero hzero, ?_⟩
      rw [if_neg hzero]
      exact ⟨State.finish_returned _ _, by simp [wrap32_toInt]⟩
  case ld =>
    rw [h.step_ld]
    exact withDataCheck_frame _ (by simp)
  case st =>
    rw [h.step_st]
    exact withDataCheck_frame _ (by simp [State.memWrite])
  case lda => exact ⟨_, h.step_lda, State.finish_returned _ _, by simp⟩
  case out => exact ⟨_, h.step_out, State.finish_returned _ _, by simp⟩
  case outb => exact ⟨_, h.step_outb, State.finish_returned _ _, by simp⟩
  case outc => exact ⟨_, _, h.step_outc, State.finish_returned _ _, by simp, mod256_toNat _⟩
  case jump =>
    refine ⟨_, h.step_jumpForm hform, State.finish_returned _ _, ?_⟩
    rw [State.pc_finish]
    split
    · exact State.pc_writePc _ _
    · exact m.pc_frame

end Sys2Proof.Machine

/-! # Proofs of the statements about HALT and console I/O (41_system_io.md) -/

namespace Sys2Proof.Machine

/-! ## HALT and the output instructions (R190, R193 to R196) -/

/-- Settles O15: `HALT` only records its result. -/
theorem haltReturnsHalted : Obligations.HaltReturnsHalted :=
  fun _ _ _ m => ⟨m.finish .halted, rfl, State.finish_returned _ _, unchanged_finish _ _,
    sameConsole_finish _ _⟩

theorem sameInput_emit (m : State) (bytes : List Byte) (r : StepResult) :
    SameInput m ((m.emit bytes).finish r) := ⟨rfl, rfl, rfl⟩

/-- Settles O21: the token is one byte, chosen by whether `x[r]` is 0. -/
theorem outbEmitsAToken : Obligations.OutbEmitsAToken :=
  fun _ _ _ m => ⟨_, rfl, State.finish_returned _ _, unchanged_emit _ _ _, sameInput_emit _ _ _,
    congrArg (m.output ++ ·) (boolToken_eq _)⟩

/-- Settles O22: the byte is `mod256` of `x[r]`. -/
theorem outcEmitsOneByte : Obligations.OutcEmitsOneByte :=
  fun _ _ _ _ => ⟨_, _, rfl, State.finish_returned _ _, unchanged_emit _ _ _, sameInput_emit _ _ _,
    rfl, mod256_toNat _⟩

/-- Settles O23: the emitted byte does not depend on the state. -/
theorem outnlEmitsALineFeed : Obligations.OutnlEmitsALineFeed :=
  fun _ _ _ _ => ⟨_, rfl, State.finish_returned _ _, unchanged_emit _ _ _, sameInput_emit _ _ _, rfl⟩

theorem digitByte_ne_zero {n : Nat} (hpos : 0 < n) (hlt : n < 10) : digitByte n ≠ 0x30 := by
  intro h
  have hvalue := digitByte_value n
  rw [h, Nat.mod_eq_of_lt hlt] at hvalue
  exact hpos.ne hvalue

/-- The spelling of a positive number does not begin with the digit 0. -/
theorem head?_decimalDigits_ne_zero {fuel n : Nat} (hpos : 0 < n) (h : n < 10 ^ fuel) :
    (decimalDigits fuel n).head? ≠ some 0x30 := by
  induction fuel generalizing n with
  | zero => omega
  | succ f ih =>
    rw [decimalDigits]
    split
    · next hlt => simpa using digitByte_ne_zero hpos hlt
    · have hvalue : digitsValue (decimalDigits f (n / 10)) = n / 10 :=
        digitsValue_decimalDigits (by omega)
      have hne : decimalDigits f (n / 10) ≠ [] := fun hnil => by
        rw [hnil] at hvalue
        change 0 = n / 10 at hvalue
        omega
      rw [List.head?_append_of_ne_nil _ hne]
      exact ih (by omega) (by omega)

/-- Only the spelling of 0 begins with the digit 0. -/
theorem decimalNat_head?_zero {n : Nat} (h : n < 10 ^ 10)
    (hhead : (decimalNat n).head? = some 0x30) : decimalNat n = [0x30] := by
  rcases Nat.eq_zero_or_pos n with rfl | hpos
  · rfl
  · exact absurd hhead (head?_decimalDigits_ne_zero hpos h)

/-- Settles O19: a word's spelling is its sign and the digits of its magnitude. -/
theorem outEmitsTheShortestDecimal : Obligations.OutEmitsTheShortestDecimal := by
  intro r s t m
  have hbounds := toInt_bounds (m.readReg r)
  have hsmall : (m.readReg r).toInt.natAbs < 10 ^ 10 := by omega
  exact ⟨_, decimalNat (m.readReg r).toInt.natAbs, rfl, State.finish_returned _ _,
    unchanged_emit _ _ _, sameInput_emit _ _ _, congrArg (m.output ++ ·) (decimal_eq _),
    decimalNat_ne_nil _, decimalNat_all_isDigit _, digitsValue_decimalNat hsmall,
    decimalNat_head?_zero hsmall⟩

/-! ## Boolean lines (R198) -/

theorem isFalseByte_not_blank : ∀ c : Byte, isFalseByte c = true → isBlank c = false := by decide

theorem isFalseByte_iff (c : Byte) : isFalseByte c = true ↔ c = 0x46 ∨ c = 0x66 ∨ c = 0x30 := by
  simp [isFalseByte, or_assoc]

theorem exists_blanks_append_skipBlanks (text : List Byte) :
    ∃ blanks, blanks.all isBlank = true ∧ text = blanks ++ skipBlanks text :=
  ⟨text.takeWhile isBlank, List.all_takeWhile, (List.takeWhile_append_dropWhile).symm⟩

/-- The first byte of a text that is not a blank. -/
theorem head?_skipBlanks_eq_some_iff (text : List Byte) {c : Byte} (hc : isBlank c = false) :
    (skipBlanks text).head? = some c ↔
      ∃ blanks rest, text = blanks ++ c :: rest ∧ blanks.all isBlank = true := by
  constructor
  · intro h
    obtain ⟨blanks, hblanks, htext⟩ := exists_blanks_append_skipBlanks text
    obtain ⟨rest, hrest⟩ := List.head?_eq_some_iff.mp h
    exact ⟨blanks, rest, by rw [← hrest]; exact htext, hblanks⟩
  · rintro ⟨blanks, rest, rfl, hblanks⟩
    rw [skipBlanks_run hblanks, skipBlanks_of_stops ((stops_cons c).mpr hc), List.head?_cons]

/-- What a boolean line reads as, in terms of its first and its last byte that is not a blank. -/
theorem parseBool_eq (line : List Byte) :
    parseBool line = .value (if (skipBlanks line).head?.any isFalseByte = true then 0 else 1)
      (decide ((skipBlanks line.reverse).head? = some hashByte)) := by
  unfold parseBool
  cases skipBlanks line <;> cases skipBlanks line.reverse <;> simp <;> rfl

theorem firstByte_isFalseByte_iff (line : List Byte) :
    (skipBlanks line).head?.any isFalseByte = true ↔
      ∃ blanks c rest, line = blanks ++ c :: rest ∧ blanks.all isBlank = true ∧
        (c = 0x46 ∨ c = 0x66 ∨ c = 0x30) := by
  simp only [Option.any_eq_true, ← isFalseByte_iff]
  constructor
  · rintro ⟨c, hhead, hc⟩
    obtain ⟨blanks, rest, hline, hblanks⟩ :=
      (head?_skipBlanks_eq_some_iff line (isFalseByte_not_blank c hc)).mp hhead
    exact ⟨blanks, c, rest, hline, hblanks, hc⟩
  · rintro ⟨blanks, c, rest, hline, hblanks, hc⟩
    exact ⟨c, (head?_skipBlanks_eq_some_iff line (isFalseByte_not_blank c hc)).mpr
      ⟨blanks, rest, hline, hblanks⟩, hc⟩

theorem lastByte_hash_iff (line : List Byte) :
    (skipBlanks line.reverse).head? = some hashByte ↔
      ∃ front blanks, line = front ++ hashByte :: blanks ∧ blanks.all isBlank = true := by
  rw [head?_skipBlanks_eq_some_iff _ (by decide)]
  constructor
  · rintro ⟨blanks, rest, hline, hblanks⟩
    refine ⟨rest.reverse, blanks.reverse, ?_, by rwa [List.all_reverse]⟩
    rw [← List.reverse_reverse line, hline]
    simp
  · rintro ⟨front, blanks, rfl, hblanks⟩
    exact ⟨blanks.reverse, front.reverse, by simp, by rwa [List.all_reverse]⟩

theorem boolWord_cases (b : Bool) : (if b = true then (0 : Word) else 1) = 0 ∨
    (if b = true then (0 : Word) else 1) = 1 := by
  cases b <;> decide

theorem boolWord_eq_zero_iff (b : Bool) :
    (if b = true then (0 : Word) else 1) = 0 ↔ b = true := by
  cases b <;> decide

/-- Settles O25: the first byte that is not a blank, from either end. -/
theorem booleanLinesReadByTheirEnds : Obligations.BooleanLinesReadByTheirEnds :=
  fun line => ⟨_, _, parseBool_eq line, boolWord_cases _,
    (boolWord_eq_zero_iff _).trans (firstByte_isFalseByte_iff line),
    decide_eq_true_iff.trans (lastByte_hash_iff line)⟩

/-! ## Integer lines (R197) -/

theorem isBlank_not_digit : ∀ c : Byte, isBlank c = true → isDigit c = false := by decide

theorem stops_dropWhile (p : Byte → Bool) (text : List Byte) : Stops p (text.dropWhile p) :=
  fun c hc => by
    have hnot := List.head?_dropWhile_not p text
    rwa [show (text.dropWhile p).head? = some c from hc] at hnot

theorem wrap32_toInt_of_inInt32 {n : Int} (h : inInt32 n = true) : (wrap32 n).toInt = n := by
  rw [inInt32, decide_eq_true_iff] at h
  rw [wrap32_toInt]
  exact Int.bmod_eq_of_le (by omega) (by omega)

/-- A literal at the front of a text, exactly as rule R115 describes it. -/
theorem parseSint_eq_some_iff (text : List Byte) (v : Word) (rest : List Byte) :
    parseSint text = some (v, rest) ↔
      ∃ signs digits, text = signs ++ (digits ++ rest) ∧ signs.all isSign = true ∧ digits ≠ [] ∧
        digits.all isDigit = true ∧ v.toInt = literalValue signs digits ∧ Stops isDigit rest := by
  constructor
  · intro h
    simp only [parseSint] at h
    split at h
    · cases h
    · next hok =>
      rw [not_or, Bool.not_eq_false] at hok
      obtain ⟨hne, hrange⟩ := hok
      cases h
      refine ⟨text.takeWhile isSign, _, ?_, List.all_takeWhile, hne, List.all_takeWhile, ?_,
        stops_dropWhile _ _⟩
      · rw [List.takeWhile_append_dropWhile, List.takeWhile_append_dropWhile]
      · exact wrap32_toInt_of_inInt32 hrange
  · rintro ⟨signs, digits, rfl, hsigns, hne, hdigits, hvalue, hrest⟩
    have hrange : inInt32 (literalValue signs digits) = true :=
      decide_eq_true (hvalue ▸ toInt_bounds v)
    rw [parseSint_literal hsigns hne hdigits hrest, if_pos hrange, ← hvalue, wrap32_self]

/-- What follows the literal and its blanks on an integer line: nothing, or the halt mark and
blanks. -/
def IsIntegerTail (haltFlag : Bool) (tail : List Byte) : Prop :=
  (haltFlag = false ∧ tail = []) ∨
    (haltFlag = true ∧ ∃ blanks, tail = hashByte :: blanks ∧ blanks.all isBlank = true)

theorem IsIntegerTail.stops {p : Byte → Bool} {haltFlag : Bool} {tail : List Byte}
    (h : IsIntegerTail haltFlag tail) (hp : p hashByte = false) : Stops p tail := by
  rcases h with ⟨-, rfl⟩ | ⟨-, blanks, rfl, -⟩
  · exact stops_nil
  · exact (stops_cons _).mpr hp

@[simp] theorem isIntegerTail_nil (haltFlag : Bool) :
    IsIntegerTail haltFlag [] ↔ haltFlag = false := by
  simp [IsIntegerTail]

@[simp] theorem isIntegerTail_cons (haltFlag : Bool) (c : Byte) (rest : List Byte) :
    IsIntegerTail haltFlag (c :: rest) ↔
      haltFlag = true ∧ c = hashByte ∧ rest.all isBlank = true := by
  simp [IsIntegerTail]

/-- An integer line is a literal after blanks, and after blanks its tail. -/
theorem parseInt_eq_value_iff (line : List Byte) (v : Word) (haltFlag : Bool) :
    parseInt line = .value v haltFlag ↔
      ∃ rest, parseSint (skipBlanks line) = some (v, rest) ∧
        IsIntegerTail haltFlag (skipBlanks rest) := by
  unfold parseInt
  cases parseSint (skipBlanks line) with
  | none => simp
  | some literal =>
    obtain ⟨w, rest⟩ := literal
    simp only [Option.some.injEq, Prod.mk.injEq]
    cases hrest : skipBlanks rest with
    | nil => simp [hrest]
    | cons c more =>
      by_cases htail : c = hashByte ∧ more.all isBlank = true
      · simp [hrest, htail.1, htail.2]
      · simp [hrest, htail, -List.all_eq_true]

/-- A literal is not empty and begins with a sign or a digit, so it stops a run of blanks. -/
theorem stops_isBlank_literal {signs digits : List Byte} (hsigns : signs.all isSign = true)
    (hne : digits ≠ []) (hdigits : digits.all isDigit = true) (rest : List Byte) :
    Stops isBlank (signs ++ (digits ++ rest)) :=
  (stops_of_all hsigns isSign_not_blank).append fun _ =>
    (stops_of_all hdigits isDigit_not_blank).append fun h => absurd h hne

/-- Settles O24: the parts of the grammar are the runs of bytes the parser cuts off. -/
theorem integerLinesAreThoseOfTheGrammar : Obligations.IntegerLinesAreThoseOfTheGrammar := by
  intro line v haltFlag
  rw [parseInt_eq_value_iff]
  constructor
  · rintro ⟨rest, hliteral, htail⟩
    obtain ⟨signs, digits, htext, hsigns, hne, hdigits, hvalue, -⟩ :=
      (parseSint_eq_some_iff _ _ _).mp hliteral
    obtain ⟨b1, hb1, hline⟩ := exists_blanks_append_skipBlanks line
    obtain ⟨b2, hb2, hrest⟩ := exists_blanks_append_skipBlanks rest
    refine ⟨b1, signs, digits, b2, skipBlanks rest, ?_, hb1, hb2, hsigns, hne, hdigits, hvalue,
      htail⟩
    calc line = b1 ++ (signs ++ (digits ++ rest)) := by rw [← htext]; exact hline
      _ = b1 ++ (signs ++ (digits ++ (b2 ++ skipBlanks rest))) := by rw [← hrest]
      _ = b1 ++ signs ++ digits ++ b2 ++ skipBlanks rest := by simp only [List.append_assoc]
  · rintro ⟨b1, signs, digits, b2, tail, rfl, hb1, hb2, hsigns, hne, hdigits, hvalue, htail⟩
    change IsIntegerTail haltFlag tail at htail
    have hdigit : Stops isDigit (b2 ++ tail) :=
      (stops_of_all hb2 isBlank_not_digit).append fun _ => htail.stops (by decide)
    refine ⟨b2 ++ tail, ?_, ?_⟩
    · simp only [List.append_assoc]
      rw [skipBlanks_run hb1, skipBlanks_of_stops (stops_isBlank_literal hsigns hne hdigits _)]
      exact (parseSint_eq_some_iff _ _ _).mpr
        ⟨signs, digits, rfl, hsigns, hne, hdigits, hvalue, hdigit⟩
    · rwa [skipBlanks_run hb2, skipBlanks_of_stops (htail.stops (by decide))]

/-- A spelled word with a tail after it is read as that word. -/
theorem parseInt_decimal (v : Word) {haltFlag : Bool} {rest : List Byte} (hrest : Stops isDigit rest)
    (htail : IsIntegerTail haltFlag (skipBlanks rest)) :
    parseInt (decimal v ++ rest) = .value v haltFlag := by
  refine (parseInt_eq_value_iff _ _ _).mpr ⟨rest, ?_, htail⟩
  rw [skipBlanks_of_stops (stops_isBlank_decimal v rest), parseSint_decimal v hrest]

/-- Settles O20: a spelled word is a literal, alone or with the halt mark after it. -/
theorem printedDecimalReadsBack : Obligations.PrintedDecimalReadsBack := by
  intro v
  have hmark : ascii " #" = [0x20, hashByte] := by decide
  constructor
  · simpa using parseInt_decimal v (haltFlag := false) stops_nil (.inl ⟨rfl, rfl⟩)
  · rw [hmark]
    exact parseInt_decimal v ((stops_cons _).mpr (by decide)) (.inr ⟨rfl, [], rfl, rfl⟩)

/-! ## The input instructions (R191, R192, R199) -/

/-- The meaning of an input instruction is the input operation. -/
theorem exec_of_asksFor {i : Instr} {q : InputRequest} (h : AsksFor i q) (m : State) :
    exec i m = .next (readInput q m) := by
  cases i with
  | in_ | inb => cases h; rfl
  | _ => exact False.elim h

theorem unchanged_readLine (m : State) (line : List Byte) (rest : List (List Byte)) (dest : Reg)
    (v : Word) (r : StepResult) :
    Unchanged [dest] [] m (((m.takeLine line rest).writeReg dest v).finish r) :=
  ⟨rfl, (unchanged_writeReg (m.takeLine line rest) dest v r).regs, fun _ => rfl, fun _ _ => rfl,
    rfl, rfl, rfl, rfl⟩

theorem unchanged_takeLine (m : State) (line : List Byte) (rest : List (List Byte))
    (r : StepResult) : Unchanged [] [] m ((m.takeLine line rest).finish r) :=
  ⟨rfl, fun _ _ => rfl, fun _ => rfl, fun _ _ => rfl, rfl, rfl, rfl, rfl⟩

section
variable {i : Instr} {q : InputRequest} {m : State} {line : List Byte} {rest : List (List Byte)}

/-- An input instruction that finds a line with a value. -/
theorem exec_input_value (hasks : AsksFor i q) {v : Word} {haltFlag : Bool}
    (hlines : m.inputLines = line :: rest) (hparse : parseLine q.kind line = .value v haltFlag) :
    ∃ m', exec i m = .next m' ∧ m'.readReg q.dest = v ∧
      Returned m' (if haltFlag then .halted else .ok) ∧
      Unchanged [q.dest] [] m m' ∧ LineTaken line rest m m' ∧ m'.output = m.output := by
  rw [exec_of_asksFor hasks, readInput_line m hlines, hparse, deliver_value]
  exact ⟨_, rfl, by simp, State.finish_returned _ _, unchanged_readLine _ _ _ _ _ _,
    ⟨rfl, rfl, rfl⟩, rfl⟩

/-- An input instruction that finds a malformed line. -/
theorem exec_input_malformed (hasks : AsksFor i q) (hlines : m.inputLines = line :: rest)
    (hparse : parseLine q.kind line = .malformed) :
    ∃ m', exec i m = .next m' ∧ Returned m' .inputError ∧
      Unchanged [] [] m m' ∧ LineTaken line rest m m' ∧ m'.output = m.output := by
  rw [exec_of_asksFor hasks, readInput_line m hlines, hparse, deliver_malformed]
  exact ⟨_, rfl, State.finish_returned _ _, unchanged_takeLine _ _ _ _, ⟨rfl, rfl, rfl⟩, rfl⟩

/-- An input instruction at end of input. -/
theorem exec_input_end (hasks : AsksFor i q) (hlines : m.inputLines = [])
    (hended : m.inputEnded = true) :
    ∃ m', exec i m = .next m' ∧ Returned m' .inputError ∧
      Unchanged [] [] m m' ∧ SameConsole m m' := by
  rw [exec_of_asksFor hasks, readInput_end m hlines hended]
  exact ⟨_, rfl, State.finish_returned _ _, unchanged_finish _ _, sameConsole_finish _ _⟩

end

/-- Settles O16: a value, a malformed line, and end of input. -/
theorem inReadsAnIntegerLine : Obligations.InReadsAnIntegerLine := by
  intro r s t m
  have hasks : AsksFor (.in_ r s t) ⟨.integer, r⟩ := rfl
  exact ⟨fun _ _ _ _ => exec_input_value hasks, fun _ _ => exec_input_malformed hasks,
    exec_input_end hasks⟩

/-- Settles O17: every line has a boolean value, so only the end of input fails. -/
theorem inbReadsABooleanLine : Obligations.InbReadsABooleanLine := by
  intro r s t m
  have hasks : AsksFor (.inb r s t) ⟨.boolean, r⟩ := rfl
  refine ⟨fun line rest hlines => ?_, exec_input_end hasks⟩
  obtain ⟨v, haltFlag, hparse, hvalue, -⟩ := booleanLinesReadByTheirEnds line
  obtain ⟨m', hexec, hread⟩ := exec_input_value hasks hlines hparse
  exact ⟨v, haltFlag, m', hparse, hvalue, hexec, hread⟩

/-! ## The wait for input (R200, R334) -/

/-- What the host supplies has reached the input channel. -/
def State.feed (m : State) (x : ConsoleInput) : State :=
  match x with
  | .line text => m.supplyLine text
  | .ended => m.endInput

theorem unchanged_block (m : State) (q : InputRequest) : Unchanged [] [] m (m.block q) :=
  ⟨rfl, fun _ _ => rfl, fun _ => rfl, fun _ _ => rfl, rfl, rfl, rfl, rfl⟩

/-- The input operation does not see an earlier wait: it ends it or sets its own. -/
theorem readInput_of_block (q q' : InputRequest) (m : State) :
    readInput q (m.block q') = readInput q m := by
  rcases readInput_cases m q with ⟨line, rest, v, haltFlag, hlines, hparse, h⟩ |
    ⟨line, rest, hlines, hparse, h⟩ | ⟨hlines, hended, h⟩ | ⟨hlines, hended, h⟩
  · rw [h, readInput_line (m.block q') hlines, hparse]; rfl
  · rw [h, readInput_line (m.block q') hlines, hparse]; rfl
  · rw [h, readInput_end (m.block q') hlines hended]; rfl
  · rw [h, readInput_block (m.block q') hlines hended]; rfl

theorem State.feed_block (m : State) (q : InputRequest) (x : ConsoleInput) :
    (m.block q).feed x = (m.feed x).block q := by
  cases x <;> rfl

theorem step_waiting {m : State} {q : InputRequest} (h : m.waiting = some q) :
    step m = .next (readInput q m) := by
  simp only [step, h]

/-- A blocked step goes on as the input operation would have gone with the input at once. -/
theorem step_feed_block (m : State) (q : InputRequest) (x : ConsoleInput) :
    step ((m.block q).feed x) = .next (readInput q (m.feed x)) := by
  rw [State.feed_block, step_waiting (State.block_waiting _ q), readInput_of_block]

/-- Settles O18: the waiting state is the state before it with a wait that no later input
operation sees. -/
theorem blockedInputGoesOnWithTheLine : Obligations.BlockedInputGoesOnWithTheLine := by
  intro i m hop hlines hended
  obtain ⟨q, hasks⟩ := (exists_asksFor_iff i).mpr (by simpa using hop)
  have hblock : readInput q m = m.block q := readInput_block m hlines hended
  have hfed (x : ConsoleInput) : step ((m.block q).feed x) = exec i (m.feed x) := by
    rw [step_feed_block, exec_of_asksFor hasks]
  refine ⟨m.block q, by rw [exec_of_asksFor hasks, hblock], rfl, rfl, unchanged_block m q,
    ⟨⟨rfl, rfl, rfl⟩, rfl⟩, ?_, fun line => hfed (.line line), hfed .ended⟩
  rw [step_waiting (m.block_waiting q), readInput_of_block, hblock]

end Sys2Proof.Machine

/-! # Proof of the statement about a blocked bulk run (41_system_io.md, 60_exceptions.md) -/

namespace Sys2Proof.Machine

section
variable {m t : State}

/-! ## A step that returns `OK` does not see input supplied after what it reads -/

theorem readInput_feed {q : InputRequest} (x : ConsoleInput)
    (h : (readInput q m).result = some .ok) : readInput q (m.feed x) = (readInput q m).feed x := by
  rcases readInput_cases m q with ⟨line, rest, v, haltFlag, hlines, hparse, heq⟩ |
    ⟨_, _, _, _, heq⟩ | ⟨_, _, heq⟩ | ⟨_, _, heq⟩
  case inl =>
    rw [heq]
    cases x with
    | line text =>
      have hfed : (m.feed (.line text)).inputLines = line :: (rest ++ [text]) := by
        simp [State.feed, hlines]
      rw [readInput_line _ hfed, hparse]
      rfl
    | ended =>
      rw [readInput_line (m.feed .ended) hlines, hparse]
      rfl
  all_goals simp [heq] at h

theorem withDataCheck_feed {ea : Word} {effect : State} (x : ConsoleInput)
    (h : withDataCheck ea effect m = .next t) (hok : t.result = some .ok) :
    withDataCheck ea (effect.feed x) (m.feed x) = .next (t.feed x) := by
  rcases withDataCheck_cases h with ⟨hrange, rfl⟩ | rfl
  · rw [withDataCheck_in _ (by cases x <;> exact hrange)]
    cases x <;> rfl
  · simp at hok

theorem jumpIf_feed {c : Cond} {r : Reg} {d : Word} {s : Reg} (x : ConsoleInput)
    (h : jumpIf c r d s m = .next t) : jumpIf c r d s (m.feed x) = .next (t.feed x) := by
  rw [jumpIf_eq] at h ⊢
  cases h
  cases hc : condHolds c (m.readReg r) <;> cases x <;> simp [State.feed, hc] <;> rfl

/-- A meaning that returns `OK` does the same with more input at hand. -/
theorem exec_feed {i : Instr} (x : ConsoleInput) (h : exec i m = .next t)
    (hok : t.result = some .ok) : exec i (m.feed x) = .next (t.feed x) := by
  cases i with
  | in_ | inb =>
    cases h
    exact congrArg _ (readInput_feed x hok)
  | div r s divisor =>
    by_cases hzero : (m.readReg divisor).toInt = 0
    · rw [exec_div_zero hzero] at h
      cases h
      simp at hok
    · rw [exec_div_nonzero hzero] at h
      rw [exec_div_nonzero (by cases x <;> exact hzero)]
      cases h; cases x <;> rfl
  | ld | st => cases x <;> exact withDataCheck_feed _ h hok
  | jlt | jle | jgt | jge | jeq | jne => exact jumpIf_feed x h
  | _ => cases h; cases x <;> rfl

theorem State.rearm_feed (m : State) (x : ConsoleInput) : (m.feed x).rearm = m.rearm.feed x := by
  by_cases h : ∀ a, m.bp = .pending a → a = m.pc
  · rw [State.rearm_of_not_elsewhere h]
    cases x <;> exact State.rearm_of_not_elsewhere h
  · push Not at h
    obtain ⟨a, hpending, ha⟩ := h
    rw [State.rearm_of_pending_elsewhere hpending ha]
    cases x <;> exact State.rearm_of_pending_elsewhere hpending ha

theorem State.frame_feed (m : State) (x : ConsoleInput) :
    (m.feed x).rearm.advance = m.rearm.advance.feed x := by
  rw [State.rearm_feed]
  cases x <;> rfl

theorem Runs.feed {i : Instr} (h : Runs m i) (x : ConsoleInput) : Runs (m.feed x) i := by
  cases x <;> exact ⟨h.idle, h.inRange, h.noBreak, h.decoded⟩

/-- A step that returns `OK` does the same with more input at hand. -/
theorem step_feed (x : ConsoleInput) (h : step m = .next t) (hok : t.result = some .ok) :
    step (m.feed x) = .next (t.feed x) := by
  rcases step_cases m h with ⟨q, hwaiting, rfl⟩ | ⟨_, _, rfl⟩ | ⟨_, _, _, rfl⟩ |
    ⟨i, hidle, hrange, hbreak, hdecoded, hexec⟩
  · rw [step_waiting (by cases x <;> exact hwaiting), readInput_feed x hok]
  · simp at hok
  · simp at hok
  · have hruns : Runs m i := ⟨hidle, (m.instrInRange_iff _).mp hrange, hbreak, hdecoded⟩
    rw [(hruns.feed x).step_eq_exec, State.frame_feed, exec_feed x hexec hok]

/-! ## A step that waits -/

theorem readInput_waits {q : InputRequest} (h : (readInput q m).result = none) :
    m.inputEnded = false ∧ readInput q m = m.block q := by
  rcases readInput_cases m q with ⟨_, _, _, _, _, _, heq⟩ | ⟨_, _, _, _, heq⟩ | ⟨_, _, heq⟩ |
    ⟨_, hended, heq⟩
  case inr.inr.inr => exact ⟨hended, heq⟩
  all_goals simp [heq] at h

theorem exec_waits {i : Instr} (h : exec i m = .next t) (hnone : t.result = none) :
    ∃ q, AsksFor i q ∧ m.inputEnded = false ∧ t = m.block q := by
  rcases exec_cases h with ⟨_, _, rfl⟩ | ⟨_, _, _, _, rfl⟩ | ⟨_, _, _, _, _, rfl⟩ | ⟨_, _, rfl⟩ |
    ⟨q, hasks, _, rfl⟩
  case inr.inr.inr.inr => exact ⟨q, hasks, readInput_waits hnone⟩
  all_goals simp at hnone

/-- A step without a result waits for what it asked for: with that input at hand it goes on as it
would have gone with the input before. -/
theorem step_waits (h : step m = .next t) (hnone : t.result = none) :
    t.waiting.isSome = true ∧ t.inputEnded = false ∧
    ∀ x, ∃ u, step (t.feed x) = .next u ∧ step (m.feed x) = .next u := by
  rcases step_cases m h with ⟨q, hwaiting, rfl⟩ | ⟨_, _, rfl⟩ | ⟨_, _, _, rfl⟩ |
    ⟨i, hidle, hrange, hbreak, hdecoded, hexec⟩
  · obtain ⟨hended, heq⟩ := readInput_waits hnone
    rw [heq]
    exact ⟨rfl, hended, fun x =>
      ⟨_, step_feed_block m q x, step_waiting (by cases x <;> exact hwaiting)⟩⟩
  · simp at hnone
  · simp at hnone
  · obtain ⟨q, hasks, hended, rfl⟩ := exec_waits hexec hnone
    have hruns : Runs m i := ⟨hidle, (m.instrInRange_iff _).mp hrange, hbreak, hdecoded⟩
    refine ⟨rfl, hended, fun x => ⟨_, step_feed_block _ q x, ?_⟩⟩
    rw [(hruns.feed x).step_eq_exec, State.frame_feed, exec_of_asksFor hasks]

theorem step_pendingRun (h : step m = .next t) : t.pendingRun = m.pendingRun := by
  rcases step_cases m h with ⟨q, _, rfl⟩ | ⟨_, _, rfl⟩ | ⟨_, _, _, rfl⟩ | ⟨_, _, _, _, _, hexec⟩
  · obtain ⟨-, -, -, -, -, -, -, -, hpending⟩ := readInput_fields q m
    exact hpending
  · rfl
  · rfl
  · obtain ⟨-, -, -, -, -, -, hpending⟩ := exec_fields hexec
    simpa using hpending

/-! ## A run that waits (R333) -/

variable {s : State} {n further calls : Nat}

/-- The first step of a run that waits: it waits itself, or returns `OK` before a run that waits. -/
theorem runUntilHalt_waits_cases (h : runUntilHalt (n + 1) m = ⟨s, .waits further, calls⟩) :
    ∃ t, step m = .next t ∧
      ((t.result = none ∧ s = t ∧ further = n ∧ calls = 0) ∨
        (t.result = some .ok ∧
          ∃ calls', runUntilHalt n t = ⟨s, .waits further, calls'⟩ ∧ calls = calls' + 1)) := by
  cases hstep : step m with
  | fault f => cases f
  | refused why => rw [runUntilHalt_refused hstep] at h; cases h
  | next t =>
    refine ⟨t, rfl, ?_⟩
    by_cases hok : t.result = some .ok
    · rw [runUntilHalt_ok hstep hok] at h
      cases hrun : runUntilHalt n t with
      | mk s' ending calls' =>
        rw [hrun] at h
        cases h
        exact .inr ⟨hok, calls', rfl, rfl⟩
    · cases hresult : t.result with
      | none =>
        rw [runUntilHalt_blocked hstep hresult] at h
        cases h
        exact .inl ⟨rfl, rfl, rfl, rfl⟩
      | some r =>
        rw [runUntilHalt_stop hstep hresult fun hr => hok (hr ▸ hresult)] at h
        cases h

theorem runUntilHalt_waits (h : runUntilHalt n m = ⟨s, .waits further, calls⟩) :
    s.waiting.isSome = true ∧ s.inputEnded = false ∧ s.pendingRun = m.pendingRun := by
  induction n generalizing m calls with
  | zero => cases h
  | succ n ih =>
    obtain ⟨t, hstep, ⟨hnone, rfl, -, -⟩ | ⟨_, calls', hrun, -⟩⟩ :=
      runUntilHalt_waits_cases h
    · obtain ⟨hwaiting, hended, -⟩ := step_waits hstep hnone
      exact ⟨hwaiting, hended, step_pendingRun hstep⟩
    · rw [← step_pendingRun hstep]
      exact ih hrun

/-- A run that makes a step depends on the state after that step only. -/
theorem runUntilHalt_congr {m' : State} (h : step m = .next t) (h' : step m' = .next t) (n : Nat) :
    runUntilHalt (n + 1) m = runUntilHalt (n + 1) m' := by
  simp only [runUntilHalt, h, h']

/-- The further calls of a run that waits, with input then supplied, end the run as it would have
ended with that input before. -/
theorem runUntilHalt_feed_of_waits (h : runUntilHalt n m = ⟨s, .waits further, calls⟩)
    (x : ConsoleInput) :
    runUntilHalt n (m.feed x) =
      { runUntilHalt (further + 1) (s.feed x) with
        calls := calls + (runUntilHalt (further + 1) (s.feed x)).calls } := by
  induction n generalizing m calls with
  | zero => cases h
  | succ n ih =>
    obtain ⟨t, hstep, ⟨hnone, rfl, rfl, rfl⟩ | ⟨hok, calls', hrun, rfl⟩⟩ :=
      runUntilHalt_waits_cases h
    · obtain ⟨-, -, hfed⟩ := step_waits hstep hnone
      obtain ⟨u, hlate, hearly⟩ := hfed x
      rw [runUntilHalt_congr hearly hlate]
      simp
    · have hfed : (t.feed x).result = some .ok := by cases x <;> exact hok
      rw [runUntilHalt_ok (step_feed x hstep hok) hfed, ih hrun]
      simp only [RunOutcome.mk.injEq, true_and]
      omega

/-! ## The host's view of it (R200, R336) -/

/-- Calls that are over count towards the reply. -/
theorem settleRun_add (calls : Nat) (o : RunOutcome) :
    settleRun 0 { o with calls := calls + o.calls } = settleRun calls o := by
  obtain ⟨t, ending, k⟩ := o
  cases ending <;> simp

theorem hostRun_blocked {b : State} (h : hostRun n m = (b, .blocked)) :
    ∃ s further calls, runUntilHalt n m.clearRun = ⟨s, .waits further, calls⟩ ∧
      b = { s with pendingRun := some ⟨further, calls⟩ } := by
  unfold hostRun at h
  generalize hrun : runUntilHalt n m.clearRun = o at h
  obtain ⟨s, ending, calls⟩ := o
  cases ending with
  | returned r => cases h
  | refused why => cases h
  | waits further =>
    rw [settleRun_waits, Nat.zero_add] at h
    cases h
    exact ⟨s, further, calls, rfl, rfl⟩

theorem hostRun_blocked_waits {b : State} (h : hostRun n m = (b, .blocked)) :
    b.waiting.isSome = true ∧ b.inputEnded = false := by
  obtain ⟨s, further, calls, hrun, rfl⟩ := hostRun_blocked h
  obtain ⟨hwaiting, hended, -⟩ := runUntilHalt_waits hrun
  exact ⟨hwaiting, hended⟩

theorem hostCall_of_waiting (h : m.waiting.isSome = true) (op : HostOp) :
    hostCall op m = hostCallBlocked op m := by
  obtain ⟨q, hq⟩ := Option.isSome_iff_exists.mp h
  simp only [hostCall, hq]

theorem hostCall_of_idle (h : m.waiting = none) (op : HostOp) :
    hostCall op m = hostCallIdle op m := by
  simp only [hostCall, h]

/-- Input supplied while a step is blocked lets its call go on. -/
theorem hostCall_feed (hwaiting : m.waiting.isSome = true) (hended : m.inputEnded = false)
    (x : ConsoleInput) : hostCall x.op m = goOn (m.feed x) := by
  rw [hostCall_of_waiting hwaiting]
  cases x with
  | line text => exact if_neg (by simp [hended])
  | ended => rfl

/-- A blocked run that is fed gives what the run gives that was fed before. -/
theorem goOn_feed {b : State} (h : hostRun n m = (b, .blocked)) (x : ConsoleInput) :
    goOn (b.feed x) = hostRun n (m.feed x) := by
  obtain ⟨s, further, calls, hrun, rfl⟩ := hostRun_blocked h
  obtain ⟨-, -, hpending⟩ := runUntilHalt_waits hrun
  have hclear : s.clearRun = s := by rw [State.clearRun, ← m.clearRun_pendingRun, ← hpending]
  have hholds : State.clearRun (State.feed { s with pendingRun := some ⟨further, calls⟩ } x) =
      s.feed x := by
    calc _ = s.clearRun.feed x := by cases x <;> rfl
      _ = s.feed x := by rw [hclear]
  have hearly : (m.feed x).clearRun = m.clearRun.feed x := by cases x <;> rfl
  rw [goOn_run (p := ⟨further, calls⟩) (by cases x <;> rfl), hholds, hostRun, hearly,
    runUntilHalt_feed_of_waits hrun x, settleRun_add]

end

/-- Settles O58: the calls a blocked run has left go as they would have gone with the input at hand
before, and its wait turns every other operation away. -/
theorem blockedRunGoesOnAsIfFedBefore : Obligations.BlockedRunGoesOnAsIfFedBefore := by
  intro n m b hidle h
  rw [hostCall_of_idle hidle] at h
  change hostRun n m = (b, .blocked) at h
  obtain ⟨hwaiting, hended⟩ := hostRun_blocked_waits h
  have hfed (x : ConsoleInput) : hostCall x.op b = hostCall (.runUntilHalt n) (m.feed x) := by
    rw [hostCall_feed hwaiting hended, goOn_feed h, hostCall_of_idle (by cases x <;> exact hidle)]
    rfl
  refine ⟨fun line => hfed (.line line), hfed .ended, fun op hline hend => ?_⟩
  rw [hostCall_of_waiting hwaiting]
  cases op with
  | supplyLine line => exact absurd rfl (hline line)
  | endInput => exact absurd rfl hend
  | _ => rfl

end Sys2Proof.Machine

/-! # Proofs of the statements about arithmetic (42_arithmetic.md) -/

namespace Sys2Proof.Machine

/-! ## What the four instructions write (R231 to R234) -/

/-- The shared operation writes its wrapped value to the destination and does nothing else (R230). -/
theorem arith_writes (op : Int → Int → Int) (r s t : Reg) (m : State) :
    ∃ m', arith op r s t m = .next m' ∧ Returned m' .ok ∧
      (m'.readReg r).toInt = (op (m.readReg s).toInt (m.readReg t).toInt).bmod (2 ^ 32) ∧
      Unchanged [r] [] m m' ∧ SameConsole m m' :=
  ⟨_, arith_eq m op r s t, State.finish_returned _ _,
    (congrArg BitVec.toInt (m.readReg_writeReg_same r _)).trans (wrap32_toInt _),
    unchanged_writeReg _ _ _ _, sameConsole_writeReg _ _ _ _⟩

/-- Settles O26: `ADD` is the shared operation with the sum. -/
theorem addWritesTheWrappedSum : Obligations.AddWritesTheWrappedSum :=
  arith_writes fun a b => a + b

/-- Settles O27: `SUB` is the shared operation with the difference. -/
theorem subWritesTheWrappedDifference : Obligations.SubWritesTheWrappedDifference :=
  arith_writes fun a b => a - b

/-- Settles O28: `MUL` is the shared operation with the product. -/
theorem mulWritesTheWrappedProduct : Obligations.MulWritesTheWrappedProduct :=
  arith_writes fun a b => a * b

/-- Settles O29: `DIV` ends with its result alone for a zero divisor and is otherwise the shared
operation with the truncated quotient. -/
theorem divTruncatesOrReportsZero : Obligations.DivTruncatesOrReportsZero := by
  refine fun r s t m => ⟨fun hzero => ?_, fun hne => ?_⟩
  · exact ⟨_, exec_div_zero hzero, State.finish_returned _ _, unchanged_finish _ _,
      sameConsole_finish _ _⟩
  · rw [exec_div_nonzero hne]
    exact arith_writes Int.tdiv r s t m

/-! ## The laws of the truncated quotient (R235) -/

/-- Only `-2^31 / -1` leaves the range of a word. -/
theorem tdiv_bmod_eq_tdiv {a b : Word} (h : ¬ (a.toInt = -2147483648 ∧ b.toInt = -1)) :
    (Int.tdiv a.toInt b.toInt).bmod (2 ^ 32) = Int.tdiv a.toInt b.toInt := by
  have hrange : a ≠ BitVec.intMin 32 ∨ b ≠ -1#32 := by
    by_contra! hcorner
    obtain ⟨rfl, rfl⟩ := hcorner
    exact h (by decide)
  rw [← BitVec.toInt_sdiv, BitVec.toInt_sdiv_of_ne_or_ne a b hrange]

theorem natAbs_tdiv_mul_le (a b : Int) : (a.tdiv b * b).natAbs ≤ a.natAbs := by
  rw [Int.natAbs_mul, Int.natAbs_tdiv]
  exact Nat.div_mul_le_self _ _

/-- A quotient is zero exactly where the divisor is the larger in magnitude; elsewhere its sign is
the product of the two signs, and the divisor's cancels. -/
theorem tdiv_eq_zero_or_sign_tdiv_mul (a : Int) {b : Int} (hb : b ≠ 0) :
    a.tdiv b = 0 ∨ (a.tdiv b * b).sign = a.sign := by
  have hsign := Int.sign_tdiv a b
  split at hsign
  · exact .inl (Int.sign_eq_zero_iff_zero.mp hsign)
  · right
    calc (a.tdiv b * b).sign = a.sign * (b.sign * b.sign) := by
          rw [Int.sign_mul, hsign, mul_assoc]
      _ = a.sign := by rw [← Int.sign_mul, Int.sign_eq_one_of_pos (mul_self_pos.mpr hb), mul_one]

theorem sub_tdiv_mul (a b : Int) : a - a.tdiv b * b = a.tmod b := by
  rw [Int.tmod_def, mul_comm]

theorem natAbs_tmod_lt (a : Int) {b : Int} (hb : b ≠ 0) : (a.tmod b).natAbs < b.natAbs := by
  rw [Int.natAbs_tmod]
  exact Nat.mod_lt _ (Int.natAbs_pos.mpr hb)

theorem tmod_eq_zero_or_sign_tmod (a b : Int) : a.tmod b = 0 ∨ (a.tmod b).sign = a.sign := by
  have hsign := Int.sign_tmod a b
  split at hsign
  · exact .inl (Int.sign_eq_zero_iff_zero.mp hsign)
  · exact .inr hsign

/-- Settles O30: but for the one overflow the register holds the truncated quotient itself, whose
remainder is `tmod`. -/
theorem divisionObeysItsLaws : Obligations.DivisionObeysItsLaws := by
  intro r s t m m' hne h
  obtain ⟨m₁, h₁, -, hquotient, -⟩ := (divTruncatesOrReportsZero r s t m).2 hne
  cases h₁.symm.trans h
  refine ⟨fun ha hb => ?_, fun hcorner => ?_⟩
  · rw [hquotient, ha, hb]
    decide
  · rw [hquotient, tdiv_bmod_eq_tdiv hcorner, sub_tdiv_mul]
    exact ⟨natAbs_tdiv_mul_le _ _, tdiv_eq_zero_or_sign_tdiv_mul _ hne, natAbs_tmod_lt _ hne,
      tmod_eq_zero_or_sign_tmod _ _⟩

end Sys2Proof.Machine

/-! # Proofs of the statements about memory instructions (43_memory_ops.md) -/

namespace Sys2Proof.Machine

/-! ## What a step does to the data store (R51, R264) -/

/-- The input operation keeps every data slot with its tag. -/
theorem readInput_dataSlot (q : InputRequest) (m : State) (a : Nat) :
    (readInput q m).dataSlot a = m.dataSlot a := by
  obtain ⟨hconfig, -, hdmem, -⟩ := readInput_fields q m
  rw [State.dataSlot, hconfig, hdmem, State.dataSlot]

/-- A meaning keeps every data slot, or is that of a store in range and keeps all but one. -/
theorem exec_dataSlot {i : Instr} {m t : State} (h : exec i m = .next t) :
    (∀ a, t.dataSlot a = m.dataSlot a) ∨
    ∃ r d s, i = .st r d s ∧ t.result = some .ok ∧
      ∀ a, a ≠ (m.effectiveAddress d s).toNat → t.dataSlot a = m.dataSlot a := by
  rcases exec_cases h with ⟨_, _, rfl⟩ | ⟨_, _, _, _, rfl⟩ | ⟨r, d, s, rfl, _, rfl⟩ | ⟨_, _, rfl⟩ |
    ⟨q, _, _, rfl⟩
  case inl | inr.inl | inr.inr.inr.inl => exact .inl fun _ => rfl
  case inr.inr.inl =>
    exact .inr ⟨r, d, s, rfl, rfl, fun _ ha => State.dataSlot_setDataSlot_other m _ ha⟩
  case inr.inr.inr.inr => exact .inl (readInput_dataSlot q m)

/-- Settles O35: a step that executes nothing keeps the data store, and so does the frame of one that
does; what is left is the meaning of the executed instruction. -/
theorem onlyStoresChangeTheDataStore : Obligations.OnlyStoresChangeTheDataStore := by
  intro m t h
  rcases step_cases m h with ⟨q, _, rfl⟩ | ⟨_, _, rfl⟩ | ⟨_, _, _, rfl⟩ | ⟨i, hw, hr, hb, hd, hexec⟩
  case inl => exact .inl (readInput_dataSlot q m)
  case inr.inl | inr.inr.inl => exact .inl fun _ => rfl
  case inr.inr.inr =>
    have hruns : Runs m i := ⟨hw, (m.instrInRange_iff _).mp hr, hb, hd⟩
    obtain ⟨-, -, -, -, hframe⟩ := m.frame_fields
    rcases exec_dataSlot hexec with hkept | ⟨r, d, s, rfl, hok, hkept⟩
    · exact .inl fun a => (hkept a).trans (hframe a)
    · exact .inr ⟨r, d, s, hruns, hok, fun a ha => (hkept a ha).trans (hframe a)⟩

/-! ## What the three instructions that write a register do (R260, R262, R263) -/

/-- `LD` is the checked read of the slot at the wrapped sum of displacement and base (R165, R260). -/
theorem exec_ld (r : Reg) (d : Word) (s : Reg) (m : State) :
    exec (.ld r d s) m = withDataCheck (d + m.readReg s)
      (m.writeReg r (m.dataSlot (d + m.readReg s).toNat).word) m := by
  rw [← State.effectiveAddress_eq]; rfl

/-- Settles O31: the data check passes exactly when the address is in `[0, DC)`. -/
theorem ldLoadsTheWordOrFaults : Obligations.LdLoadsTheWordOrFaults := by
  intro r d s m
  rw [exec_ld, ← m.dataInRange_iff, Bool.not_eq_true]
  refine ⟨fun hin => ?_, fun hout => ?_⟩
  · exact ⟨_, withDataCheck_in m hin, State.finish_returned _ _, m.readReg_writeReg_same r _,
      unchanged_writeReg _ _ _ _, sameConsole_writeReg _ _ _ _⟩
  · exact ⟨_, withDataCheck_out m hout, State.finish_returned _ _, unchanged_finish _ _,
      sameConsole_finish _ _⟩

/-- Settles O33: the address is the wrapped sum, and `LDA` has no data check. -/
theorem ldaWritesTheEffectiveAddress : Obligations.LdaWritesTheEffectiveAddress :=
  fun r _ _ m => ⟨_, rfl, State.finish_returned _ _,
    (congrArg BitVec.toInt (m.readReg_writeReg_same r _)).trans (wrap32_toInt _),
    unchanged_writeReg _ _ _ _, sameConsole_writeReg _ _ _ _⟩

/-- Whatever the base register holds, `LDC` leaves the constant in its destination. -/
theorem exec_ldc_readReg {r s : Reg} {d : Word} {m t : State}
    (h : exec (.ldc r d s) m = .next t) : t.readReg r = d := by
  injection h with h
  rw [← h]
  exact m.readReg_writeReg_same r d

/-- Settles O34: both executions of the second clause leave the constant itself. -/
theorem ldcWritesTheConstant : Obligations.LdcWritesTheConstant :=
  fun r d _ m => ⟨⟨_, rfl, State.finish_returned _ _, m.readReg_writeReg_same r d,
      unchanged_writeReg _ _ _ _, sameConsole_writeReg _ _ _ _⟩,
    fun _ _ _ _ h h' => (exec_ldc_readReg h').trans (exec_ldc_readReg h).symm⟩

end Sys2Proof.Machine

/-! # Proofs of the statements about control transfer (44_control.md) -/

namespace Sys2Proof.Machine

/-! ## The six jumps (R290 to R296) -/

/-- Settles O36: a jump that is taken writes the program counter, one that is not only records its
result. -/
theorem jumpsFollowTheirComparison : Obligations.JumpsFollowTheirComparison := by
  intro form hform r d s m
  refine ⟨_, exec_jumpForm hform r d s m, State.finish_returned _ _, ?_⟩
  cases form.2 (m.readReg r).toInt with
  | true => exact ⟨m.pc_writePc _, unchanged_writeReg _ _ _ _, sameConsole_writeReg _ _ _ _⟩
  | false =>
    exact ⟨rfl, { unchanged_finish m .ok with regs := fun _ _ => rfl }, sameConsole_finish _ _⟩

/-- Settles O37: the jump's step leaves its target in the program counter (R169), and the step after
it fails the fetch check (R161), as no step changes the capacity. -/
theorem jumpOutsideTheStoreFaultsAtTheFetch : Obligations.JumpOutsideTheStoreFaultsAtTheFetch := by
  intro form hform m r d s hruns htaken houtside
  obtain ⟨-, -, -, -, -, -, -, -, -, hjump⟩ := operandsSeeTheAdvancedPc
  obtain ⟨t, hstep, ⟨hok, hidle⟩, hpc⟩ := hjump form hform m r d s hruns
  obtain ⟨hconfig, -⟩ := step_keeps_config_imem hstep
  rw [if_pos htaken] at hpc
  rw [← hpc, ← hconfig] at houtside
  exact ⟨t, hstep, hok, hpc, fetchOutsideTheStoreChangesNothing t hidle houtside⟩

/-! ## Writes of the program counter (R297) -/

section
variable {m t : State}

/-- The program counter stays the same register. -/
theorem step_readReg_pcIndex (h : step m = .next t) : t.readReg m.config.pcIndex = t.pc := by
  obtain ⟨hconfig, -⟩ := step_keeps_config_imem h
  rw [State.pc, hconfig]

/-- `LDC` reads no register: its step leaves the constant in the destination (R263). -/
theorem Runs.step_ldc {r s : Reg} {d : Word} (h : Runs m (.ldc r d s)) :
    step m = .next ((m.rearm.advance.writeReg r d).finish .ok) :=
  h.step_eq_exec

/-- The step of an input instruction whose destination is the program counter and which finds a line
with a value (R191, R192). -/
theorem Runs.step_input_pc {i : Instr} {kind : InputKind} {line : List Byte}
    {rest : List (List Byte)} {v : Word} {haltFlag : Bool} (h : Runs m i)
    (hasks : AsksFor i ⟨kind, m.config.pcIndex⟩) (hlines : m.inputLines = line :: rest)
    (hparse : parseLine kind line = .value v haltFlag) :
    ∃ m', step m = .next m' ∧ Returned m' (if haltFlag then .halted else .ok) ∧ m'.pc = v := by
  obtain ⟨m', hexec, hvalue, hreturned, -⟩ :=
    exec_input_value (m := m.rearm.advance) hasks (by simpa using hlines) hparse
  have hstep : step m = .next m' := h.step_eq_exec.trans hexec
  exact ⟨m', hstep, hreturned, step_readReg_pcIndex hstep ▸ hvalue⟩

end

/-- Settles O38: each step leaves its value in its destination, which is the program counter after
the step too. -/
theorem writesOfThePcTransferControl : Obligations.WritesOfThePcTransferControl := by
  obtain ⟨-, hwrapping, hdiv, hld, -, hlda, -⟩ := operandsSeeTheAdvancedPc
  refine ⟨fun m d s h => ?lda, fun m d s h => ?ldc, fun m d s h hrange => ?ld,
    fun form hform m s t h => ?wrapping, fun m s t h hne => ?div,
    fun m s t line rest v haltFlag h hlines hparse => ?in_,
    fun m s t line rest v haltFlag h hlines hparse => ?inb⟩
  case lda =>
    obtain ⟨t, hstep, hok, hvalue⟩ := hlda m _ d s h
    exact ⟨t, hstep, hok, step_readReg_pcIndex hstep ▸ hvalue⟩
  case ldc => exact ⟨_, h.step_ldc, State.finish_returned _ _, by simp [State.pc]⟩
  case ld =>
    obtain ⟨t, hstep, hchecked⟩ := hld m _ d s h
    rw [if_pos hrange] at hchecked
    exact ⟨t, hstep, step_readReg_pcIndex hstep ▸ hchecked⟩
  case wrapping =>
    obtain ⟨m', hstep, hok, hvalue⟩ := hwrapping form hform m _ s t h
    exact ⟨m', hstep, hok, step_readReg_pcIndex hstep ▸ hvalue⟩
  case div =>
    obtain ⟨m', hstep, hdivided⟩ := hdiv m _ s t h
    rw [if_neg hne] at hdivided
    exact ⟨m', hstep, step_readReg_pcIndex hstep ▸ hdivided⟩
  case in_ => exact h.step_input_pc (kind := .integer) rfl hlines hparse
  case inb => exact h.step_input_pc (kind := .boolean) rfl hlines hparse

end Sys2Proof.Machine

/-! # Proofs of the statements about the host interface (60_exceptions.md) -/

namespace Sys2Proof.Machine

/-- Settles O48: an operation keeps the parameters, so they stay in range, and the rest of the
invariant. -/
theorem hostOperationsKeepTheInvariant : Obligations.HostOperationsKeepTheInvariant := by
  intro op m h
  obtain ⟨hvalid, -⟩ := m.wf_iff.mp h
  exact ((MeetsInvariant.of_wf h).hostCall op).wf hvalid

/-! ## Registers, data slots and the breakpoint (R328, R329, R331) -/

theorem hostReg?_val (r : Reg) : hostReg? (r.val : Int) = some r := by
  simp [hostReg?, regOfNat?_lt r.isLt]

theorem hostReg?_eq_none {i : Int} (h : i < 0 ∨ 8 ≤ i) : hostReg? i = none := by
  unfold hostReg?
  split
  · exact regOfNat?_ge (by omega)
  · rfl

theorem hostAddress?_of_lt {capacity a : Nat} (h : a < capacity) :
    hostAddress? capacity (a : Int) = some a := by
  simp [hostAddress?, h]

theorem hostAddress?_eq_none {capacity : Nat} {a : Int} (h : a < 0 ∨ (capacity : Int) ≤ a) :
    hostAddress? capacity a = none :=
  if_neg (by omega)

/-- The result of a step is not among the things a frame is about. -/
theorem Unchanged.of_finish {rs : List Reg} {stored : List Nat} {m t : State} {r : StepResult}
    (h : Unchanged rs stored m (t.finish r)) : Unchanged rs stored m t :=
  ⟨h.config, h.regs, h.instrs, h.data, h.bp, h.icount, h.pendingRun, h.loadResult⟩

theorem unchanged_hostSetData (m : State) (a : Nat) (v : Word) :
    Unchanged [] [a] m (m.hostSetData a v) :=
  ⟨rfl, fun _ _ => rfl, fun _ => rfl,
    fun _ hb => State.dataSlot_setDataSlot_other _ _ (List.ne_of_not_mem_cons hb),
    rfl, rfl, rfl, rfl⟩

/-- Settles O60: an index or address in range is the register or slot itself, any other is none. -/
theorem hostAccessorsReachOnePlace : Obligations.HostAccessorsReachOnePlace := by
  intro m v hidle
  simp only [hostCall_of_idle hidle, hostCallIdle, hostGetReg, hostSetReg, hostGetData, hostSetData]
  refine ⟨fun i r hi => ?reg, fun i hi => ?noReg, fun a ha => ?slot, fun a ha => ?noSlot, rfl, rfl⟩
  case reg =>
    rw [hi, hostReg?_val]
    exact ⟨rfl, rfl, m.readReg_writeReg_same r v, (unchanged_writeReg m r v .ok).of_finish,
      ⟨⟨rfl, rfl, rfl⟩, rfl⟩⟩
  case noReg =>
    rw [hostReg?_eq_none hi]
    exact ⟨rfl, rfl⟩
  case slot =>
    rw [hostAddress?_of_lt ha]
    exact ⟨rfl, rfl, m.dataSlot_setDataSlot_same a _, unchanged_hostSetData m a v,
      ⟨⟨rfl, rfl, rfl⟩, rfl⟩⟩
  case noSlot =>
    rw [hostAddress?_eq_none ha]
    exact ⟨rfl, rfl⟩

/-! ## A bulk run with a larger bound (R333) -/

/-- How a run ends that may make `k` calls more: only one that waits has a use for them. -/
def RunEnd.allow (k : Nat) (e : RunEnd) : RunEnd :=
  match e with
  | .waits further => .waits (further + k)
  | .returned _ | .refused _ => e

@[simp] theorem RunEnd.allow_eq_returned_iff (k : Nat) (e : RunEnd) (r : StepResult) :
    e.allow k = .returned r ↔ e = .returned r := by
  cases e <;> simp [RunEnd.allow]

@[simp] theorem RunEnd.allow_allow (n k : Nat) (e : RunEnd) :
    (e.allow n).allow k = e.allow (n + k) := by
  cases e <;> simp [RunEnd.allow, Nat.add_assoc]

section
variable {m t : State} {n calls : Nat} {r : StepResult}

/-- A run with a call to make goes on from the state after its first step, or ends with that call. -/
theorem runUntilHalt_succ_cases (m : State) :
    (∃ t, ∀ n, runUntilHalt (n + 1) m
      = { runUntilHalt n t with calls := (runUntilHalt n t).calls + 1 }) ∨
    (∃ o : RunOutcome, o.ending ≠ .returned .ok ∧ o.calls ≤ 1 ∧
      ∀ n, runUntilHalt (n + 1) m = { o with ending := o.ending.allow n }) := by
  cases hstep : step m with
  | fault f => cases f
  | refused why =>
    exact .inr ⟨⟨m, .refused why, 1⟩, by simp, le_rfl, runUntilHalt_refused hstep⟩
  | next t =>
    by_cases hok : t.result = some .ok
    · exact .inl ⟨t, runUntilHalt_ok hstep hok⟩
    · cases hresult : t.result with
      | none =>
        refine .inr ⟨⟨t, .waits 0, 0⟩, by simp, Nat.zero_le 1, fun n => ?_⟩
        simp [runUntilHalt_blocked hstep hresult, RunEnd.allow]
      | some r =>
        have hne : r ≠ .ok := fun hr => hok (hr ▸ hresult)
        exact .inr ⟨⟨t, .returned r, 1⟩, by simp [hne], le_rfl, runUntilHalt_stop hstep hresult hne⟩

theorem runUntilHalt_calls_le (n : Nat) (m : State) : (runUntilHalt n m).calls ≤ n := by
  induction n generalizing m with
  | zero => exact le_rfl
  | succ n ih =>
    rcases runUntilHalt_succ_cases m with ⟨t, hrun⟩ | ⟨o, -, hcalls, hrun⟩ <;> rw [hrun]
    · exact Nat.succ_le_succ (ih t)
    · exact hcalls.trans (Nat.le_add_left 1 n)

/-- A run that ends with `OK` has made all its calls. -/
theorem runUntilHalt_calls_of_ok (h : (runUntilHalt n m).ending = .returned .ok) :
    (runUntilHalt n m).calls = n := by
  induction n generalizing m with
  | zero => rfl
  | succ n ih =>
    rcases runUntilHalt_succ_cases m with ⟨t, hrun⟩ | ⟨o, hne, -, hrun⟩ <;> rw [hrun] at h ⊢
    · exact congrArg (· + 1) (ih h)
    · exact absurd ((RunEnd.allow_eq_returned_iff n _ _).mp h) hne

/-- A run that does not end with `OK` has no use for more calls, but to keep them while it waits. -/
theorem runUntilHalt_add (h : (runUntilHalt n m).ending ≠ .returned .ok) (k : Nat) :
    runUntilHalt (n + k) m
      = { runUntilHalt n m with ending := (runUntilHalt n m).ending.allow k } := by
  induction n generalizing m with
  | zero => exact absurd rfl h
  | succ n ih =>
    rw [Nat.add_right_comm]
    rcases runUntilHalt_succ_cases m with ⟨t, hrun⟩ | ⟨o, -, -, hrun⟩ <;> simp only [hrun] at h ⊢
    · rw [ih h]
    · rw [RunEnd.allow_allow]

theorem runUntilHalt_add_of_returned (h : (runUntilHalt n m).ending = .returned r) (hne : r ≠ .ok)
    (k : Nat) : runUntilHalt (n + k) m = runUntilHalt n m := by
  rw [runUntilHalt_add (by simpa [h] using hne)]
  generalize runUntilHalt n m = o at h ⊢
  obtain ⟨s, ending, c⟩ := o
  cases h
  rfl

theorem hostRun_eq_ran_iff :
    hostRun n m = (t, .ran r calls) ↔ runUntilHalt n m.clearRun = ⟨t, .returned r, calls⟩ := by
  unfold hostRun
  obtain ⟨s, ending, c⟩ := runUntilHalt n m.clearRun
  cases ending <;> simp [and_comm, and_left_comm]

theorem State.clearRun_of_none (h : m.pendingRun = none) : m.clearRun = m := by
  rw [State.clearRun, ← h]

end

/-- Settles O57: the first call decides whether there are more, and the host gets the run's end. -/
theorem bulkRunStopsAtTheFirstResult : Obligations.BulkRunStopsAtTheFirstResult := by
  refine ⟨runUntilHalt_zero, fun n m t hstep => ?step, fun n m why hstep => ?refused,
    fun n m => ?bound, fun n m t r calls hidle hpending hrun => ?host, fun m hidle => ?one⟩
  case step =>
    exact ⟨fun hok => runUntilHalt_ok hstep hok n,
      fun r hresult hne => runUntilHalt_stop hstep hresult hne n,
      fun hnone => runUntilHalt_blocked hstep hnone n⟩
  case refused => exact runUntilHalt_refused hstep n
  case bound =>
    refine ⟨runUntilHalt_calls_le n m, runUntilHalt_calls_of_ok, fun r hend hne k hle => ?_⟩
    obtain ⟨d, rfl⟩ := Nat.exists_eq_add_of_le hle
    exact runUntilHalt_add_of_returned hend hne d
  case host =>
    rw [hostCall_of_idle hidle]
    exact hostRun_eq_ran_iff.mpr (by rw [State.clearRun_of_none hpending, hrun])
  case one =>
    rw [hostCall_of_idle hidle, hostCall_of_idle hidle]
    rfl

/-! ## The end of a run with its host (R336, R337) -/

section
variable {m t : State} {n calls : Nat} {r : StepResult}

theorem hostRun_add_of_ran (h : hostRun n m = (t, .ran r calls)) (hne : r ≠ .ok) (k : Nat) :
    hostRun (n + k) m = (t, .ran r calls) := by
  rw [hostRun_eq_ran_iff] at h ⊢
  rw [runUntilHalt_add_of_returned (by rw [h]) hne, h]

theorem hostRun_add_of_blocked (h : (hostRun n m).2 = .blocked) (k : Nat) :
    (hostRun (n + k) m).2 = .blocked := by
  obtain ⟨s, further, calls, hrun, -⟩ := hostRun_blocked (Prod.ext rfl h)
  rw [hostRun, runUntilHalt_add (by simp [hrun]), hrun]
  rfl

/-- Input a run is fed while it waits counts as input it found: the calls it has left go as they
would have gone then. -/
theorem feedRun_cons_hostRun (x : ConsoleInput) (feeds : List ConsoleInput) (n : Nat) (m : State) :
    feedRun (x :: feeds) (hostRun n m) =
      if (hostRun n m).2 = .blocked then feedRun feeds (hostRun n (m.feed x)) else hostRun n m := by
  rw [feedRun]
  split
  · next hblocked =>
    have hrun : hostRun n m = ((hostRun n m).1, .blocked) := Prod.ext rfl hblocked
    obtain ⟨hwaiting, hended⟩ := hostRun_blocked_waits hrun
    rw [hostCall_feed hwaiting hended, goOn_feed hrun]
  · rfl

/-- A run that has ended is the same for every larger bound, whatever it was fed. -/
theorem feedRun_hostRun_add {feeds : List ConsoleInput}
    (h : feedRun feeds (hostRun n m) = (t, .ran r calls)) (hne : r ≠ .ok) (k : Nat) :
    feedRun feeds (hostRun (n + k) m) = (t, .ran r calls) := by
  induction feeds generalizing m with
  | nil => exact hostRun_add_of_ran h hne k
  | cons x feeds ih =>
    rw [feedRun_cons_hostRun] at h ⊢
    split at h
    · next hblocked =>
      rw [if_pos (hostRun_add_of_blocked hblocked k)]
      exact ih h
    · rw [hostRun_add_of_ran h hne k]
      rfl

end

/-- Settles O59: both runs are the one whose bound is the sum of theirs. -/
theorem programRunHasOneEnd : Obligations.ProgramRunHasOneEnd := by
  intro text m feeds n n' r r' t t' bytes bytes' ⟨_, hne, ⟨k, hran⟩, hout⟩
    ⟨_, hne', ⟨k', hran'⟩, hout'⟩
  obtain ⟨-, -, -, hidle, -⟩ := loadLeavesTheMachineReset text m
  rw [hostCall_of_idle hidle] at hran hran'
  have hsum := feedRun_hostRun_add hran hne k'
  have hsum' := feedRun_hostRun_add hran' hne' k
  rw [Nat.add_comm, hsum, Prod.mk.injEq, HostReply.ran.injEq] at hsum'
  obtain ⟨rfl, rfl, rfl⟩ := hsum'
  exact ⟨rfl, rfl, rfl, List.append_cancel_left (hout.symm.trans hout')⟩

end Sys2Proof.Machine

/-! # Proof of the statement about the store instruction (43_memory_ops.md) -/

namespace Sys2Proof.Machine

/-- `ST` is the checked write of `x[r]`, tagged with the address before the program counter, to the
slot at the effective address (R165, R261). -/
theorem exec_st (r : Reg) (d : Word) (s : Reg) (m : State) :
    exec (.st r d s) m = withDataCheck (m.effectiveAddress d s)
      (m.memWrite (m.effectiveAddress d s) (m.readReg r) (.writer (m.pc - 1).toNat)) m := rfl

@[simp] theorem State.dataSlot_memWrite_same (m : State) (ea v : Word) (t : DataTag) :
    (m.memWrite ea v t).dataSlot ea.toNat = ⟨v, t⟩ :=
  m.dataSlot_setDataSlot_same ea.toNat ⟨v, t⟩

/-- Settles O32: the data check passes to the write of one slot, or ends the step as it stands. -/
theorem stStoresTheWordOrFaults : Obligations.StStoresTheWordOrFaults := by
  intro r d s m
  rw [exec_st]
  refine ⟨fun hin => ?_, fun hout => ?_⟩
  · exact ⟨_, withDataCheck_in m hin, State.finish_returned _ _, m.dataSlot_memWrite_same _ _ _,
      unchanged_memWrite _ _ _ _ _, sameConsole_memWrite _ _ _ _ _⟩
  · exact ⟨_, withDataCheck_out m hout, State.finish_returned _ _, unchanged_finish _ _,
      sameConsole_finish _ _⟩

end Sys2Proof.Machine
